-- ==== Sys2Proof/Word.lean ====
section
/-!
DEFINITION. The bit widths of HUFFCORE's values, at the default parameters of 00_scope.md R8 (log 1).
-/

namespace Sys2Proof

/-- A register or command word: 32 bits (10_state.md R21, 30_encoding.md R90). -/
abbrev Word := BitVec 32

/-- A byte of the bitstream buffer BS (10_state.md R36). -/
abbrev Byte := BitVec 8

/-- A Symbol: `SYM_W` = 8 bits, unsigned (00_scope.md R8). -/
abbrev Sym := BitVec 8

/-- A count or node weight: `WEIGHT_W` = 32 bits, unsigned (00_scope.md R8, 40_tree_builder.md R126). -/
abbrev Weight := BitVec 32

/-- A node index: `IDX_W` = 9 bits (00_scope.md R8). -/
abbrev NodeIdx := BitVec 9

/-- One element of NA: `NA_W` = 4 + 8 + 2*9 + 32 = 62 bits (10_state.md R32). -/
abbrev NodeElem := BitVec 62

/-- One element of CT: `CT_W` = 8 + 255 = 263 bits (10_state.md R34). -/
abbrev CodeElem := BitVec 263

/-- A bitstring: a list of bits, first bit first, "a list of bits, not a number" (00_scope.md R11). -/
abbrev BitString := List Bool

end Sys2Proof
end

