-- ==== Sys2Proof/Config.lean ====
section
/-!
DEFINITION. The parameters of 00_scope.md R8 at their defaults (log 1), the six address spaces of 20_memory.md R60, and the
free values: what the spec leaves "any value" is an opaque constant here, so that no proof can learn a value of it.
-/

namespace Sys2Proof

namespace Config

/-- `SYM_W`, width of a Symbol in bits (00_scope.md R8). -/
abbrev symW : Nat := 8

/-- `NSYM` = 2^SYM_W, the size of the alphabet (00_scope.md R8). -/
abbrev nsym : Nat := 256

/-- `WEIGHT_W`, width of a count or weight in bits (00_scope.md R8). -/
abbrev weightW : Nat := 32

/-- `NODE_CAP` = 2*NSYM, the entries of the node arena (00_scope.md R8). -/
abbrev nodeCap : Nat := 512

/-- `IDX_W` = SYM_W + 1, width of a node index in bits (00_scope.md R8). -/
abbrev idxW : Nat := 9

/-- `CODE_LEN_MAX` = NSYM - 1, the longest code in bits (00_scope.md R8). -/
abbrev codeLenMax : Nat := 255

/-- `LEN_W` = SYM_W, width of a code-length field (00_scope.md R8). -/
abbrev lenW : Nat := 8

/-- `SYM_CAP`, entries of the symbol buffer (00_scope.md R8). -/
abbrev symCap : Nat := 65536

/-- `BS_CAP`, bytes of the bitstream buffer (00_scope.md R8). -/
abbrev bsCap : Nat := 65536

end Config

/-- The six address spaces (20_memory.md R60). -/
inductive Space
  | csr
  | ft
  | na
  | ct
  | sym
  | bs
deriving DecidableEq, Repr

/-- The element width of a space (20_memory.md R60). -/
@[reducible] def Space.width : Space → Nat
  | .csr => 32
  | .ft => Config.weightW
  | .na => 62
  | .ct => 263
  | .sym => Config.symW
  | .bs => 8

/-- The number of elements of a space (20_memory.md R60). -/
def Space.size : Space → Nat
  | .csr => 8
  | .ft => Config.nsym
  | .na => Config.nodeCap
  | .ct => Config.nsym
  | .sym => Config.symCap
  | .bs => Config.bsCap

namespace Config

/-- FREE VALUE (log 4). What element `i` of memory `sp` holds after the `epoch`-th reset until it is written: "every element
holds an arbitrary value of its width, possibly different after each reset" (10_state.md R44, 93_implementation_defined.md U18). -/
opaque unwritten (epoch : Nat) (sp : Space) (i : Nat) : BitVec sp.width

/-- FREE VALUE (log 5). What the `draw`-th host read returns when the spec leaves it unspecified: a read other than of STATUS
while BUSY (20_memory.md R62, R71), or of an index out of range (R66). -/
opaque unspecifiedRead (draw : Nat) (sp : Space) (i : Nat) : BitVec sp.width

end Config

end Sys2Proof
end

