-- ==== Sys2Proof/Syntax.lean ====
section
/-!
DEFINITION. The six commands of the block, one constructor per row of spec/opcode_table.json (30_encoding.md R91). A command
has no operand field: "Every operand of every command is implicit: the command word names none" (R97).
-/

namespace Sys2Proof

/-- A command of the block (00_scope.md R2, 30_encoding.md R91). -/
inductive Instr
  /-- `NOP`, 44_system_commands.md R200. -/
  | nop
  /-- `BUILD`, the huffman_tree_builder, 40_tree_builder.md R121. -/
  | build
  /-- `GEN`, the code_table_generator, 41_code_table_generator.md R141. -/
  | gen
  /-- `ENCODE`, the huffman_encoder, 42_encoder.md R162. -/
  | encode
  /-- `DECODE`, the huffman_decoder, 43_decoder.md R181. -/
  | decode
  /-- `CLRERR`, 44_system_commands.md R201. -/
  | clrerr
deriving DecidableEq, Repr

end Sys2Proof
end

