-- ==== Sys2Proof/WellFormed.lean ====
section
/-!
DEFINITION. Which command words are legal (30_encoding.md R96), and which commands are well-formed.
-/

namespace Sys2Proof

/-- The `OP` field of a command word, bits 3:0 (30_encoding.md R90). -/
def opField (w : Word) : BitVec 4 := w.extractLsb' 0 4

/-- The `RSVZ` field of a command word, bits 31:4 (30_encoding.md R90). -/
def rsvzField (w : Word) : BitVec 28 := w.extractLsb' 4 28

/-- Check: `RSVZ` "must be written as 0; any 1 bit makes the word illegal" (30_encoding.md R90). -/
def rsvzIsZero (w : Word) : Bool := rsvzField w == 0

/-- Check: the opcode is one of the six; `0x6` to `0xF` are reserved (30_encoding.md R91). -/
def opIsAssigned (w : Word) : Bool := decide ((opField w).toNat ≤ 5)

/-- "A word `w` is *legal* when `w[31:4] = 0` and `w[3:0] <= 5`" (30_encoding.md R96). -/
def legalWord (w : Word) : Bool := rsvzIsZero w && opIsAssigned w

/-- Every command is well-formed: it has no operand to be wrong (30_encoding.md R97). -/
def Instr.wellFormed : Instr → Bool
  | .nop => true
  | .build => true
  | .gen => true
  | .encode => true
  | .decode => true
  | .clrerr => true

end Sys2Proof
end

