-- ==== Sys2Proof/Decode.lean ====
section
/-!
DEFINITION. The decoder of command words, total, rejecting by name (30_encoding.md R90, R91, R96), the encoder, and the
reading of an opcode-table row's bits.
-/

namespace Sys2Proof

/-- Why a command word is not legal (30_encoding.md R96). Either way an accepted word raises IllegalCommandError. -/
inductive DecodeError
  /-- A bit of `RSVZ` (31:4) is 1 (30_encoding.md R90). -/
  | reservedBitSet
  /-- The opcode is `0x6` to `0xF` (30_encoding.md R91). -/
  | reservedOpcode
deriving DecidableEq, Repr

/-- The opcode map of 30_encoding.md R91; `none` for the reserved opcodes `0x6` to `0xF`. -/
def opcodeMap (op : BitVec 4) : Option Instr :=
  match op with
  | 0x0#4 => some .nop
  | 0x1#4 => some .build
  | 0x2#4 => some .gen
  | 0x3#4 => some .encode
  | 0x4#4 => some .decode
  | 0x5#4 => some .clrerr
  | _ => none

/-- The command a word selects (30_encoding.md R90, R91), or why it is illegal (R96). -/
def decode (w : Word) : Except DecodeError Instr :=
  if rsvzIsZero w then
    match opcodeMap (opField w) with
    | some i => .ok i
    | none => .error .reservedOpcode
  else .error .reservedBitSet

/-- The opcode of a command (30_encoding.md R91). -/
def opcodeOf : Instr → BitVec 4
  | .nop => 0x0
  | .build => 0x1
  | .gen => 0x2
  | .encode => 0x3
  | .decode => 0x4
  | .clrerr => 0x5

/-- The command word of a command: `RSVZ` = 0 above `OP` (30_encoding.md R90, R91). -/
def encode (i : Instr) : Word := (0#28 ++ opcodeOf i : BitVec 32)

/-- What the decoder reads from an opcode-table row's bits: the row's low `nbits` bits of `w`, every bit above them 0. A
command word is one 32-bit word and is never stored in a memory (30_encoding.md R90), so nothing is laid out in bytes; a row
that needs more than 32 bits is no command word. -/
def decodeTableWord (nbits w : Nat) : Option Instr :=
  let v := w % 2 ^ nbits
  if v < 2 ^ 32 then
    match decode (BitVec.ofNat 32 v) with
    | .ok i => some i
    | .error _ => none
  else none

theorem decode_nop : decode 0x00000000#32 = .ok .nop := by decide
theorem decode_build : decode 0x00000001#32 = .ok .build := by decide
theorem decode_gen : decode 0x00000002#32 = .ok .gen := by decide
theorem decode_encode : decode 0x00000003#32 = .ok .encode := by decide
theorem decode_decode : decode 0x00000004#32 = .ok .decode := by decide
theorem decode_clrerr : decode 0x00000005#32 = .ok .clrerr := by decide

end Sys2Proof
end

