-- ==== Sys2Proof/Machine/State.lean ====
section
/-!
DEFINITION. The state of HUFFCORE (10_state.md R20): the registers of the CSR port, the five memories, the hidden state of a
running command; and, the model's own, the coming host transactions, the replies to host reads, and the counters that select
free values. Also the block's error kinds, and the machine's (empty) fault and refusal reasons.
-/

namespace Sys2Proof.Machine

/-- The decoder's state, `STATUS.DEC_STATE` (10_state.md R23, 43_decoder.md R184). -/
inductive DecState
  /-- `AT_ROOT` = 0: no bit consumed since the start or the last emission. -/
  | atRoot
  /-- `IN_PATH` = 1: inside a code. -/
  | inPath
deriving DecidableEq, Repr

/-- A memory: an array of whole elements by index (20_memory.md R60, R64), held as the list of the elements written since the
last reset, indices strictly rising (log 6). An index not listed has not been written since then. -/
abbrev Memory (w : Nat) := List (Nat × BitVec w)

/-- The canonical form: indices strictly rising and below the space's element count. An unlisted index holds no written value,
so no entry can equal what an unlisted index holds, and equal memories are equal lists. -/
abbrev Memory.wf (size : Nat) {w : Nat} (m : Memory w) : Prop :=
  m.Pairwise (fun a b => a.1 < b.1) ∧ ∀ c ∈ m, c.1 < size

/-- The errors the block raises (60_exceptions.md R251). AmbiguousCodeError is not among them: "never by the block". -/
inductive Err
  | emptyInput
  | malformedTree
  | unknownSymbol
  | truncatedStream
  | corruptTree
  | illegalCommand
  | weightOverflow
  | capacity
deriving DecidableEq, Repr

/-- The hidden state of a running command (10_state.md R20 (c), R37 to R41), as a machine that runs a command one loop
iteration at a time holds it (00_scope.md R17). The decoder's `dstate` is `STATUS.DEC_STATE` and stands there. -/
inductive Hidden
  /-- No command is running. -/
  | idle
  /-- A command word has been accepted (30_encoding.md R94); its command has made no step yet. -/
  | accepted (w : Word)
  /-- BUILD in phase 1: the next symbol value, `PQ` (ascending), and `n` (R37, R38; 40_tree_builder.md R121). -/
  | buildScan (s : Nat) (pq : List Nat) (n : Nat)
  /-- BUILD in phase 3: `PQ` and `n`. -/
  | buildMerge (pq : List Nat) (n : Nat)
  /-- GEN in phase 3: the nodes still to visit, each with its path, the next one first (R39, log 9). -/
  | genWalk (stack : List (NodeIdx × BitString))
  /-- ENCODE: `i` and `bitpos` (R40). -/
  | encodeAt (i bitpos : Nat)
  /-- DECODE: `j`, `cur` and `m` (R41). -/
  | decodeAt (j : Nat) (cur : NodeIdx) (m : Nat)
deriving DecidableEq, Repr

/-- A host transaction (20_memory.md R62, R63). -/
inductive HostTx
  /-- `HostRead(S:i)`. -/
  | read (sp : Space) (i : Nat)
  /-- `HostWrite(S:i, v)`. -/
  | write (sp : Space) (i : Nat) (v : BitVec sp.width)
deriving DecidableEq, Repr

/-- What happens next at the block's boundary (log 2, log 3). -/
inductive Event
  /-- A host transaction. A write of CMD to an idle block runs the whole command as one atomic step (00_scope.md R17,
  20_memory.md R70, 70_reset_and_hazards.md R296). -/
  | host (t : HostTx)
  /-- A host write of `w` to CMD of which this step is the acceptance (30_encoding.md R94); the command then runs by `tick`s,
  and the host's transactions meanwhile meet `BUSY = 1` (log 2, log 12). -/
  | issue (w : Word)
  /-- One loop iteration of the running command (00_scope.md R17). -/
  | tick
  /-- The host polls STATUS until it reads `BUSY = 0` (30_encoding.md R100, `WAIT`). -/
  | wait
  /-- The platform applies reset (70_reset_and_hazards.md R280). -/
  | reset
deriving DecidableEq, Repr

/-- What a host read returned. -/
structure Reply where
  sp : Space
  idx : Nat
  val : BitVec sp.width
deriving DecidableEq, Repr

/-- The machine's state (10_state.md R20). Registers are held by their implemented fields; `Flags.lean` gives the words the
host reads (log 7). `CMD` holds no state (R22). -/
structure State where
  /-- `STATUS.BUSY` (R23). -/
  busy : Bool
  /-- `STATUS.DONE` (R23). -/
  done : Bool
  /-- `STATUS.ERR` (R23). -/
  err : Bool
  /-- `STATUS.DEC_STATE`, the decoder's `dstate` (R23, R41). -/
  decState : DecState
  /-- `STATUS.LAST_OP` (R23). -/
  lastOp : BitVec 4
  /-- `ERRCODE` bits 3:0 (R24). -/
  errCode : BitVec 4
  /-- `ERRINFO` (R25). -/
  errInfo : Word
  /-- `SYM_LEN` (R27). -/
  symLen : Word
  /-- `BIT_LEN` (R28). -/
  bitLen : Word
  /-- `ROOT` bits 8:0 (R29). -/
  root : NodeIdx
  /-- `NODE_COUNT` bits 9:0 (R30). -/
  nodeCount : BitVec 10
  /-- `FT`, the frequency table (R31). -/
  ft : Memory 32
  /-- `NA`, the node arena (R32). -/
  na : Memory 62
  /-- `CT`, the code table (R34). -/
  ct : Memory 263
  /-- `SYM`, the symbol buffer (R35). -/
  sym : Memory 8
  /-- `BS`, the bitstream buffer (R36). -/
  bs : Memory 8
  /-- The hidden state of the running command (R37 to R41). -/
  hidden : Hidden
  /-- The model's own: what happens next at the boundary, oldest first (log 3). -/
  inputs : List Event
  /-- The model's own: what host reads have returned, newest first (log 3). -/
  replies : List Reply
  /-- The model's own: the number of resets applied, which selects the free memory contents (log 4). -/
  epoch : Nat
  /-- The model's own: the number of host reads made, which selects the free value of an unspecified read (log 5). -/
  draws : Nat
deriving DecidableEq, Repr

/-- Reasons for the machine to stop with a fault: there are none. "No command waits for the host or for anything else, so no
command can hang and the block has no stuck state" (70_reset_and_hazards.md R295); every error the block raises is an
exception whose entry the spec describes, a next state (60_exceptions.md R262). Nobody raises one: safe. -/
inductive Fault
deriving DecidableEq, Repr

/-- Reasons for a missing meaning. -/
inductive Refusal
  /-- Raised by an arm of `exec` whose command has no meaning yet; no arm is such. Safe: it stops the model. -/
  | notModelled (mnemonic : String)
deriving DecidableEq, Repr

/-- The machine right after reset (10_state.md R44, 70_reset_and_hazards.md R280): every register 0, no command running, no
element of any memory written, so that each holds its free value (log 4). The model's own fields: logs 3, 4, 5. -/
def State.reset : State where
  busy := false
  done := false
  err := false
  decState := .atRoot
  lastOp := 0
  errCode := 0
  errInfo := 0
  symLen := 0
  bitLen := 0
  root := 0
  nodeCount := 0
  ft := []
  na := []
  ct := []
  sym := []
  bs := []
  hidden := .idle
  inputs := []
  replies := []
  epoch := 0
  draws := 0

end Sys2Proof.Machine
end

