-- ==== Sys2Proof/Machine/Flags.lean ====
section
/-!
DEFINITION. The flags and what is computed from them: the STATUS word (10_state.md R23), the error codes (60_exceptions.md
R251), the gate on command issues (30_encoding.md R93), and the words the host reads from the CSR port (10_state.md R21).
-/

namespace Sys2Proof.Machine

/-- A Bool as one bit of a register. -/
def bit (b : Bool) : BitVec 1 := BitVec.ofBool b

/-- `DEC_STATE`: 0 = `AT_ROOT`, 1 = `IN_PATH` (10_state.md R23). -/
def DecState.bit : DecState → BitVec 1
  | .atRoot => 0
  | .inPath => 1

/-- The STATUS word (10_state.md R23): reserved 31:8, `LAST_OP` 7:4, `DEC_STATE` 3, `ERR` 2, `DONE` 1, `BUSY` 0. -/
def State.statusWord (s : State) : Word :=
  (0#24 ++ s.lastOp ++ s.decState.bit ++ Machine.bit s.err ++ Machine.bit s.done ++ Machine.bit s.busy : BitVec 32)

/-- The error codes (60_exceptions.md R251). -/
def Err.code : Err → BitVec 4
  | .emptyInput => 1
  | .malformedTree => 2
  | .unknownSymbol => 3
  | .truncatedStream => 4
  | .corruptTree => 5
  | .illegalCommand => 7
  | .weightOverflow => 8
  | .capacity => 9

/-- The word of `CLRERR`, the one word accepted while an error is latched (30_encoding.md R93). -/
def clrerrWord : Word := 0x00000005

/-- Whether a command issue of `w` is ignored (30_encoding.md R93): the block is busy, or an error is latched and `w` is not
CLRERR. -/
def State.ignores (s : State) (w : Word) : Bool :=
  s.busy || (s.err && !(w == clrerrWord))

/-- What the host reads from CSR register `i` (10_state.md R21 to R30): reserved bits read 0, `CMD` reads 0. -/
def State.csrWord (s : State) (i : Nat) : Word :=
  match i with
  | 1 => s.statusWord
  | 2 => s.errCode.setWidth 32
  | 3 => s.errInfo
  | 4 => s.symLen
  | 5 => s.bitLen
  | 6 => s.root.setWidth 32
  | 7 => s.nodeCount.setWidth 32
  | _ => 0

end Sys2Proof.Machine
end

