-- ==== Sys2Proof/Machine/Ops.lean ====
section
/-!
DEFINITION. The named operations over memories and registers, and the shape every command shares: acceptance
(30_encoding.md R94), completion (R95), raising an error (60_exceptions.md R262), releasing it (R266), and the issue of a
command word (R92 to R95).
-/

namespace Sys2Proof.Machine

/-! ## Memories (20_memory.md R60, R64, R69) -/

/-- The element last written to index `i`, if one has been written since the last reset. -/
def Memory.get {w : Nat} (m : Memory w) (i : Nat) : Option (BitVec w) :=
  match m with
  | [] => none
  | (j, x) :: rest => if i = j then some x else Memory.get rest i

/-- `S[i] <- v`: one whole element is written (20_memory.md R64); the canonical form is kept. -/
def Memory.set {w : Nat} (m : Memory w) (i : Nat) (v : BitVec w) : Memory w :=
  match m with
  | [] => [(i, v)]
  | (j, x) :: rest =>
    if i < j then (i, v) :: (j, x) :: rest
    else if i = j then (i, v) :: rest
    else (j, x) :: Memory.set rest i v

/-- Every element `0 .. size-1` is written with `v`. -/
def Memory.fill {w : Nat} (size : Nat) (v : BitVec w) : Memory w :=
  (List.range size).map fun i => (i, v)

/-- `FT[i]` (10_state.md R31); an element not written since the last reset holds its free value (R44). -/
def State.ftAt (s : State) (i : Nat) : Weight := (Memory.get s.ft i).getD (Config.unwritten s.epoch .ft i)

/-- `NA[i]` (10_state.md R32). -/
def State.naAt (s : State) (i : Nat) : NodeElem := (Memory.get s.na i).getD (Config.unwritten s.epoch .na i)

/-- `CT[i]` (10_state.md R34). -/
def State.ctAt (s : State) (i : Nat) : CodeElem := (Memory.get s.ct i).getD (Config.unwritten s.epoch .ct i)

/-- `SYM[i]` (10_state.md R35). -/
def State.symAt (s : State) (i : Nat) : Sym := (Memory.get s.sym i).getD (Config.unwritten s.epoch .sym i)

/-- `BS[i]` (10_state.md R36). -/
def State.bsAt (s : State) (i : Nat) : Byte := (Memory.get s.bs i).getD (Config.unwritten s.epoch .bs i)

/-- `FT[i] <- v`. -/
def State.setFt (s : State) (i : Nat) (v : Weight) : State := { s with ft := Memory.set s.ft i v }

/-- `NA[i] <- v`. -/
def State.setNa (s : State) (i : Nat) (v : NodeElem) : State := { s with na := Memory.set s.na i v }

/-- `CT[i] <- v`. -/
def State.setCt (s : State) (i : Nat) (v : CodeElem) : State := { s with ct := Memory.set s.ct i v }

/-- `SYM[i] <- v`. -/
def State.setSym (s : State) (i : Nat) (v : Sym) : State := { s with sym := Memory.set s.sym i v }

/-- `BS[i] <- v`. -/
def State.setBs (s : State) (i : Nat) (v : Byte) : State := { s with bs := Memory.set s.bs i v }

/-! ## Registers (10_state.md R21) and hidden state (R20 (c)) -/

/-- `SYM_LEN <- v` (10_state.md R27). -/
def State.setSymLen (s : State) (v : Word) : State := { s with symLen := v }

/-- `BIT_LEN <- v` (10_state.md R28). -/
def State.setBitLen (s : State) (v : Word) : State := { s with bitLen := v }

/-- `ROOT <- v`, a node index (10_state.md R29). -/
def State.setRoot (s : State) (v : NodeIdx) : State := { s with root := v }

/-- `NODE_COUNT <- v` (10_state.md R30). -/
def State.setNodeCount (s : State) (v : BitVec 10) : State := { s with nodeCount := v }

/-- `dstate <- d`, which is `STATUS.DEC_STATE` (10_state.md R41). -/
def State.setDecState (s : State) (d : DecState) : State := { s with decState := d }

/-- The hidden state of the running command (10_state.md R20 (c)). -/
def State.setHidden (s : State) (h : Hidden) : State := { s with hidden := h }

/-! ## Acceptance, completion, errors -/

/-- Acceptance of the command word `w`, one step (30_encoding.md R94):
`STATUS.BUSY <- 1; STATUS.DONE <- 0; STATUS.LAST_OP <- w[3:0]`. -/
def State.accept (s : State) (w : Word) : State :=
  { s with busy := true, done := false, lastOp := opField w, hidden := .accepted w }

/-- Completion, one step (30_encoding.md R95): `STATUS.BUSY <- 0; STATUS.DONE <- 1`. The hidden state "means nothing once the
command has completed" (10_state.md section 6). -/
def State.complete (s : State) : State :=
  { s with busy := false, done := true, hidden := .idle }

/-- `raise E(info)`, TAKING AN EXCEPTION (60_exceptions.md R262), one step:
`ERRCODE <- code of E ; ERRINFO <- zext_32(info) ; STATUS.ERR <- 1 ; STATUS.BUSY <- 0 ; STATUS.DONE <- 1`, and the command
ends. "Nothing else is saved and nothing else is changed". -/
def State.raise (s : State) (e : Err) (info : Word) : State :=
  { s with errCode := e.code, errInfo := info, err := true, busy := false, done := true, hidden := .idle }

/-- Release of the error latch, the block's "return from trap" (60_exceptions.md R266, 44_system_commands.md R201):
`STATUS.ERR <- 0 ; ERRCODE <- 0 ; ERRINFO <- 0`. -/
def State.clearErr (s : State) : State :=
  { s with err := false, errCode := 0, errInfo := 0 }

/-- A piece of a running command: `.ok` carries what goes on; `.error t` says the command has ended, in state `t` (after a
`raise`, or at an `end` of its pseudocode). -/
abbrev Run (α : Type) := Except State α

/-- The end of a command: one that has ended stays so; otherwise its pseudocode ends here, and it completes (R95). -/
def Run.finish (r : Run State) : State :=
  match r with
  | .ok s => s.complete
  | .error t => t

/-- The issue of command word `w` whose command is `body` (30_encoding.md R92): ignored, with no state change (R93), or
accepted (R94), executed and completed (R95). -/
def State.issue (s : State) (w : Word) (body : State → Run State) : State :=
  if s.ignores w then s else (body (s.accept w)).finish

/-- What an accepted word that is not legal executes as: `raise IllegalCommandError(w)` (30_encoding.md R96). -/
def illegalRun (w : Word) (s : State) : Run State := .error (s.raise .illegalCommand w)

/-- The issue of a word that is not legal (30_encoding.md R92, R93, R96). -/
def State.issueIllegal (s : State) (w : Word) : State := s.issue w (illegalRun w)

end Sys2Proof.Machine
end

