-- ==== Sys2Proof/Machine/Operands.lean ====
section
/-!
DEFINITION. The data formats (30_encoding.md R99) and the addressing forms (20_memory.md R77): the fields of an NA element
(10_state.md R32), of a CT element (R34), and the bits of the stream (20_memory.md R68).
-/

namespace Sys2Proof.Machine

/-! ## NA elements (10_state.md R32) -/

/-- What an NA element holds: "3 = reserved, treated by every command exactly as `FREE`" (10_state.md R32). -/
inductive NodeKind
  | free
  | leaf
  | internal
deriving DecidableEq, Repr

/-- `kind`, bits 1:0. -/
def kindOf (e : NodeElem) : NodeKind :=
  match (e.extractLsb' 0 2).toNat with
  | 1 => .leaf
  | 2 => .internal
  | _ => .free

/-- `lv`, bit 2: left child present. -/
def lvOf (e : NodeElem) : Bool := e.getLsbD 2

/-- `rv`, bit 3: right child present. -/
def rvOf (e : NodeElem) : Bool := e.getLsbD 3

/-- `sym`, bits 11:4. -/
def symOf (e : NodeElem) : Sym := e.extractLsb' 4 8

/-- `left`, bits 20:12. -/
def leftOf (e : NodeElem) : NodeIdx := e.extractLsb' 12 9

/-- `right`, bits 29:21. -/
def rightOf (e : NodeElem) : NodeIdx := e.extractLsb' 21 9

/-- `weight`, bits 61:30. -/
def weightOf (e : NodeElem) : Weight := e.extractLsb' 30 32

/-- An NA element from its fields, `kind` least significant. -/
def nodeElem (kind : BitVec 2) (lv rv : BitVec 1) (sym : Sym) (left right : NodeIdx) (weight : Weight) : NodeElem :=
  (weight ++ right ++ left ++ sym ++ rv ++ lv ++ kind : BitVec 62)

/-- `FREENODE`, the all-zero element (40_tree_builder.md R121). -/
def freeNode : NodeElem := 0

/-- `LEAFNODE(s, w)` (40_tree_builder.md R121). -/
def leafNode (s : Sym) (w : Weight) : NodeElem := nodeElem 1 0 0 s 0 0 w

/-- `INTNODE(l, r, w)` (40_tree_builder.md R121). -/
def intNode (l r : NodeIdx) (w : Weight) : NodeElem := nodeElem 2 1 1 0 l r w

/-- The root of the degenerate tree: `INTERNAL`, `lv = 1`, `left = 0`, `rv = 0` (40_tree_builder.md R125). -/
def wrapperNode (w : Weight) : NodeElem := nodeElem 2 1 0 0 0 0 w

/-- `NA[k]` for a node index `k` (20_memory.md R77 (b)). -/
def State.node (s : State) (k : NodeIdx) : NodeElem := s.naAt k.toNat

/-! ## CT elements (10_state.md R34) -/

/-- `len`, bits 7:0; 0 = the symbol has no entry. -/
def lenOf (e : CodeElem) : Nat := (e.extractLsb' 0 8).toNat

/-- `code[k]`, bit `LEN_W + k` of the element. -/
def codeBit (e : CodeElem) (k : Nat) : Bool := e.getLsbD (Config.lenW + k)

/-- The bitstring of an entry, `code[0 .. len-1]`. -/
def codeOf (e : CodeElem) : BitString := (List.range (lenOf e)).map (codeBit e)

/-- The number whose bit `k` is bit `k` of the bitstring. -/
def bitsNat : BitString → Nat
  | [] => 0
  | b :: bs => b.toNat + 2 * bitsNat bs

/-- `ENTRY(p)`: `len = |p|`, `code[k] = p[k]` for `k < |p|` and 0 above (41_code_table_generator.md R141). -/
def entry (p : BitString) : CodeElem :=
  (BitVec.ofNat 255 (bitsNat p) ++ BitVec.ofNat 8 p.length : BitVec 263)

/-- The element `{len = 0, code = 0}`: no entry (41_code_table_generator.md R141 phase 0). -/
def noEntry : CodeElem := 0

/-- `CT[v]` for a symbol `v` (20_memory.md R77 (a)). -/
def State.codeElem (s : State) (v : Sym) : CodeElem := s.ctAt v.toNat

/-! ## Stream bits (20_memory.md R68, R77 (d)) -/

/-- `GetBit(j) = BS[j div 8][7 - (j mod 8)]` (20_memory.md R77). -/
def State.getBit (s : State) (j : Nat) : Bool := (s.bsAt (j / 8)).getLsbD (7 - j % 8)

/-- `t` with bit `k` set to `b`. -/
def setByteBit (t : Byte) (k : Nat) (b : Bool) : Byte :=
  if b then t ||| (1#8 <<< k) else t &&& ~~~(1#8 <<< k)

/-- `PutBit(j, b)` (20_memory.md R77): the first bit put into a byte clears the byte's other seven bits. -/
def State.putBit (s : State) (j : Nat) (b : Bool) : State :=
  if j % 8 = 0 then s.setBs (j / 8) (if b then 0x80 else 0)
  else s.setBs (j / 8) (setByteBit (s.bsAt (j / 8)) (7 - j % 8) b)

end Sys2Proof.Machine
end

