-- ==== Sys2Proof/Machine/CodeTable.lean ====
section
/-!
DEFINITION. The code_table_generator: GEN (41_code_table_generator.md R141 to R150). `genVisit` visits one node; the recursion
`walk` is R141's `Walk`, and the one-iteration-at-a-time machine (`Tick.lean`) visits the same nodes from an explicit stack.
-/

namespace Sys2Proof.Machine

/-- `raise MalformedTreeError(k)`, `ERRINFO` the node index zero-extended (41_code_table_generator.md R141). -/
def malformedAt (s : State) (k : NodeIdx) : State := s.raise .malformedTree (k.setWidth 32)

/-- Phase 0: every element of CT `<- {len = 0, code = 0}` (41_code_table_generator.md R141). -/
def genClear (s : State) : State := { s with ct := Memory.fill Config.nsym noEntry }

/-- Whether the root is the degenerate tree's: left child valid, right child not valid, and the left child a LEAF
(41_code_table_generator.md R143). -/
def isDegenerate (s : State) : Bool :=
  lvOf (s.node s.root) && !rvOf (s.node s.root) && decide (kindOf (s.node (leftOf (s.node s.root))) = .leaf)

/-- Phases 0 to 2: CT cleared; a root that is not INTERNAL raises (41_code_table_generator.md R148); the degenerate tree gets its
one entry, code "0", and the command ends (R143). -/
def genStart (s : State) : Run State :=
  let s := genClear s
  if kindOf (s.node s.root) = .internal then
    if isDegenerate s then
      .error (s.setCt (symOf (s.node (leftOf (s.node s.root)))).toNat (entry [false])).complete
    else .ok s
  else .error (malformedAt s s.root)

/-- One node of the walk (41_code_table_generator.md R141 `Walk`, R145): a leaf whose symbol has no code yet gets its path as
code; an internal node with both children and a path shorter than `CODE_LEN_MAX` gives its children `(left, right)`; anything
else raises MalformedTreeError. -/
def genVisit (k : NodeIdx) (path : BitString) (s : State) : Run (Option (NodeIdx × NodeIdx) × State) :=
  match kindOf (s.node k) with
  | .leaf =>
    if lenOf (s.codeElem (symOf (s.node k))) = 0 then
      .ok (none, s.setCt (symOf (s.node k)).toNat (entry path))
    else .error (malformedAt s k)
  | .internal =>
    if lvOf (s.node k) && rvOf (s.node k) then
      if path.length = Config.codeLenMax then .error (malformedAt s k)
      else .ok (some (leftOf (s.node k), rightOf (s.node k)), s)
    else .error (malformedAt s k)
  | .free => .error (malformedAt s k)

/-- `Walk(k, path)`, left subtree wholly before right (41_code_table_generator.md R141, R144), with `room` edges left below the
node: `room = CODE_LEN_MAX - |path|`, so that with no room an internal node has raised already (R145 (c)). -/
def walk (room : Nat) (k : NodeIdx) (path : BitString) (s : State) : Run State :=
  match room with
  | 0 => (genVisit k path s).map (·.2)
  | room + 1 =>
    (genVisit k path s).bind fun r =>
      match r.1 with
      | none => .ok r.2
      | some (l, rt) => (walk room l (path ++ [false]) r.2).bind (walk room rt (path ++ [true]))

/-- GEN's pseudocode (41_code_table_generator.md R141): phase 3 is `Walk(r, "")`. -/
def genRun (s : State) : Run State :=
  (genStart s).bind fun s => walk Config.codeLenMax s.root [] s

/-- `GEN` (41_code_table_generator.md R141): issued, and if accepted, run to completion. -/
def execGen (s : State) : Host.Outcome State Fault Refusal := .next (s.issue (encode .gen) genRun)

end Sys2Proof.Machine
end

