-- ==== Sys2Proof/Machine/Decoder.lean ====
section
/-!
DEFINITION. The huffman_decoder: DECODE (43_decoder.md R181 to R192). The loop body `decodeBit` is also the iteration of the
one-iteration-at-a-time machine (`Tick.lean`).
-/

namespace Sys2Proof.Machine

/-- What DECODE's loop carries: `cur` and `m` (10_state.md R41) and the machine; `dstate` is the machine's `DEC_STATE`. -/
structure Cursor where
  cur : NodeIdx
  m : Nat
  st : State
deriving DecidableEq, Repr

/-- `raise CorruptTreeError(j)` (43_decoder.md R181). -/
def corruptAt (s : State) (j : Nat) : State := s.raise .corruptTree (BitVec.ofNat 32 j)

/-- The start: a stream longer than BS raises CapacityError before SYM or `DEC_STATE` is touched (43_decoder.md R182); else
`cur <- ROOT ; dstate <- AT_ROOT ; m <- 0`. -/
def decodeStart (s : State) : Run Cursor :=
  if 8 * Config.bsCap < s.bitLen.toNat then .error (s.raise .capacity s.bitLen)
  else .ok { cur := s.root, m := 0, st := s.setDecState .atRoot }

/-- Whether the child on bit `b`'s side is valid (43_decoder.md R181): `lv` for 0, `rv` for 1. -/
def childValid (e : NodeElem) (b : Bool) : Bool := if b then rvOf e else lvOf e

/-- The child index on bit `b`'s side: bit 0 follows `left`, bit 1 follows `right` (43_decoder.md R184). -/
def childOf (e : NodeElem) (b : Bool) : NodeIdx := if b then rightOf e else leftOf e

/-- Arriving at node `nxt` by bit `j` (43_decoder.md R181): a LEAF emits its symbol, or raises CapacityError if SYM is full
(R185), and the walk goes back to the root; an INTERNAL node goes on in the path; no node raises CorruptTreeError (R186 (b)). -/
def decodeArrive (j : Nat) (nxt : NodeIdx) (c : Cursor) : Run Cursor :=
  match kindOf (c.st.node nxt) with
  | .leaf =>
    if c.m = Config.symCap then .error (c.st.raise .capacity (BitVec.ofNat 32 j))
    else
      .ok { cur := c.st.root, m := c.m + 1,
            st := (c.st.setSym c.m (symOf (c.st.node nxt))).setDecState .atRoot }
  | .internal => .ok { cur := nxt, m := c.m, st := c.st.setDecState .inPath }
  | .free => .error (corruptAt c.st j)

/-- One bit, the one at position `j` (43_decoder.md R181): the node stood at must be INTERNAL (R186 (c)) and have the child
for the bit (R186 (a)). -/
def decodeBit (j : Nat) (c : Cursor) : Run Cursor :=
  let e := c.st.node c.cur
  let b := c.st.getBit j
  if kindOf e = .internal then
    if childValid e b then decodeArrive j (childOf e b) c else .error (corruptAt c.st j)
  else .error (corruptAt c.st j)

/-- The loop from bit `j` on, `left` bits remaining (43_decoder.md R181). -/
def decodeLoop (left j : Nat) (c : Cursor) : Run Cursor :=
  match left with
  | 0 => .ok c
  | left + 1 => (decodeBit j c).bind (decodeLoop left (j + 1))

/-- After the last bit (43_decoder.md R181, R187): a stream that ends inside a code raises TruncatedStreamError; else
`SYM_LEN <- m`. -/
def decodeEnd (c : Cursor) : Run State :=
  if c.st.decState = .atRoot then .ok (c.st.setSymLen (BitVec.ofNat 32 c.m))
  else .error (c.st.raise .truncatedStream c.st.bitLen)

/-- DECODE's pseudocode (43_decoder.md R181). -/
def decodeRun (s : State) : Run State :=
  (decodeStart s).bind fun c => (decodeLoop c.st.bitLen.toNat 0 c).bind decodeEnd

/-- `DECODE` (43_decoder.md R181): issued, and if accepted, run to completion. -/
def execDecode (s : State) : Host.Outcome State Fault Refusal := .next (s.issue (encode .decode) decodeRun)

end Sys2Proof.Machine
end

