-- ==== Sys2Proof/Machine/Encoder.lean ====
section
/-!
DEFINITION. The huffman_encoder: ENCODE (42_encoder.md R162 to R172). The loop body `encodeSymbol` is also the iteration of the
one-iteration-at-a-time machine (`Tick.lean`).
-/

namespace Sys2Proof.Machine

/-- The first check: a sequence longer than SYM raises CapacityError before BS is touched (42_encoder.md R163). -/
def encodeStart (s : State) : Run State :=
  if Config.symCap < s.symLen.toNat then .error (s.raise .capacity s.symLen) else .ok s

/-- The packer: the bits `p` are put from stream position `j` on (42_encoder.md R165, 20_memory.md R77). -/
def putBits (j : Nat) (p : BitString) (s : State) : State :=
  match p with
  | [] => s
  | b :: rest => putBits (j + 1) rest (s.putBit j b)

/-- One symbol, the one at position `i`, its code put from `bitpos` on (42_encoder.md R162): no entry raises
UnknownSymbolError (R164), a code that does not fit CapacityError, none of its bits written (R166). -/
def encodeSymbol (i bitpos : Nat) (s : State) : Run (Nat × State) :=
  let e := s.codeElem (s.symAt i)
  if lenOf e = 0 then .error (s.raise .unknownSymbol (BitVec.ofNat 32 i))
  else if 8 * Config.bsCap < bitpos + lenOf e then .error (s.raise .capacity (BitVec.ofNat 32 i))
  else .ok (bitpos + lenOf e, putBits bitpos (codeOf e) s)

/-- The loop from position `i` on, `left` symbols remaining (42_encoder.md R162). -/
def encodeLoop (left i bitpos : Nat) (s : State) : Run (Nat × State) :=
  match left with
  | 0 => .ok (bitpos, s)
  | left + 1 => (encodeSymbol i bitpos s).bind fun r => encodeLoop left (i + 1) r.1 r.2

/-- `BIT_LEN <- bitpos` (42_encoder.md R162). -/
def encodeStore (bitpos : Nat) (s : State) : State := s.setBitLen (BitVec.ofNat 32 bitpos)

/-- ENCODE's pseudocode (42_encoder.md R162). -/
def encodeRun (s : State) : Run State :=
  (encodeStart s).bind fun s => (encodeLoop s.symLen.toNat 0 0 s).map fun r => encodeStore r.1 r.2

/-- `ENCODE` (42_encoder.md R162): issued, and if accepted, run to completion. -/
def execEncode (s : State) : Host.Outcome State Fault Refusal := .next (s.issue (encode .encode) encodeRun)

end Sys2Proof.Machine
end

