-- ==== Sys2Proof/Machine/System.lean ====
section
/-!
DEFINITION. The system commands NOP and CLRERR (44_system_commands.md R200, R201).
-/

namespace Sys2Proof.Machine

/-- NOP's pseudocode: "empty; the command completes at once" (44_system_commands.md R200). -/
def nopRun (s : State) : Run State := .ok s

/-- CLRERR's pseudocode: `STATUS.ERR <- 0 ; ERRCODE <- 0 ; ERRINFO <- 0` (44_system_commands.md R201). -/
def clrerrRun (s : State) : Run State := .ok s.clearErr

/-- `NOP` (44_system_commands.md R200): issued, and if accepted, run to completion. -/
def execNop (s : State) : Host.Outcome State Fault Refusal := .next (s.issue (encode .nop) nopRun)

/-- `CLRERR` (44_system_commands.md R201): "the only word accepted while `ERR = 1`". -/
def execClrerr (s : State) : Host.Outcome State Fault Refusal := .next (s.issue (encode .clrerr) clrerrRun)

end Sys2Proof.Machine
end

