-- ==== Sys2Proof/Machine/TreeBuilder.lean ====
section
/-!
DEFINITION. The huffman_tree_builder: BUILD (40_tree_builder.md R121 to R132). The phases are those of R121's pseudocode; the
loop bodies `buildLeaf` and `buildMerge` are also the iterations of the one-iteration-at-a-time machine (`Tick.lean`).
-/

namespace Sys2Proof.Machine

/-- What BUILD's loops carry: `PQ` (10_state.md R37), as the ascending list of its indices (log 11), `n` (R38), and the machine. -/
structure Forest where
  pq : List Nat
  n : Nat
  st : State
deriving DecidableEq, Repr

/-- Phase 0: `ROOT <- 0 ; NODE_COUNT <- 0`, every element of NA `<- FREENODE` (40_tree_builder.md R121). -/
def buildClear (s : State) : State :=
  { (s.setRoot 0).setNodeCount 0 with na := Memory.fill Config.nodeCap freeNode }

/-- One iteration of phase 1: a leaf for symbol `v` if it is present, at index `n` (40_tree_builder.md R121, R124). -/
def buildLeaf (v : Nat) (f : Forest) : Forest :=
  if f.st.ftAt v = 0 then f
  else
    { pq := f.pq ++ [f.n], n := f.n + 1,
      st := f.st.setNa f.n (leafNode (BitVec.ofNat 8 v) (f.st.ftAt v)) }

/-- Phase 1 from symbol `v` on, `left` symbols remaining, in ascending symbol value (40_tree_builder.md R121). -/
def buildScan (left v : Nat) (f : Forest) : Forest :=
  match left with
  | 0 => f
  | left + 1 => buildScan left (v + 1) (buildLeaf v f)

/-- Phase 2: no symbol raises EmptyInputError (40_tree_builder.md R127); exactly one gives the degenerate tree and the command
ends (R125); with more the builder goes on. -/
def buildEdges (f : Forest) : Run Forest :=
  if f.n = 0 then .error (f.st.raise .emptyInput 0)
  else if f.n = 1 then
    .error (((f.st.setNa 1 (wrapperNode (weightOf (f.st.naAt 0)))).setRoot 1).setNodeCount 2).complete
  else .ok f

/-- Whether node `a` leaves PQ before node `b`: `(NA[k].weight, k)` least in lexicographic order (40_tree_builder.md R122). -/
def pqBefore (s : State) (a b : Nat) : Bool :=
  decide ((weightOf (s.naAt a)).toNat < (weightOf (s.naAt b)).toNat) ||
    (decide ((weightOf (s.naAt a)).toNat = (weightOf (s.naAt b)).toNat) && decide (a < b))

/-- The index that leaves first among `k` and `ks` (40_tree_builder.md R122). -/
def pqLeast (s : State) (k : Nat) (ks : List Nat) : Nat :=
  match ks with
  | [] => k
  | j :: js => pqLeast s (if pqBefore s j k then j else k) js

/-- `extract_min(PQ)`: the least index, and PQ without it (40_tree_builder.md R122). Used on a PQ of two or more; of an empty
one it would return 0. -/
def extractMin (s : State) (pq : List Nat) : Nat × List Nat :=
  match pq with
  | [] => (0, [])
  | k :: ks => (pqLeast s k ks, (k :: ks).erase (pqLeast s k ks))

/-- One iteration of phase 3 (40_tree_builder.md R121): the two least are extracted; left = second, right = first (R123); a sum
of `2^WEIGHT_W` or more raises WeightOverflowError with the index `n`, and stores nothing (R126). -/
def buildMerge (f : Forest) : Run Forest :=
  let first := extractMin f.st f.pq
  let second := extractMin f.st first.2
  let w := (weightOf (f.st.naAt first.1)).toNat + (weightOf (f.st.naAt second.1)).toNat
  if 2 ^ Config.weightW ≤ w then .error (f.st.raise .weightOverflow (BitVec.ofNat 32 f.n))
  else
    .ok { pq := second.2 ++ [f.n], n := f.n + 1,
          st := f.st.setNa f.n (intNode (BitVec.ofNat 9 second.1) (BitVec.ofNat 9 first.1) (BitVec.ofNat 32 w)) }

/-- Phase 3, `while |PQ| > 1`, for at most `room` merges; each takes one index out of PQ, so `|PQ|` is room enough
(40_tree_builder.md R121, R132). -/
def buildMerges (room : Nat) (f : Forest) : Run Forest :=
  match room with
  | 0 => .ok f
  | room + 1 => if 1 < f.pq.length then (buildMerge f).bind (buildMerges room) else .ok f

/-- `ROOT <- n - 1 ; NODE_COUNT <- n` (40_tree_builder.md R121, R128). -/
def buildStore (f : Forest) : State :=
  (f.st.setRoot (BitVec.ofNat 9 (f.n - 1))).setNodeCount (BitVec.ofNat 10 f.n)

/-- The forest with which phase 1 begins, NA cleared (40_tree_builder.md R121 phase 0). -/
def buildBegin (s : State) : Forest := { pq := [], n := 0, st := buildClear s }

/-- BUILD's pseudocode (40_tree_builder.md R121). -/
def buildRun (s : State) : Run State :=
  (buildEdges (buildScan Config.nsym 0 (buildBegin s))).bind fun f =>
    (buildMerges f.pq.length f).map buildStore

/-- `BUILD` (40_tree_builder.md R121): issued, and if accepted, run to completion. -/
def execBuild (s : State) : Host.Outcome State Fault Refusal := .next (s.issue (encode .build) buildRun)

end Sys2Proof.Machine
end

