-- ==== Sys2Proof/Machine/Tick.lean ====
section
/-!
DEFINITION. The running command one loop iteration at a time (00_scope.md R17), its hidden state in `State.hidden`. The loop
bodies are those of the atomic meanings; "both give the same completed state".
-/

namespace Sys2Proof.Machine

/-- A piece of the running command that goes on in state `f a`, or has ended. -/
def Run.goOn {α : Type} (r : Run α) (f : α → State) : State :=
  match r with
  | .ok a => f a
  | .error t => t

/-- The first step of the command of an accepted word: what its pseudocode does before its loop. -/
def State.begin (s : State) (i : Instr) : State :=
  match i with
  | .nop => (nopRun s).finish
  | .build => (buildClear s).setHidden (.buildScan 0 [] 0)
  | .gen => (genStart s).goOn fun s => s.setHidden (.genWalk [(s.root, [])])
  | .encode => (encodeStart s).goOn fun s => s.setHidden (.encodeAt 0 0)
  | .decode => (decodeStart s).goOn fun c => c.st.setHidden (.decodeAt 0 c.cur c.m)
  | .clrerr => (clrerrRun s).finish

/-- The first step after acceptance of `w`: an illegal word raises IllegalCommandError (30_encoding.md R96). -/
def State.beginWord (s : State) (w : Word) : State :=
  match decode w with
  | .ok i => s.begin i
  | .error _ => (illegalRun w s).finish

/-- BUILD, phase 1: one symbol; after the last, the edge cases of phase 2 (40_tree_builder.md R121). -/
def tickScan (v : Nat) (f : Forest) : State :=
  if v < Config.nsym then
    let f := buildLeaf v f
    f.st.setHidden (.buildScan (v + 1) f.pq f.n)
  else (buildEdges f).goOn fun f => f.st.setHidden (.buildMerge f.pq f.n)

/-- BUILD, phase 3: one merge, or the end (40_tree_builder.md R121). -/
def tickMerge (f : Forest) : State :=
  if 1 < f.pq.length then (buildMerge f).goOn fun f => f.st.setHidden (.buildMerge f.pq f.n)
  else (buildStore f).complete

/-- GEN, phase 3: one node, or the end (41_code_table_generator.md R141, R144). -/
def tickWalk (stack : List (NodeIdx × BitString)) (s : State) : State :=
  match stack with
  | [] => s.complete
  | (k, path) :: rest =>
    (genVisit k path s).goOn fun r =>
      match r.1 with
      | none => r.2.setHidden (.genWalk rest)
      | some (l, rt) => r.2.setHidden (.genWalk ((l, path ++ [false]) :: (rt, path ++ [true]) :: rest))

/-- ENCODE: one symbol, or the end (42_encoder.md R162). -/
def tickEncode (i bitpos : Nat) (s : State) : State :=
  if i < s.symLen.toNat then
    (encodeSymbol i bitpos s).goOn fun r => r.2.setHidden (.encodeAt (i + 1) r.1)
  else (encodeStore bitpos s).complete

/-- DECODE: one bit, or the end (43_decoder.md R181). -/
def tickDecode (j : Nat) (c : Cursor) : State :=
  if j < c.st.bitLen.toNat then
    (decodeBit j c).goOn fun c => c.st.setHidden (.decodeAt (j + 1) c.cur c.m)
  else (decodeEnd c).finish

/-- One iteration of the running command; an idle block does nothing (70_reset_and_hazards.md R281). -/
def State.tick (s : State) : State :=
  match s.hidden with
  | .idle => s
  | .accepted w => s.beginWord w
  | .buildScan v pq n => tickScan v { pq := pq, n := n, st := s }
  | .buildMerge pq n => tickMerge { pq := pq, n := n, st := s }
  | .genWalk stack => tickWalk stack s
  | .encodeAt i bitpos => tickEncode i bitpos s
  | .decodeAt j cur m => tickDecode j { cur := cur, m := m, st := s }

/-- `k` iterations. -/
def State.ticks (k : Nat) (s : State) : State :=
  match k with
  | 0 => s
  | k + 1 => State.ticks k s.tick

end Sys2Proof.Machine
end

