-- ==== Sys2Proof/Machine/HostPort.lean ====
section
/-!
DEFINITION. The block's boundary: host transactions (20_memory.md R62, R63, R66), command issue (30_encoding.md R92), reset
(70_reset_and_hazards.md R280), and what one event of the boundary does.
-/

namespace Sys2Proof.Machine

/-- The element a host read of an idle block returns (20_memory.md R62). -/
def State.element (s : State) (sp : Space) (i : Nat) : BitVec sp.width :=
  match sp with
  | .csr => s.csrWord i
  | .ft => s.ftAt i
  | .na => s.naAt i
  | .ct => s.ctAt i
  | .sym => s.symAt i
  | .bs => s.bsAt i

/-- Whether a host read's value is specified: the index is in range (20_memory.md R66), and the block is idle or the read is of
STATUS (R62). -/
def State.readSpecified (s : State) (sp : Space) (i : Nat) : Bool :=
  decide (i < sp.size) && (!s.busy || (decide (sp = .csr) && decide (i = 1)))

/-- The value `HostRead(S:i)` returns (20_memory.md R62); a free value where it is unspecified (R66, R71; log 5). -/
def State.hostReadValue (s : State) (sp : Space) (i : Nat) : BitVec sp.width :=
  if s.readSpecified sp i then s.element sp i else Config.unspecifiedRead s.draws sp i

/-- `HostRead(S:i)`: "A read never changes any state" of the block (20_memory.md R62); the model records the reply. -/
def State.hostRead (s : State) (sp : Space) (i : Nat) : State :=
  { s with replies := { sp := sp, idx := i, val := s.hostReadValue sp i } :: s.replies, draws := s.draws + 1 }

/-- A host write to a CSR register other than CMD (20_memory.md R63): `SYM_LEN`, `BIT_LEN` and `ROOT` take the value; a
read-only register does not change (10_state.md R43). -/
def State.csrWrite (s : State) (i : Nat) (v : Word) : State :=
  match i with
  | 4 => s.setSymLen v
  | 5 => s.setBitLen v
  | 6 => s.setRoot (v.setWidth 9)
  | _ => s

/-- `HostWrite(S:i, v)` other than to CMD (20_memory.md R63): no effect while BUSY or out of range (R66). -/
def State.hostWrite (s : State) (sp : Space) (i : Nat) (v : BitVec sp.width) : State :=
  if s.busy || decide (sp.size ≤ i) then s
  else
    match sp, v with
    | .csr, v => s.csrWrite i v
    | .ft, v => s.setFt i v
    | .na, v => s.setNa i v
    | .ct, v => s.setCt i v
    | .sym, v => s.setSym i v
    | .bs, v => s.setBs i v

/-- The issue of a command word as one atomic step (30_encoding.md R92): a legal word is its command, any other an illegal
command (R96). -/
def issueWord (w : Word) (s : State) : Host.Outcome State Fault Refusal :=
  match decode w with
  | .ok i => exec i s
  | .error _ => .next (s.issueIllegal w)

/-- Whether the command of word `w` completes at once, with acceptance: NOP and CLRERR ("NOP and CLRERR at once",
70_reset_and_hazards.md R295; log 12). -/
def completesAtOnce (w : Word) : Bool := w == encode .nop || w == encode .clrerr

/-- The issue of a command word of which this step is the acceptance (30_encoding.md R93, R94); NOP and CLRERR complete with
it. -/
def State.issueOnly (s : State) (w : Word) : State :=
  if s.ignores w then s
  else if completesAtOnce w then (s.accept w).beginWord w
  else s.accept w

/-- Reset (70_reset_and_hazards.md R280): a running command is abandoned, every register takes its reset value, and every
memory is unspecified: each element holds a fresh free value (log 4). The host's own record goes on. -/
def State.applyReset (s : State) : State :=
  { State.reset with inputs := s.inputs, replies := s.replies, epoch := s.epoch + 1, draws := s.draws }

/-- One poll of `WAIT`, "repeat `RD STATUS` until the value has `BUSY = 0`" (30_encoding.md R100): while BUSY the host reads
STATUS, the block makes one iteration, and the host goes on waiting. -/
def State.poll (s : State) : State :=
  if s.busy then { (s.hostRead .csr 1).tick with inputs := .wait :: s.inputs } else s.hostRead .csr 1

/-- A host transaction. A write of CMD is a command issue (20_memory.md R63, R69). -/
def runHostTx (t : HostTx) (s : State) : Host.Outcome State Fault Refusal :=
  match t with
  | .read sp i => .next (s.hostRead sp i)
  | .write .csr 0 w => issueWord w s
  | .write sp i v => .next (s.hostWrite sp i v)

/-- What one event does. -/
def runEvent (e : Event) (s : State) : Host.Outcome State Fault Refusal :=
  match e with
  | .host t => runHostTx t s
  | .issue w => .next (s.issueOnly w)
  | .tick => .next s.tick
  | .wait => .next s.poll
  | .reset => .next s.applyReset

/-- The next event taken from the boundary; with none left, a running command goes on and an idle block stays as it is
(70_reset_and_hazards.md R281, R296; log 10). -/
def runNext (s : State) : Host.Outcome State Fault Refusal :=
  match s.inputs with
  | [] => .next s.tick
  | e :: rest => runEvent e { s with inputs := rest }

/-- The command word of `nbits` bits `w`, the bits above them 0. -/
def fetchWord (nbits w : Nat) : Word := BitVec.ofNat 32 (w % 2 ^ nbits)

/-- `s` with the host's next transaction a write of that word to CMD: the block fetches nothing (10_state.md R26), its next
command is the host's next write of CMD (log 3). -/
def State.hostIssues (s : State) (w : Word) : State :=
  { s with inputs := .host (.write .csr 0 w) :: s.inputs }

end Sys2Proof.Machine
end

