-- ==== Sys2Proof/Machine/Step.lean ====
section
/-!
DEFINITION. `step`: the next event of the boundary (log 2, log 3).
-/

namespace Sys2Proof.Machine

/-- One step of the machine: the next event of the boundary (00_scope.md R16, R17). -/
def step (s : State) : Host.Outcome State Fault Refusal := runNext s

/-- `s` with the instruction word `w` where `step` takes its next instruction from. -/
def State.withFetchWord (s : State) (nbits w : Nat) : State := s.hostIssues (fetchWord nbits w)

end Sys2Proof.Machine
end

