-- ==== Sys2Proof/Machine/Environment.lean ====
section
/-!
DEFINITION. The contracts of the environment (45_environment_contracts.md): host procedures over the block's own memories,
COUNT, REBUILD, the Archive tuple, and the pseudo-commands of 30_encoding.md R101 as lists of host transactions. They are no
commands of the block (00_scope.md R5): nothing in `step` uses them.
-/

namespace Sys2Proof.Machine

/-! ## Host script (30_encoding.md R100) -/

/-- `WR <reg>, <v>`. -/
def wr (reg : Nat) (v : Word) : Event := .host (.write .csr reg v)

/-- `RD <reg>`. -/
def rd (reg : Nat) : Event := .host (.read .csr reg)

/-- `WRM <S>[<i>], <v>`. -/
def wrm (sp : Space) (i : Nat) (v : BitVec sp.width) : Event := .host (.write sp i v)

/-- `RDM <S>[<i>]`. -/
def rdm (sp : Space) (i : Nat) : Event := .host (.read sp i)

/-- `<MNEMONIC>`: `WR CMD, <its word>`. -/
def cmd (i : Instr) : Event := wr 0 (encode i)

/-! ## COUNT (45_environment_contracts.md R210) -/

/-- `COUNT`: the number of times symbol value `v` stands in the sequence. -/
def countOf (seq : List Sym) (v : Nat) : Nat := (seq.filter fun c => c.toNat == v).length

/-- `LOADSYM <sequence>` (30_encoding.md R101). -/
def loadSym (seq : List Sym) : List Event :=
  (seq.zipIdx.map fun c => wrm .sym c.2 c.1) ++ [wr 4 (BitVec.ofNat 32 seq.length)]

/-- `LOADFT <sequence>`: every element of FT, zeros included (30_encoding.md R101, R210). -/
def loadFt (seq : List Sym) : List Event :=
  (List.range Config.nsym).map fun v => wrm .ft v (BitVec.ofNat 32 (countOf seq v))

/-- `COMPRESS <sequence>` (30_encoding.md R101), with the short-circuit for the empty one: no BUILD, no GEN, and nothing of CT is
read for its Archive, which is `emptyArchive` (45_environment_contracts.md R213). -/
def compress (seq : List Sym) : List Event :=
  loadSym seq ++
    if seq.isEmpty then [wr 4 0, cmd .encode, .wait]
    else loadFt seq ++ [cmd .build, .wait, rd 1, cmd .gen, .wait, rd 1, cmd .encode, .wait, rd 1, rd 5]

/-! ## The Archive (45_environment_contracts.md R216) -/

/-- The Archive at the block's boundary: the tuple of 45_environment_contracts.md R216. -/
structure Archive where
  bytes : List Byte
  bitLength : Nat
  table : List (BitString × Sym)
  originalLength : Nat
deriving DecidableEq, Repr

/-- The table in the decode direction: each code with its symbol (45_environment_contracts.md R216, R222). -/
def decodeTable (s : State) : List (BitString × Sym) :=
  ((List.range Config.nsym).filter fun v => lenOf (s.ctAt v) != 0).map fun v => (codeOf (s.ctAt v), BitVec.ofNat 8 v)

/-- The Archive a host reads out after a successful COMPRESS of a sequence that is not empty (45_environment_contracts.md R216). -/
def archiveOf (s : State) : Archive where
  bytes := (List.range ((s.bitLen.toNat + 7) / 8)).map s.bsAt
  bitLength := s.bitLen.toNat
  table := decodeTable s
  originalLength := s.symLen.toNat

/-- The Archive of the empty sequence: `originalLength = 0`, an empty EncodedStream and an empty table, whatever CT holds
(45_environment_contracts.md R213). -/
def emptyArchive : Archive where
  bytes := []
  bitLength := 0
  table := []
  originalLength := 0

/-- The Archive a COMPRESS of `seq` that ended in `s` yields: formed by the host for the empty sequence, read out for every other
(45_environment_contracts.md R213, R216). -/
def archiveOfCompress (seq : List Sym) (s : State) : Archive := if seq.isEmpty then emptyArchive else archiveOf s

/-- The host reads that hand the Archive of a sequence that is not empty over, for a stream of `bitLen` bits
(30_encoding.md R101). -/
def readArchive (bitLen : Nat) : List Event :=
  ((List.range ((bitLen + 7) / 8)).map (rdm .bs)) ++ ((List.range Config.nsym).map (rdm .ct)) ++ [rd 4]

/-- Validation by `originalLength` after a DECODE without error (45_environment_contracts.md R219). -/
def acceptsLength (a : Archive) (s : State) : Bool := s.symLen.toNat == a.originalLength

/-! ## REBUILD (45_environment_contracts.md R218) -/

/-- How REBUILD fails: with AmbiguousCodeError or, the arena full, CapacityError; with the symbol (R218). -/
inductive RebuildError
  | ambiguousCode (v : Nat)
  | capacity (v : Nat)
deriving DecidableEq, Repr

/-- A REBUILD that failed: how, and what the host had written by then (45_environment_contracts.md R218: the writes of the
pseudocode before the `fail` have been made). -/
structure RebuildFailure (α : Type) where
  err : RebuildError
  written : α
deriving DecidableEq, Repr

/-- The arena under construction: NA, and the next free index `n`. -/
structure Arena where
  na : Memory 62
  n : Nat
deriving DecidableEq, Repr

/-- `EMPTYINT` (45_environment_contracts.md R218). -/
def emptyInt : NodeElem := nodeElem 2 0 0 0 0 0 0

/-- `NA[k]` of the arena, every element of which has been written. -/
def Arena.at (a : Arena) (k : Nat) : NodeElem := (Memory.get a.na k).getD freeNode

/-- `NA[cur].lv <- 1 ; NA[cur].left <- n`, or the right side for bit 1. -/
def linkChild (e : NodeElem) (b : Bool) (n : Nat) : NodeElem :=
  if b then nodeElem 2 (bit (lvOf e)) 1 (symOf e) (leftOf e) (BitVec.ofNat 9 n) (weightOf e)
  else nodeElem 2 1 (bit (rvOf e)) (symOf e) (BitVec.ofNat 9 n) (rightOf e) (weightOf e)

/-- Whether the child on the bit's side is there. -/
def hasChild (e : NodeElem) (b : Bool) : Bool := if b then rvOf e else lvOf e

/-- The child index on the bit's side. -/
def childIdx (e : NodeElem) (b : Bool) : Nat := if b then (rightOf e).toNat else (leftOf e).toNat

/-- The path of symbol `v` from node `cur` on, creating internal nodes as needed; its last node gets the symbol;
a failure leaves NA as it is then (45_environment_contracts.md R218, failures (x), (y), (z)). -/
def insertPath (v : Nat) (p : BitString) (cur : Nat) (a : Arena) : Except (RebuildFailure (Memory 62)) Arena :=
  match p with
  | [] =>
    if kindOf (a.at cur) = .leaf then .error ⟨.ambiguousCode v, a.na⟩
    else if lvOf (a.at cur) || rvOf (a.at cur) then .error ⟨.ambiguousCode v, a.na⟩
    else .ok { a with na := Memory.set a.na cur (leafNode (BitVec.ofNat 8 v) 0) }
  | b :: rest =>
    if kindOf (a.at cur) = .leaf then .error ⟨.ambiguousCode v, a.na⟩
    else if hasChild (a.at cur) b then insertPath v rest (childIdx (a.at cur) b) a
    else if a.n = Config.nodeCap then .error ⟨.capacity v, a.na⟩
    else
      insertPath v rest a.n
        { na := Memory.set (Memory.set a.na a.n emptyInt) cur (linkChild (a.at cur) b a.n), n := a.n + 1 }

/-- The symbols from `v` on, `left` of them remaining, in ascending value (45_environment_contracts.md R218). -/
def rebuildFrom (table : Nat → CodeElem) (left v : Nat) (a : Arena) : Except (RebuildFailure (Memory 62)) Arena :=
  match left with
  | 0 => .ok a
  | left + 1 =>
    if lenOf (table v) = 0 then rebuildFrom table left (v + 1) a
    else (insertPath v (codeOf (table v)) 0 a).bind (rebuildFrom table left (v + 1))

/-- "An empty root node": NA all FREE but `NA[0] = EMPTYINT`, `n = 1` (45_environment_contracts.md R218). -/
def emptyArena : Arena where
  na := Memory.set (Memory.fill Config.nodeCap freeNode) 0 emptyInt
  n := 1

/-- `REBUILD` of a table given as CT elements (45_environment_contracts.md R218): the contents of NA, `ROOT` being 0; or, where it
fails, NA all FREE but for the tree made so far. -/
def rebuild (table : Nat → CodeElem) : Except (RebuildFailure (Memory 62)) (Memory 62) :=
  (rebuildFrom table Config.nsym 0 emptyArena).map (·.na)

/-- The block after the host has written a rebuilt arena into NA and `ROOT <- 0` (45_environment_contracts.md R218). -/
def State.loadTree (s : State) (na : Memory 62) : State := { s with na := na, root := 0 }

/-- The block after the host's REBUILD of a table: loaded with the tree, or, REBUILD having failed, with NA as written by then
and ROOT as it was; the block latches nothing (45_environment_contracts.md R218). -/
def State.afterRebuild (s : State) (table : Nat → CodeElem) : State :=
  match rebuild table with
  | .ok na => s.loadTree na
  | .error f => { s with na := f.written }

/-- The host writes that bring NA to the contents `na`, one per element. -/
def naEvents (na : Memory 62) : List Event :=
  (List.range Config.nodeCap).map fun k => wrm .na k ((Memory.get na k).getD freeNode)

/-- The host writes that load a rebuilt arena: NA, then `ROOT <- 0` (45_environment_contracts.md R218). -/
def loadTreeEvents (na : Memory 62) : List Event := naEvents na ++ [wr 6 0]

/-- The CT element of symbol value `v` in an Archive's table: its first code listed, or no entry. -/
def tableElem (table : List (BitString × Sym)) (v : Nat) : CodeElem :=
  match table.find? fun c => c.2.toNat == v with
  | some c => entry c.1
  | none => noEntry

/-- `DECOMPRESS <archive>` (30_encoding.md R101), the Archive given as its tuple; with the short-circuit for the empty one
(45_environment_contracts.md R213). Where REBUILD fails, the host has written NA as far as that, and neither `ROOT` nor BS, and
issues no DECODE (R218). -/
def decompress (a : Archive) : Except (RebuildFailure (List Event)) (List Event) :=
  if a.bitLength = 0 then .ok [wr 5 0, cmd .decode, .wait]
  else
    match rebuild (tableElem a.table) with
    | .error f => .error ⟨f.err, naEvents f.written⟩
    | .ok na =>
      .ok (loadTreeEvents na ++ (a.bytes.zipIdx.map fun c => wrm .bs c.2 c.1) ++
        [wr 5 (BitVec.ofNat 32 a.bitLength), cmd .decode, .wait, rd 1, rd 4])

end Sys2Proof.Machine
end

