-- ==== Sys2Proof/Safety.lean ====
section
/-!
DEFINITION. What claims about the machine are stated in: the tree that NA and ROOT hold (10_state.md R33), the codes, the
sequence and the stream; when a command is executed; and the invariant of the machine.
-/

namespace Sys2Proof.Machine

/-! ## When a command is executed -/

/-- The block is idle with no error latched: it accepts every command word (30_encoding.md R93). -/
abbrev State.ready (s : State) : Prop := s.busy = false ∧ s.err = false

/-- `s` after the command of word `w` has completed without error and written no result: `BUSY = 0`, `DONE = 1`, `LAST_OP`
(30_encoding.md R94, R95). -/
def State.completed (s : State) (w : Word) : State := (s.accept w).complete

/-- `s` after the command of word `w` has raised `e` and written no result (30_encoding.md R94, 60_exceptions.md R262). -/
def State.raised (s : State) (w : Word) (e : Err) (info : Word) : State := (s.accept w).raise e info

/-! ## The tree under ROOT (10_state.md R33) -/

/-- The node reached from node `k` along the path `p`, each edge from an INTERNAL node to a child whose valid bit is set. -/
def descend (s : State) (k : NodeIdx) (p : BitString) : Option NodeIdx :=
  match p with
  | [] => some k
  | b :: rest =>
    if kindOf (s.node k) = .internal ∧ childValid (s.node k) b = true then
      descend s (childOf (s.node k) b) rest
    else none

/-- The symbol of the leaf at the end of the root-to-leaf path `p`, if there is one. -/
def leafSym (s : State) (p : BitString) : Option Sym :=
  match descend s s.root p with
  | some k => if kindOf (s.node k) = .leaf then some (symOf (s.node k)) else none
  | none => none

/-- 41_code_table_generator.md R141, R145: the tree GEN accepts: the root INTERNAL; every node reached a LEAF, or INTERNAL with
both children and fewer than `CODE_LEN_MAX` edges below the root; no symbol on two leaves. -/
def properTree (s : State) : Prop :=
  kindOf (s.node s.root) = .internal ∧
  (∀ p k, descend s s.root p = some k →
    kindOf (s.node k) = .leaf ∨
    (kindOf (s.node k) = .internal ∧ lvOf (s.node k) = true ∧ rvOf (s.node k) = true ∧ p.length < Config.codeLenMax)) ∧
  ∀ p q v, leafSym s p = some v → leafSym s q = some v → p = q

/-- Whether the node at path `q` is met before the node at path `p`: depth-first, a node before the nodes below it, left subtree
wholly before right (41_code_table_generator.md R144). -/
def before (q p : BitString) : Bool :=
  match q, p with
  | _, [] => false
  | [], _ :: _ => true
  | a :: q, b :: p => if a = b then before q p else b

/-- 41_code_table_generator.md R145: the node `k` at path `p` makes GEN raise MalformedTreeError: (a) INTERNAL without both
children, (b) no node, (c) INTERNAL at depth `CODE_LEN_MAX`, (d) a LEAF whose symbol is on a leaf met before, (e) the root, a
LEAF. -/
def malformedNode (s : State) (p : BitString) (k : NodeIdx) : Prop :=
  match kindOf (s.node k) with
  | .free => True
  | .internal => lvOf (s.node k) = false ∨ rvOf (s.node k) = false ∨ p.length = Config.codeLenMax
  | .leaf => p = [] ∨ ∃ q, before q p = true ∧ leafSym s q = some (symOf (s.node k))

/-- Two machines hold the same tree: the same ROOT, and for every entry the same kind and the same fields meaningful for it
(10_state.md R32). -/
def sameTree (s t : State) : Prop :=
  s.root = t.root ∧
  ∀ k : NodeIdx,
    kindOf (s.node k) = kindOf (t.node k) ∧
    (kindOf (s.node k) = .leaf → symOf (s.node k) = symOf (t.node k)) ∧
    (kindOf (s.node k) = .internal → ∀ b : Bool,
      childValid (s.node k) b = childValid (t.node k) b ∧
      (childValid (s.node k) b = true → childOf (s.node k) b = childOf (t.node k) b))

/-! ## Frequencies, codes, sequence, stream -/

/-- The present symbols, ascending: those with `FT[v] != 0` (10_state.md R31). -/
def present (s : State) : List Nat := (List.range Config.nsym).filter fun v => decide (s.ftAt v ≠ 0)

/-- The sum of all `FT[v]`. -/
def ftTotal (s : State) : Nat := ((List.range Config.nsym).map fun v => (s.ftAt v).toNat).sum

/-- The code of symbol `v` in CT; empty if it has no entry. -/
def codeAt (s : State) (v : Sym) : BitString := codeOf (s.codeElem v)

/-- `SYM[0 .. SYM_LEN-1]`. -/
def sequence (s : State) : List Sym := (List.range s.symLen.toNat).map s.symAt

/-- The first `BIT_LEN` bits of BS, in stream order (20_memory.md R68). -/
def stream (s : State) : BitString := (List.range s.bitLen.toNat).map s.getBit

/-- The concatenation of the codes of a sequence, in order (42_encoder.md R169). -/
def codesOf (s : State) (seq : List Sym) : BitString := seq.flatMap (codeAt s)

/-! ## The invariant -/

/-- What the hidden state of a running command satisfies (10_state.md R37 to R41). -/
def hiddenOk (s : State) : Prop :=
  match s.hidden with
  | .idle => True
  | .accepted w => s.lastOp = opField w
  | .buildScan v pq n =>
    v ≤ Config.nsym ∧ n ≤ v ∧ pq.length = n ∧ pq.Pairwise (· < ·) ∧ ∀ k ∈ pq, k < n
  | .buildMerge pq n =>
    1 ≤ pq.length ∧ n + pq.length ≤ Config.nodeCap ∧ pq.Pairwise (· < ·) ∧ ∀ k ∈ pq, k < n
  | .genWalk stack =>
    stack.length ≤ Config.codeLenMax + 1 ∧
    match stack with
    | [] => True
    | (_, path) :: rest =>
      path.length ≤ Config.codeLenMax ∧
      (∀ e ∈ rest, 1 ≤ e.2.length ∧ e.2.length ≤ path.length) ∧
      rest.Pairwise (fun a b => b.2.length < a.2.length)
  | .encodeAt i bitpos =>
    s.symLen.toNat ≤ Config.symCap ∧ i ≤ s.symLen.toNat ∧ bitpos ≤ 8 * Config.bsCap
  | .decodeAt j cur m =>
    s.bitLen.toNat ≤ 8 * Config.bsCap ∧ j ≤ s.bitLen.toNat ∧ m ≤ Config.symCap ∧ m ≤ j ∧
    (s.decState = .atRoot → cur = s.root) ∧
    (s.decState = .inPath → kindOf (s.node cur) = .internal)

/-- The invariant of the machine: what every step keeps. -/
structure State.Inv (s : State) : Prop where
  /-- The memories keep their canonical form, every index in its space (20_memory.md R60, R66). -/
  ftWf : Memory.wf Config.nsym s.ft
  naWf : Memory.wf Config.nodeCap s.na
  ctWf : Memory.wf Config.nsym s.ct
  symWf : Memory.wf Config.symCap s.sym
  bsWf : Memory.wf Config.bsCap s.bs
  /-- "`BUSY` and `DONE` are never both 1" (10_state.md R23). -/
  busyDone : s.busy = true → s.done = false
  /-- "`ERR = 1` implies `BUSY = 0` and `DONE = 1`" (10_state.md R23). -/
  errIdle : s.err = true → s.busy = false ∧ s.done = true
  /-- "`ERRCODE != 0` exactly when `STATUS.ERR = 1`" (10_state.md R24). -/
  errCode : s.errCode ≠ 0 ↔ s.err = true
  /-- "0 when none" (10_state.md R25). -/
  errInfo : s.err = false → s.errInfo = 0
  /-- "The block never writes code 6 or codes 10 to 15 to `ERRCODE`" (60_exceptions.md R251). -/
  errRange : s.errCode.toNat ≤ 9 ∧ s.errCode ≠ 6
  /-- Hidden state is held exactly while a command runs (10_state.md R20 (c)). -/
  busyHidden : s.busy = true ↔ s.hidden ≠ .idle
  /-- The hidden state is in its ranges. -/
  hidden : hiddenOk s

end Sys2Proof.Machine
end

