-- ==== Sys2Proof/Certificates/Slice0/Obligations.lean ====
section
/-!
DEFINITION. The statements about the model, from the spec's numbered rules. Each docstring names the rule it formalises.
-/

open Sys2Proof Sys2Proof.Machine

/-! ## Encoding and fetching -/

/-- 30_encoding.md R91: the words of the opcode map, written out, decode to their commands; every reserved opcode `0x6` to `0xF`
and a word with a bit of `RSVZ` set do not. -/
def Obligations.OpcodeMapWordsDecode : Prop :=
  decode 0x00000000#32 = .ok .nop ∧ decode 0x00000001#32 = .ok .build ∧ decode 0x00000002#32 = .ok .gen ∧
  decode 0x00000003#32 = .ok .encode ∧ decode 0x00000004#32 = .ok .decode ∧ decode 0x00000005#32 = .ok .clrerr ∧
  (∀ op < 16, 6 ≤ op → decode (BitVec.ofNat 32 op) = .error .reservedOpcode) ∧
  decode 0x00000010#32 = .error .reservedBitSet ∧ decode 0x80000001#32 = .error .reservedBitSet

/-- 30_encoding.md R90, R91, R96: exactly the words with `w[31:4] = 0` and `w[3:0] <= 5` decode, each to the one command whose
word it is, and every command's word decodes to it. -/
def Obligations.DecodeAndEncodeAgree : Prop :=
  (∀ i : Instr, decode (encode i) = .ok i) ∧
  ∀ w : Word,
    ((w.extractLsb' 4 28 = 0 ∧ (w.extractLsb' 0 4).toNat ≤ 5) ↔ ∃ i, decode w = .ok i) ∧
    ∀ i, decode w = .ok i → encode i = w

/-- 30_encoding.md R92, 20_memory.md R63: when the host's next transaction writes a word to CMD that decodes to `i`, the step is
`exec i` of the machine with that transaction taken; and `withFetchWord` places such a transaction. (That a CMD write runs its
command as one step is the model's choice, logs 2 and 3.) -/
def Obligations.StepRunsDecodedCommand : Prop :=
  ∀ (s : State) (w : Word) (i : Instr), decode w = .ok i →
    (∀ rest, s.inputs = .host (.write .csr 0 w) :: rest → step s = exec i { s with inputs := rest }) ∧
    step (s.withFetchWord 32 w.toNat) = exec i s

/-! ## Reset -/

/-- 70_reset_and_hazards.md R281: after reset the block is idle, has no error latched, accepts every command word, runs nothing
until the host issues a command, and `DONE = 0`. That `State.reset` lists no host transaction (log 3, a DESIGN CHOICE) and that a
step with none listed leaves an idle block as it is (log 10, a DESIGN CHOICE) are the model's rendering of "runs nothing"; the
last clause says it of every idle block. -/
def Obligations.ResetIdleAndAccepting : Prop :=
  State.reset.busy = false ∧ State.reset.err = false ∧ State.reset.done = false ∧
  (∀ w : Word, State.reset.ignores w = false) ∧
  step State.reset = .next State.reset ∧
  ∀ s : State, s.inputs = [] → s.hidden = .idle → step s = .next s

/-- 10_state.md R44, 70_reset_and_hazards.md R280: reset, applied in any state, a command running or not, puts every register to
0 and holds no hidden state; every memory element is then its free value, a fresh one per reset (log 4). -/
def Obligations.ResetRegistersZeroMemoriesFree : Prop :=
  ∀ (s : State) (rest : List Event), s.inputs = .reset :: rest →
    ∃ t, step s = .next t ∧ t.hidden = .idle ∧ t.inputs = rest ∧
      (∀ i < 8, t.hostReadValue .csr i = 0) ∧
      (∀ v < Config.nsym, t.ftAt v = Config.unwritten (s.epoch + 1) .ft v ∧ t.ctAt v = Config.unwritten (s.epoch + 1) .ct v) ∧
      (∀ k < Config.nodeCap, t.naAt k = Config.unwritten (s.epoch + 1) .na k) ∧
      (∀ i < Config.symCap, t.symAt i = Config.unwritten (s.epoch + 1) .sym i) ∧
      (∀ q < Config.bsCap, t.bsAt q = Config.unwritten (s.epoch + 1) .bs q)

/-! ## Issue, acceptance, completion -/

/-- 30_encoding.md R93: an issue is ignored, and no state at all changes, when the block is busy, or an error is latched and the
word is not CLRERR. (As an atomic step, and as an acceptance.) -/
def Obligations.IgnoredIssueChangesNothing : Prop :=
  ∀ (s : State) (w : Word), (s.busy = true ∨ (s.err = true ∧ w ≠ 0x00000005#32)) →
    runHostTx (.write .csr 0 w) s = .next s ∧ s.issueOnly w = s

/-- 30_encoding.md R94: in every other case the issue is accepted: `BUSY <- 1; DONE <- 0; LAST_OP <- w[3:0]`, nothing else of the
architecture changed, and the command selected by `w` is what runs next. NOP and CLRERR, which complete at once (log 12), are
the exceptions and have statements of their own. -/
def Obligations.AcceptanceSetsBusy : Prop :=
  ∀ (s : State) (w : Word), s.busy = false → s.err = false → w ≠ 0x00000000#32 → w ≠ 0x00000005#32 →
    s.issueOnly w = { s with busy := true, done := false, lastOp := w.extractLsb' 0 4, hidden := .accepted w } ∧
    ∀ i, decode w = .ok i → (s.issueOnly w).tick = (s.issueOnly w).begin i

/-- 70_reset_and_hazards.md R295, 30_encoding.md R94, R95: every command that is accepted completes: `BUSY = 0`, `DONE = 1`,
`LAST_OP` its opcode, no hidden state left, whatever the registers and memories hold; NOP and CLRERR do so at once, even where
the step is the acceptance alone (the second clause: the model's reading of R295's "at once", log 12, DEDUCED). -/
def Obligations.EveryAcceptedCommandCompletes : Prop :=
  (∀ (i : Instr) (s : State), s.busy = false → (s.err = false ∨ i = .clrerr) →
    ∃ t, exec i s = .next t ∧ t.busy = false ∧ t.done = true ∧ t.lastOp = opcodeOf i ∧ t.hidden = .idle) ∧
  ∀ (i : Instr) (s : State), s.busy = false → (s.err = false ∧ i = .nop ∨ i = .clrerr) →
    exec i s = .next (s.issueOnly (encode i))

/-- 30_encoding.md R96: an accepted word that is not legal raises IllegalCommandError with the word as detail and changes nothing
else (`LAST_OP` was written at acceptance); it never acts as a no-op. -/
def Obligations.IllegalWordRaises : Prop :=
  ∀ (s : State) (w : Word), s.busy = false → s.err = false →
    ¬(w.extractLsb' 4 28 = 0 ∧ (w.extractLsb' 0 4).toNat ≤ 5) →
    runHostTx (.write .csr 0 w) s =
      .next { s with err := true, errCode := 7, errInfo := w, busy := false, done := true, lastOp := w.extractLsb' 0 4,
                     hidden := .idle }

/-- 60_exceptions.md R262, R251: `raise E(info)` is one step: ERRCODE, ERRINFO, ERR, BUSY, DONE as the rule writes them, nothing
else changed; the eight errors the block raises have the codes of R251's table; here the errors raised by a running command's
iteration. -/
def Obligations.RaiseLatchesAndEnds : Prop :=
  ∀ (s : State) (e : Err) (info : Word),
    s.raise e info =
      { s with errCode := e.code, errInfo := info, err := true, busy := false, done := true, hidden := .idle } ∧
    (s.raise e info).csrWord 2 = e.code.setWidth 32 ∧ (s.raise e info).csrWord 3 = info ∧
    Err.code .emptyInput = 1 ∧ Err.code .malformedTree = 2 ∧ Err.code .unknownSymbol = 3 ∧ Err.code .truncatedStream = 4 ∧
    Err.code .corruptTree = 5 ∧ Err.code .illegalCommand = 7 ∧ Err.code .weightOverflow = 8 ∧ Err.code .capacity = 9

/-- 60_exceptions.md R264: while an error is latched, whatever the host does short of CLRERR or reset, the error, its code and
its detail stay as they are. -/
def Obligations.LatchedErrorStays : Prop :=
  ∀ (s : State) (e : Event) (rest : List Event), s.Inv → s.err = true → s.inputs = e :: rest →
    e ≠ .reset → e ≠ .issue 0x00000005#32 → e ≠ .host (.write .csr 0 0x00000005#32) →
    ∃ t, step s = .next t ∧ t.err = true ∧ t.errCode = s.errCode ∧ t.errInfo = s.errInfo

/-! ## System commands -/

/-- 44_system_commands.md R200: NOP writes BUSY, DONE and LAST_OP as every command does, and nothing else; it is ignored while an
error is latched or the block is busy; from reset, STATUS then reads 2. -/
def Obligations.NopOnlyCompletes : Prop :=
  encode .nop = 0x00000000#32 ∧
  (∀ s : State, s.busy = false → s.err = false →
    exec .nop s = .next { s with busy := false, done := true, lastOp := 0, hidden := .idle }) ∧
  (∀ s : State, (s.busy = true ∨ s.err = true) → exec .nop s = .next s) ∧
  (∃ t, exec .nop State.reset = .next t ∧ t.statusWord = 0x00000002#32)

/-- 44_system_commands.md R201: CLRERR clears ERR, ERRCODE and ERRINFO, is accepted with or without a latched error, and writes
nothing else but what every command does; it is the only word accepted while an error is latched; while BUSY it is ignored;
STATUS and ERRCODE then read as in the rule's example. -/
def Obligations.ClrerrReleasesTheLatch : Prop :=
  encode .clrerr = 0x00000005#32 ∧
  (∀ s : State, s.busy = false →
    exec .clrerr s =
      .next { s with err := false, errCode := 0, errInfo := 0, busy := false, done := true, lastOp := 5, hidden := .idle }) ∧
  (∀ s : State, s.busy = true → exec .clrerr s = .next s) ∧
  (∀ (s : State) (w : Word), s.err = true → w ≠ 0x00000005#32 → runHostTx (.write .csr 0 w) s = .next s) ∧
  ∀ s t : State, s.busy = false → s.decState = .atRoot → exec .clrerr s = .next t →
    t.statusWord = 0x00000052#32 ∧ t.csrWord 2 = 0

/-! ## The host's port -/

/-- 20_memory.md R62, R69: a host read changes nothing of the block (only the model's record of replies); of an idle block, in
range, it returns the element, and of a busy one STATUS. -/
def Obligations.HostReadOnlyRecords : Prop :=
  ∀ (s : State) (sp : Space) (i : Nat) (rest : List Event), s.inputs = .host (.read sp i) :: rest →
    ∃ t v, step s = .next t ∧
      t = { s with inputs := rest, replies := { sp := sp, idx := i, val := v } :: s.replies, draws := s.draws + 1 } ∧
      (i < sp.size → (s.busy = false ∨ (sp = .csr ∧ i = 1)) → v = s.element sp i)

/-- 20_memory.md R63, R64, R69: in an idle block a host write to a memory element is what a host read of it then returns, and
every other element of every space reads as before. -/
def Obligations.HostWriteThenReadGivesIt : Prop :=
  ∀ (s : State) (sp : Space) (i : Nat) (v : BitVec sp.width), s.busy = false → sp ≠ .csr → i < sp.size →
    (s.hostWrite sp i v).hostReadValue sp i = v ∧
    ∀ (sp' : Space) (j : Nat), j < sp'.size → (sp' ≠ sp ∨ j ≠ i) →
      (s.hostWrite sp i v).hostReadValue sp' j = s.hostReadValue sp' j

/-- 10_state.md R43, R29, 20_memory.md R63, R66: a host write to STATUS, ERRCODE, ERRINFO or NODE_COUNT, of an index out of range,
or of a busy block (CMD included) has no effect; SYM_LEN and BIT_LEN take the value and ROOT its low nine bits; no host read, and
no host write but a command issue, touches the error latch. -/
def Obligations.HostWriteAccessRights : Prop :=
  (∀ (s : State) (i : Nat) (v : Word), (i = 1 ∨ i = 2 ∨ i = 3 ∨ 7 ≤ i) → s.hostWrite .csr i v = s) ∧
  (∀ (s : State) (sp : Space) (i : Nat) (v : BitVec sp.width), (s.busy = true ∨ sp.size ≤ i) →
    s.hostWrite sp i v = s ∧ runHostTx (.write sp i v) s = .next s) ∧
  (∀ (s : State) (v : Word), s.busy = false →
    s.hostWrite .csr 4 v = { s with symLen := v } ∧ s.hostWrite .csr 5 v = { s with bitLen := v } ∧
    s.hostWrite .csr 6 v = { s with root := v.extractLsb' 0 9 } ∧
    (s.hostWrite .csr 6 v).csrWord 6 = v &&& 0x1FF#32) ∧
  (∀ (s : State) (sp : Space) (i : Nat) (v : BitVec sp.width), ¬(sp = .csr ∧ i = 0) →
    ∃ t, runHostTx (.write sp i v) s = .next t ∧ t.err = s.err ∧ t.errCode = s.errCode ∧ t.errInfo = s.errInfo) ∧
  ∀ (s : State) (sp : Space) (i : Nat),
    ∃ t, runHostTx (.read sp i) s = .next t ∧ t.err = s.err ∧ t.errCode = s.errCode ∧ t.errInfo = s.errInfo

/-- 10_state.md R23: the bits of the STATUS word. -/
def Obligations.StatusWordFields : Prop :=
  ∀ s : State,
    s.statusWord.getLsbD 0 = s.busy ∧ s.statusWord.getLsbD 1 = s.done ∧ s.statusWord.getLsbD 2 = s.err ∧
    (s.statusWord.getLsbD 3 = true ↔ s.decState = .inPath) ∧ s.statusWord.extractLsb' 4 4 = s.lastOp ∧
    s.statusWord.extractLsb' 8 24 = 0

/-! ## BUILD -/

/-- 60_exceptions.md R252: BUILD of an empty table raises EmptyInputError, with NA all FREE, `ROOT = 0`, `NODE_COUNT = 0`, and
nothing else written. -/
def Obligations.BuildEmptyTableRaises : Prop :=
  ∀ s : State, s.ready → (∀ v < Config.nsym, s.ftAt v = 0) →
    ∃ t, exec .build s = .next t ∧
      t = { s.raised 0x00000001 .emptyInput 0 with na := t.na, root := 0, nodeCount := 0 } ∧
      ∀ k < Config.nodeCap, t.naAt k = 0

/-- 40_tree_builder.md R125: BUILD of exactly one present symbol makes the degenerate tree: `NA[0]` its leaf, `NA[1]` INTERNAL with
`lv = 1`, `left = 0`, `rv = 0` and the leaf's weight, `ROOT = 1`, `NODE_COUNT = 2`, every other entry FREE. -/
def Obligations.BuildSingleSymbolWraps : Prop :=
  ∀ (s : State) (v : Nat), s.ready → v < Config.nsym → s.ftAt v ≠ 0 → (∀ w < Config.nsym, w ≠ v → s.ftAt w = 0) →
    ∃ t, exec .build s = .next t ∧
      t = { s.completed 0x00000001 with na := t.na, root := 1, nodeCount := 2 } ∧
      t.naAt 0 = nodeElem 1 0 0 (BitVec.ofNat 8 v) 0 0 (s.ftAt v) ∧ t.naAt 1 = nodeElem 2 1 0 0 0 0 (s.ftAt v) ∧
      ∀ k < Config.nodeCap, 2 ≤ k → t.naAt k = 0

/-- 40_tree_builder.md R124, R128 (a), (c): BUILD of `N >= 2` present symbols whose counts fit makes a full tree and writes
nothing else: the leaves first, in ascending symbol value; the internal nodes after them, both children present, below, and
weighing what the node weighs; every node but the root the child of exactly one node; the root last and weighing the sum of
all counts; every entry from NODE_COUNT up FREE. -/
def Obligations.BuildMakesFullTree : Prop :=
  ∀ (s : State) (n : Nat), s.ready → (present s).length = n → 2 ≤ n → ftTotal s < 2 ^ 32 →
    ∃ t, exec .build s = .next t ∧
      t = { s.completed 0x00000001 with
            na := t.na, root := BitVec.ofNat 9 (2 * n - 2), nodeCount := BitVec.ofNat 10 (2 * n - 1) } ∧
      (∀ i < n, ∃ v, (present s)[i]? = some v ∧ t.naAt i = leafNode (BitVec.ofNat 8 v) (s.ftAt v)) ∧
      (∀ k, n ≤ k → k < 2 * n - 1 →
        ∃ l r : Nat, l < k ∧ r < k ∧ l ≠ r ∧ ∃ w : Weight,
          t.naAt k = intNode (BitVec.ofNat 9 l) (BitVec.ofNat 9 r) w ∧
          w.toNat = (weightOf (t.naAt l)).toNat + (weightOf (t.naAt r)).toNat) ∧
      (∀ j < 2 * n - 2, ∃ k, (n ≤ k ∧ k < 2 * n - 1 ∧ ((leftOf (t.naAt k)).toNat = j ∨ (rightOf (t.naAt k)).toNat = j)) ∧
        ∀ k', n ≤ k' → k' < 2 * n - 1 → ((leftOf (t.naAt k')).toNat = j ∨ (rightOf (t.naAt k')).toNat = j) → k' = k) ∧
      (weightOf (t.naAt (2 * n - 2))).toNat = ftTotal s ∧
      ∀ k < Config.nodeCap, 2 * n - 1 ≤ k → t.naAt k = 0

/-- 40_tree_builder.md R126: with `N >= 2` present symbols and a sum of counts of `2^32` or more BUILD raises WeightOverflowError
with the index the new node would have had; the nodes written before remain, `ROOT = NODE_COUNT = 0`. (With a smaller sum it
succeeds: the statement above; with one symbol too.) -/
def Obligations.BuildOverflowRaises : Prop :=
  ∀ (s : State) (n : Nat), s.ready → (present s).length = n → 2 ≤ n → 2 ^ 32 ≤ ftTotal s →
    ∃ (t : State) (k : Nat), exec .build s = .next t ∧ n ≤ k ∧ k < 2 * n - 1 ∧
      t = { s.raised 0x00000001 .weightOverflow (BitVec.ofNat 32 k) with na := t.na, root := 0, nodeCount := 0 } ∧
      (∀ i < n, ∃ v, (present s)[i]? = some v ∧ t.naAt i = leafNode (BitVec.ofNat 8 v) (s.ftAt v)) ∧
      (∀ j, n ≤ j → j < k → kindOf (t.naAt j) = .internal) ∧
      ∀ j < Config.nodeCap, k ≤ j → t.naAt j = 0

/-- 40_tree_builder.md R122: `extract_min(PQ)` removes from PQ and returns the index whose pair `(NA[k].weight, k)` is least in
lexicographic order. -/
def Obligations.ExtractMinTakesLeastPair : Prop :=
  ∀ (s : State) (pq : List Nat), pq ≠ [] → pq.Nodup →
    (extractMin s pq).1 ∈ pq ∧ (extractMin s pq).2 = pq.filter (fun j => j ≠ (extractMin s pq).1) ∧
    ∀ j ∈ pq, j ≠ (extractMin s pq).1 →
      (weightOf (s.naAt (extractMin s pq).1)).toNat < (weightOf (s.naAt j)).toNat ∨
      ((weightOf (s.naAt (extractMin s pq).1)).toNat = (weightOf (s.naAt j)).toNat ∧ (extractMin s pq).1 < j)

/-- 40_tree_builder.md R121 phase 3, R123, R126: one merge of a running BUILD: the two least nodes `a` (first) and `b` (second)
leave PQ, and the new node has `b` left, `a` right, their weights' sum, or WeightOverflowError is raised and nothing stored.
That a merge is one tick (logs 2 and 10) and that PQ is a list to which the new index is appended (log 11) are the model's
choices. -/
def Obligations.MergePutsLightestRight : Prop :=
  ∀ (s : State) (pq : List Nat) (n a b : Nat), s.hidden = .buildMerge pq n → pq.Nodup → a ∈ pq → b ∈ pq → a ≠ b →
    (∀ j ∈ pq, j ≠ a → pqBefore s a j = true) → (∀ j ∈ pq, j ≠ a → j ≠ b → pqBefore s b j = true) →
    s.tick =
      if (weightOf (s.naAt a)).toNat + (weightOf (s.naAt b)).toNat < 2 ^ 32 then
        { s with
          na := Memory.set s.na n
            (nodeElem 2 1 1 0 (BitVec.ofNat 9 b) (BitVec.ofNat 9 a) (weightOf (s.naAt a) + weightOf (s.naAt b))),
          hidden := .buildMerge (pq.filter (fun j => j ≠ a ∧ j ≠ b) ++ [n]) (n + 1) }
      else s.raise .weightOverflow (BitVec.ofNat 32 n)

/-- 46_guarantees.md R238 (BUILD): from equal FT contents two BUILDs give identical NA, ROOT, NODE_COUNT, and the same error. -/
def Obligations.BuildDependsOnFtAlone : Prop :=
  ∀ s s' t t' : State, s.ready → s'.ready → (∀ v < Config.nsym, s.ftAt v = s'.ftAt v) →
    exec .build s = .next t → exec .build s' = .next t' →
    (∀ k < Config.nodeCap, t.naAt k = t'.naAt k) ∧ t.root = t'.root ∧ t.nodeCount = t'.nodeCount ∧
    t.err = t'.err ∧ (t.err = true → t.errCode = t'.errCode ∧ t.errInfo = t'.errInfo)

/-- 46_guarantees.md R232: after BUILD and GEN without error of a table with `N >= 2` present symbols, the weighted code length is
at most that of any lengths a prefix-free code can have. That those are the lengths within Kraft's inequality, here in whole
numbers, is general knowledge and no sentence of the source, as R232 itself marks it. -/
def Obligations.BuiltCodeIsOptimal : Prop :=
  ∀ (s b g : State) (len : Nat → Nat) (m : Nat), s.ready → 2 ≤ (present s).length → ftTotal s < 2 ^ 32 →
    exec .build s = .next b → exec .gen b = .next g →
    (∀ v ∈ present s, 1 ≤ len v ∧ len v ≤ m) → ((present s).map fun v => 2 ^ (m - len v)).sum ≤ 2 ^ m →
    ((present s).map fun v => (s.ftAt v).toNat * lenOf (g.ctAt v)).sum ≤
      ((present s).map fun v => (s.ftAt v).toNat * len v).sum

/-- 46_guarantees.md R239: after BUILD and GEN, a symbol with a greater count has no longer a code than one with a smaller count
that is not 0. -/
def Obligations.HeavierSymbolsGetNoLongerCodes : Prop :=
  ∀ (s b g : State) (v w : Sym), s.ready → exec .build s = .next b → b.err = false → exec .gen b = .next g →
    s.ftAt w.toNat ≠ 0 → (s.ftAt w.toNat).toNat < (s.ftAt v.toNat).toNat →
    lenOf (g.codeElem v) ≤ lenOf (g.codeElem w)

/-! ## GEN -/

/-- 41_code_table_generator.md R148: a root that is a LEAF, FREE or kind 3 makes GEN raise MalformedTreeError with `ERRINFO = ROOT`
after clearing CT. -/
def Obligations.GenBadRootRaises : Prop :=
  ∀ s : State, s.ready → kindOf (s.node s.root) ≠ .internal →
    ∃ t, exec .gen s = .next t ∧
      t = { s.raised 0x00000002 .malformedTree (s.root.setWidth 32) with ct := t.ct } ∧
      ∀ v < Config.nsym, t.ctAt v = 0

/-- 41_code_table_generator.md R143: the degenerate tree (root INTERNAL, `lv = 1`, `rv = 0`, left child a LEAF) gives the one entry
with code "0", without error; any other root with a valid bit 0 is malformed, with `ERRINFO = ROOT` and CT cleared; a root whose
both valid bits are 1 is not degenerate even if its right child is no node: the left leaf's code is written, then that child is
malformed. -/
def Obligations.GenDegenerateTree : Prop :=
  (∀ s : State, s.ready → kindOf (s.node s.root) = .internal → lvOf (s.node s.root) = true → rvOf (s.node s.root) = false →
    kindOf (s.node (leftOf (s.node s.root))) = .leaf →
    ∃ t, exec .gen s = .next t ∧ t = { s.completed 0x00000002 with ct := t.ct } ∧
      ∀ v : Sym, t.codeElem v = if v = symOf (s.node (leftOf (s.node s.root))) then 0x1#263 else 0) ∧
  (∀ s : State, s.ready → kindOf (s.node s.root) = .internal →
    (lvOf (s.node s.root) = false ∨
      (rvOf (s.node s.root) = false ∧ kindOf (s.node (leftOf (s.node s.root))) ≠ .leaf)) →
    ∃ t, exec .gen s = .next t ∧
      t = { s.raised 0x00000002 .malformedTree (s.root.setWidth 32) with ct := t.ct } ∧
      ∀ v < Config.nsym, t.ctAt v = 0) ∧
  ∀ s : State, s.ready → kindOf (s.node s.root) = .internal → lvOf (s.node s.root) = true → rvOf (s.node s.root) = true →
    kindOf (s.node (leftOf (s.node s.root))) = .leaf → kindOf (s.node (rightOf (s.node s.root))) = .free →
    ∃ t, exec .gen s = .next t ∧
      t = { s.raised 0x00000002 .malformedTree ((rightOf (s.node s.root)).setWidth 32) with ct := t.ct } ∧
      ∀ v : Sym, t.codeElem v = if v = symOf (s.node (leftOf (s.node s.root))) then 0x1#263 else 0

/-- 41_code_table_generator.md R141, R147 (a), (b): GEN of a proper tree completes without error, writes CT alone, and gives every
symbol of a leaf that leaf's root-to-leaf path as its code and every other symbol no entry. -/
def Obligations.GenWritesPathsOfProperTree : Prop :=
  ∀ s : State, s.ready → properTree s →
    ∃ t, exec .gen s = .next t ∧ t = { s.completed 0x00000002 with ct := t.ct } ∧
      ∀ v : Sym, (∀ p, leafSym s p = some v → t.codeElem v = entry p) ∧
        ((∀ p, leafSym s p ≠ some v) → t.codeElem v = 0)

/-- 41_code_table_generator.md R144, R145, R146, 60_exceptions.md R251, R253: on a tree that is neither proper nor degenerate GEN
raises MalformedTreeError, always terminating, with the index of the first node in pre-order that meets a condition of R145; CT,
cleared, then holds the codes of the leaves met before it, and nothing else is written. -/
def Obligations.GenFaultsOnImproperTree : Prop :=
  ∀ s : State, s.ready → ¬properTree s → (kindOf (s.node s.root) = .internal → isDegenerate s = false) →
    ∃ (t : State) (p : BitString) (k : NodeIdx), exec .gen s = .next t ∧
      t = { s.raised 0x00000002 .malformedTree (k.setWidth 32) with ct := t.ct } ∧
      descend s s.root p = some k ∧ malformedNode s p k ∧
      (∀ q m, before q p = true → descend s s.root q = some m → ¬malformedNode s q m) ∧
      ∀ v : Sym, (∀ q, before q p = true → leafSym s q = some v → t.codeElem v = entry q) ∧
        ((∀ q, before q p = true → leafSym s q ≠ some v) → t.codeElem v = 0)

/-- 46_guarantees.md R231: after any GEN that completes without error, no code is a prefix of (or equal to) another symbol's. -/
def Obligations.GeneratedCodesArePrefixFree : Prop :=
  ∀ s t : State, s.ready → exec .gen s = .next t → t.err = false →
    ∀ v w : Sym, v ≠ w → lenOf (t.codeElem v) ≠ 0 → lenOf (t.codeElem w) ≠ 0 → ¬(codeAt t v <+: codeAt t w)

/-- 41_code_table_generator.md R147 (d): the table of a proper tree is complete: every bit sequence of the greatest code length
has a code as a prefix. -/
def Obligations.GeneratedTableIsComplete : Prop :=
  ∀ s t : State, s.ready → properTree s → exec .gen s = .next t →
    ∀ bits : BitString, bits.length = Config.codeLenMax →
      ∃ v : Sym, lenOf (t.codeElem v) ≠ 0 ∧ codeAt t v <+: bits

/-- 41_code_table_generator.md R147 (e): after a successful BUILD, GEN succeeds, and exactly the symbols with a count have a
code. -/
def Obligations.GenAfterBuildSucceeds : Prop :=
  ∀ s b : State, s.ready → exec .build s = .next b → b.err = false →
    ∃ g, exec .gen b = .next g ∧ g.err = false ∧ ∀ v : Sym, lenOf (g.codeElem v) ≠ 0 ↔ s.ftAt v.toNat ≠ 0

/-- 41_code_table_generator.md R149, 10_state.md R32, 46_guarantees.md R238 (GEN): GEN is a function of the tree alone: weights,
NODE_COUNT and every field not meaningful for its node's kind are ignored. -/
def Obligations.GenDependsOnTreeAlone : Prop :=
  ∀ s s' t t' : State, s.ready → s'.ready → sameTree s s' → exec .gen s = .next t → exec .gen s' = .next t' →
    (∀ v < Config.nsym, t.ctAt v = t'.ctAt v) ∧ t.err = t'.err ∧
    (t.err = true → t.errCode = t'.errCode ∧ t.errInfo = t'.errInfo)

/-! ## ENCODE -/

/-- 42_encoder.md R169: ENCODE of a sequence that fits SYM, every symbol with an entry, whose codes fit BS: BIT_LEN is the sum of
the lengths, the first BIT_LEN bits of BS are the codes in order, the padding bits of the last byte are 0, every later byte and
everything else is unchanged. -/
def Obligations.EncodeConcatenatesCodes : Prop :=
  ∀ s : State, s.ready → s.symLen.toNat ≤ Config.symCap →
    (∀ v ∈ sequence s, lenOf (s.codeElem v) ≠ 0) →
    ((sequence s).map fun v => lenOf (s.codeElem v)).sum ≤ 8 * Config.bsCap →
    ∃ t, exec .encode s = .next t ∧
      t = { s.completed 0x00000003 with bs := t.bs, bitLen := t.bitLen } ∧
      t.bitLen.toNat = ((sequence s).map fun v => lenOf (s.codeElem v)).sum ∧
      stream t = codesOf s (sequence s) ∧
      (∀ j, t.bitLen.toNat ≤ j → j < 8 * ((t.bitLen.toNat + 7) / 8) → t.getBit j = false) ∧
      ∀ q, (t.bitLen.toNat + 7) / 8 ≤ q → t.bsAt q = s.bsAt q

/-- 60_exceptions.md R254, 42_encoder.md R164: at the first position whose symbol has no entry ENCODE raises UnknownSymbolError
with that position; the codes before it are in BS, the rest of their last byte 0 (R165), later bytes and BIT_LEN are unchanged. -/
def Obligations.EncodeUnknownSymbolRaises : Prop :=
  ∀ (s : State) (front rest : List Sym) (v : Sym), s.ready → s.symLen.toNat ≤ Config.symCap →
    sequence s = front ++ v :: rest → lenOf (s.codeElem v) = 0 → (∀ u ∈ front, lenOf (s.codeElem u) ≠ 0) →
    (codesOf s front).length ≤ 8 * Config.bsCap →
    ∃ t, exec .encode s = .next t ∧
      t = { s.raised 0x00000003 .unknownSymbol (BitVec.ofNat 32 front.length) with bs := t.bs } ∧
      (List.range (codesOf s front).length).map t.getBit = codesOf s front ∧
      (∀ j, (codesOf s front).length ≤ j → j < 8 * (((codesOf s front).length + 7) / 8) → t.getBit j = false) ∧
      ∀ q, ((codesOf s front).length + 7) / 8 ≤ q → t.bsAt q = s.bsAt q

/-- 42_encoder.md R163: a SYM_LEN above SYM_CAP makes ENCODE raise CapacityError at once, with SYM_LEN as detail, before touching
BS. -/
def Obligations.EncodeTooLongRaises : Prop :=
  ∀ s : State, s.ready → Config.symCap < s.symLen.toNat →
    exec .encode s = .next (s.raised 0x00000003 .capacity s.symLen)

/-- 42_encoder.md R166: at the first symbol whose code does not fit BS ENCODE raises CapacityError with its position; none of its
bits is written: the codes before it are in BS, the rest of their last byte 0 (R165), later bytes and BIT_LEN unchanged. -/
def Obligations.EncodeStreamFullRaises : Prop :=
  ∀ (s : State) (front rest : List Sym) (v : Sym), s.ready → s.symLen.toNat ≤ Config.symCap →
    sequence s = front ++ v :: rest → (∀ u ∈ front, lenOf (s.codeElem u) ≠ 0) → lenOf (s.codeElem v) ≠ 0 →
    (codesOf s front).length ≤ 8 * Config.bsCap →
    8 * Config.bsCap < (codesOf s front).length + lenOf (s.codeElem v) →
    ∃ t, exec .encode s = .next t ∧
      t = { s.raised 0x00000003 .capacity (BitVec.ofNat 32 front.length) with bs := t.bs } ∧
      (List.range (codesOf s front).length).map t.getBit = codesOf s front ∧
      (∀ j, (codesOf s front).length ≤ j → j < 8 * (((codesOf s front).length + 7) / 8) → t.getBit j = false) ∧
      ∀ q, ((codesOf s front).length + 7) / 8 ≤ q → t.bsAt q = s.bsAt q

/-- 42_encoder.md R167: with `SYM_LEN = 0` ENCODE writes `BIT_LEN <- 0` and nothing else, no error, whatever CT holds. -/
def Obligations.EncodeEmptySequence : Prop :=
  ∀ s : State, s.ready → s.symLen = 0 → exec .encode s = .next { s.completed 0x00000003 with bitLen := 0 }

/-! ## DECODE -/

/-- 43_decoder.md R181, R184, R185: a stream that is the concatenation of root-to-leaf paths decodes to those leaves' symbols in
order; SYM_LEN is their number, DEC_STATE is AT_ROOT, later elements of SYM and everything else unchanged. -/
def Obligations.DecodeEmitsLeafSymbols : Prop :=
  ∀ (s : State) (ps : List BitString) (vs : List Sym), s.ready → s.bitLen.toNat ≤ 8 * Config.bsCap →
    List.Forall₂ (fun p v => p ≠ [] ∧ leafSym s p = some v) ps vs → stream s = ps.flatten → vs.length ≤ Config.symCap →
    ∃ t, exec .decode s = .next t ∧
      t = { s.completed 0x00000004 with
            sym := t.sym, symLen := BitVec.ofNat 32 vs.length, decState := .atRoot } ∧
      (List.range vs.length).map t.symAt = vs ∧ ∀ i, vs.length ≤ i → t.symAt i = s.symAt i

/-- 43_decoder.md R190: after a successful DECODE, DEC_STATE is AT_ROOT, the stream is the concatenation of the root-to-leaf paths
of SYM_LEN leaves, uniquely so, SYM holds their symbols, SYM_LEN is at most BIT_LEN, and BS, NA, ROOT, BIT_LEN, SYM above and
the rest are unchanged. -/
def Obligations.DecodeSuccessIsWholeCodes : Prop :=
  ∀ s t : State, s.ready → exec .decode s = .next t → t.err = false →
    t = { s.completed 0x00000004 with sym := t.sym, symLen := t.symLen, decState := .atRoot } ∧
    (∃ ps : List BitString,
      (stream s = ps.flatten ∧ List.Forall₂ (fun p v => p ≠ [] ∧ leafSym s p = some v) ps (sequence t)) ∧
      ∀ (qs : List BitString) (us : List Sym), stream s = qs.flatten →
        List.Forall₂ (fun p v => p ≠ [] ∧ leafSym s p = some v) qs us → qs = ps) ∧
    t.symLen.toNat ≤ s.bitLen.toNat ∧ ∀ i, t.symLen.toNat ≤ i → t.symAt i = s.symAt i

/-- 60_exceptions.md R255, 43_decoder.md R187: a stream that ends inside a code makes DECODE raise TruncatedStreamError with
BIT_LEN as detail; every complete symbol is in SYM, `DEC_STATE = IN_PATH`, SYM_LEN is unchanged. -/
def Obligations.DecodeTruncatedRaises : Prop :=
  ∀ (s : State) (ps : List BitString) (vs : List Sym) (q : BitString) (k : NodeIdx), s.ready →
    s.bitLen.toNat ≤ 8 * Config.bsCap →
    List.Forall₂ (fun p v => p ≠ [] ∧ leafSym s p = some v) ps vs → stream s = ps.flatten ++ q →
    vs.length ≤ Config.symCap → q ≠ [] → descend s s.root q = some k → kindOf (s.node k) = .internal →
    ∃ t, exec .decode s = .next t ∧
      t = { s.raised 0x00000004 .truncatedStream s.bitLen with sym := t.sym, decState := .inPath } ∧
      (List.range vs.length).map t.symAt = vs ∧ ∀ i, vs.length ≤ i → t.symAt i = s.symAt i

/-- 60_exceptions.md R256, 43_decoder.md R186: at the first bit that cannot be followed, the node stood at not INTERNAL, its child
for the bit not valid, or that child no node, DECODE raises CorruptTreeError with the bit's position; the symbols completed
before are in SYM, DEC_STATE is what it was before the bit, SYM_LEN is unchanged. -/
def Obligations.DecodeCorruptTreeRaises : Prop :=
  ∀ (s : State) (ps : List BitString) (vs : List Sym) (q rest : BitString) (b : Bool) (k : NodeIdx), s.ready →
    s.bitLen.toNat ≤ 8 * Config.bsCap →
    List.Forall₂ (fun p v => p ≠ [] ∧ leafSym s p = some v) ps vs → stream s = ps.flatten ++ (q ++ b :: rest) →
    vs.length ≤ Config.symCap → descend s s.root q = some k → (q ≠ [] → kindOf (s.node k) = .internal) →
    (kindOf (s.node k) ≠ .internal ∨ childValid (s.node k) b = false ∨ kindOf (s.node (childOf (s.node k) b)) = .free) →
    ∃ t, exec .decode s = .next t ∧
      t = { s.raised 0x00000004 .corruptTree (BitVec.ofNat 32 (ps.flatten.length + q.length)) with
            sym := t.sym, decState := if q = [] then .atRoot else .inPath } ∧
      (List.range vs.length).map t.symAt = vs ∧ ∀ i, vs.length ≤ i → t.symAt i = s.symAt i

/-- 43_decoder.md R182: a BIT_LEN above `8*BS_CAP` makes DECODE raise CapacityError at once, before touching SYM or DEC_STATE. -/
def Obligations.DecodeTooLongRaises : Prop :=
  ∀ s : State, s.ready → 8 * Config.bsCap < s.bitLen.toNat →
    exec .decode s = .next (s.raised 0x00000004 .capacity s.bitLen)

/-- 43_decoder.md R185: a running DECODE that reaches a leaf with SYM already full raises CapacityError with the bit's position and
does not write; with room it writes the symbol to `SYM[m]` and goes back to the root. -/
def Obligations.DecodeEmissionNeedsRoom : Prop :=
  ∀ (s : State) (j m : Nat) (cur : NodeIdx), s.hidden = .decodeAt j cur m → j < s.bitLen.toNat →
    kindOf (s.node cur) = .internal → childValid (s.node cur) (s.getBit j) = true →
    kindOf (s.node (childOf (s.node cur) (s.getBit j))) = .leaf →
    s.tick =
      if m = Config.symCap then s.raise .capacity (BitVec.ofNat 32 j)
      else
        { s with
          sym := Memory.set s.sym m (symOf (s.node (childOf (s.node cur) (s.getBit j)))), decState := .atRoot,
          hidden := .decodeAt (j + 1) s.root (m + 1) }

/-- 43_decoder.md R189: with `BIT_LEN = 0` DECODE writes `SYM_LEN <- 0`, DEC_STATE is AT_ROOT, no error, whatever NA and ROOT
hold. -/
def Obligations.DecodeEmptyStream : Prop :=
  ∀ s : State, s.ready → s.bitLen = 0 →
    exec .decode s = .next { s.completed 0x00000004 with symLen := 0, decState := .atRoot }

/-- 43_decoder.md R182, R185, R191: DECODE is a function of the tree and of the first BIT_LEN bits of BS: FT, CT, NODE_COUNT,
weights, padding and later bytes have no effect. -/
def Obligations.DecodeDependsOnTreeAndStream : Prop :=
  ∀ s s' t t' : State, s.ready → s'.ready → sameTree s s' → s.bitLen = s'.bitLen → stream s = stream s' →
    s.symLen = s'.symLen → (∀ i < Config.symCap, s.symAt i = s'.symAt i) →
    exec .decode s = .next t → exec .decode s' = .next t' →
    (∀ i < Config.symCap, t.symAt i = t'.symAt i) ∧ t.symLen = t'.symLen ∧ t.err = t'.err ∧
    (t.err = true → t.errCode = t'.errCode ∧ t.errInfo = t'.errInfo)

/-! ## The whole machine -/

/-- 20_memory.md R76: what no command touches, whether it completes or raises: each writes only its own outputs, the flags and
the error latch, and the hidden state it leaves is none. -/
def Obligations.CommandsWriteOnlyTheirOutputs : Prop :=
  ∀ (i : Instr) (s t : State), exec i s = .next t →
    (i ≠ .build → t.na = s.na ∧ t.root = s.root ∧ t.nodeCount = s.nodeCount) ∧
    (i ≠ .gen → t.ct = s.ct) ∧
    (i ≠ .encode → t.bs = s.bs ∧ t.bitLen = s.bitLen) ∧
    (i ≠ .decode → t.sym = s.sym ∧ t.symLen = s.symLen ∧ t.decState = s.decState) ∧
    t.ft = s.ft ∧ t.inputs = s.inputs ∧ t.replies = s.replies ∧ t.epoch = s.epoch ∧ t.draws = s.draws

/-- 00_scope.md R17, 20_memory.md R70: the running command taken one loop iteration at a time reaches, after finitely many
iterations and with `BUSY = 1` until then, the state in which the atomic command ends. -/
def Obligations.TicksReachTheAtomicState : Prop :=
  ∀ (i : Instr) (s t : State), s.busy = false → (s.err = false ∨ i = .clrerr) → exec i s = .next t →
    ∃ k, State.ticks k (s.accept (encode i)) = t ∧ ∀ j < k, (State.ticks j (s.accept (encode i))).busy = true

/-- 70_reset_and_hazards.md R295: the block has no stuck state: every step answers a next state. -/
def Obligations.StepAlwaysAnswersNext : Prop :=
  ∀ s : State, ∃ t, step s = .next t

/-- 10_state.md R20 to R25, R37 to R41, 20_memory.md R60, R66: every step keeps the invariant: memories canonical and in range,
BUSY and DONE never both 1, ERR only with BUSY 0 and DONE 1, ERRCODE non-zero exactly with ERR and in its range, hidden state
exactly while busy and in its ranges. -/
def Obligations.StepKeepsInvariant : Prop :=
  ∀ s t : State, s.Inv → step s = .next t → t.Inv

/-- The invariant holds at reset. -/
def Obligations.ResetMeetsInvariant : Prop := State.reset.Inv

/-- 46_guarantees.md R230, without its premise on the counts: from any tree, after GEN and ENCODE without error, DECODE restores
the encoded sequence and its length, even if the host overwrote SYM and SYM_LEN in between. -/
def Obligations.EncodeDecodeRoundTrip : Prop :=
  ∀ (s g e : State) (sym' : Memory 8) (len' : Word), s.ready → exec .gen s = .next g → g.err = false →
    exec .encode g = .next e → e.err = false →
    ∃ d, exec .decode { e with sym := sym', symLen := len' } = .next d ∧ d.err = false ∧ d.decState = .atRoot ∧
      d.symLen = s.symLen ∧ sequence d = sequence s

/-- 46_guarantees.md R230: round trip: with SYM, SYM_LEN holding a non-empty sequence that fits and FT its counts, BUILD, GEN,
ENCODE and DECODE complete without error and DECODE restores the sequence, even if the host overwrote SYM and SYM_LEN before
it. -/
def Obligations.BuildToDecodeRoundTrip : Prop :=
  ∀ (s : State) (sym' : Memory 8) (len' : Word), s.ready → 1 ≤ s.symLen.toNat → s.symLen.toNat ≤ Config.symCap →
    (∀ v < Config.nsym, (s.ftAt v).toNat = countOf (sequence s) v) →
    ∃ b g e d, exec .build s = .next b ∧ exec .gen b = .next g ∧ exec .encode g = .next e ∧
      exec .decode { e with sym := sym', symLen := len' } = .next d ∧
      b.err = false ∧ g.err = false ∧ e.err = false ∧ d.err = false ∧
      sequence d = sequence s ∧ d.symLen = s.symLen ∧ d.decState = .atRoot

/-- 46_guarantees.md R237: after BUILD, GEN and ENCODE of a sequence whose counts FT holds, `BIT_LEN` is the sum of count times code
length, and at most 8 bits per symbol. -/
def Obligations.StreamLengthIsWeightedSum : Prop :=
  ∀ (s b g : State), s.ready → 1 ≤ s.symLen.toNat → s.symLen.toNat ≤ Config.symCap →
    (∀ v < Config.nsym, (s.ftAt v).toNat = countOf (sequence s) v) →
    exec .build s = .next b → exec .gen b = .next g →
    ∃ e, exec .encode g = .next e ∧ e.err = false ∧
      e.bitLen.toNat = ((List.range Config.nsym).map fun v => (s.ftAt v).toNat * lenOf (g.ctAt v)).sum ∧
      e.bitLen.toNat ≤ Config.symW * s.symLen.toNat

/-- 46_guarantees.md R233: a sequence of `L >= 1` copies of one symbol `v`: `NODE_COUNT = 2`, exactly one CT entry, the code "0",
`BIT_LEN = L`, zero bytes; a following DECODE restores it. -/
def Obligations.SingleSymbolSession : Prop :=
  ∀ (s : State) (v : Sym) (n : Nat), s.ready → 1 ≤ n → n ≤ Config.symCap → sequence s = List.replicate n v →
    (∀ u < Config.nsym, (s.ftAt u).toNat = if u = v.toNat then n else 0) →
    ∃ b g e d, exec .build s = .next b ∧ exec .gen b = .next g ∧ exec .encode g = .next e ∧ exec .decode e = .next d ∧
      b.nodeCount = 2 ∧ (∀ u : Sym, g.codeElem u = if u = v then 0x1#263 else 0) ∧
      e.bitLen.toNat = n ∧ (∀ q < (n + 7) / 8, e.bsAt q = 0) ∧ d.err = false ∧ sequence d = sequence s

/-- 46_guarantees.md R236: after a successful BUILD and GEN, REBUILD of CT does not fail, and DECODE with the rebuilt tree ends in
the same outcome as with the built one, for every content of BS and every BIT_LEN. -/
def Obligations.RebuiltTreeDecodesAlike : Prop :=
  ∀ (s b g : State) (bs' : Memory 8) (len' : Word), s.ready → exec .build s = .next b → b.err = false →
    exec .gen b = .next g →
    ∃ na, rebuild g.ctAt = .ok na ∧
      ∃ d d', exec .decode { g with bs := bs', bitLen := len' } = .next d ∧
        exec .decode ({ g with bs := bs', bitLen := len' }.loadTree na) = .next d' ∧
        d.err = d'.err ∧ d.errCode = d'.errCode ∧ d.errInfo = d'.errInfo ∧ d.symLen = d'.symLen ∧ d.sym = d'.sym

/-- 45_environment_contracts.md R210: "The sum of all `FT[s]` is `L`", for the counts of a sequence. -/
def Obligations.CountsSumToLength : Prop :=
  ∀ seq : List Sym, ((List.range Config.nsym).map (countOf seq)).sum = seq.length
end

