-- ==== Sys2Proof/Laws/State.lean ====
section
/-!
SUPPORT. One lemma per field per update of State, each true by rfl, so that no later proof unfolds a record update.
-/

namespace Sys2Proof.Machine

/-! ## setFt -/

@[simp] theorem State.setFt_busy (s : State) (i : Nat) (v : Weight) : (s.setFt i v).busy = s.busy := rfl
@[simp] theorem State.setFt_done (s : State) (i : Nat) (v : Weight) : (s.setFt i v).done = s.done := rfl
@[simp] theorem State.setFt_err (s : State) (i : Nat) (v : Weight) : (s.setFt i v).err = s.err := rfl
@[simp] theorem State.setFt_decState (s : State) (i : Nat) (v : Weight) : (s.setFt i v).decState = s.decState := rfl
@[simp] theorem State.setFt_lastOp (s : State) (i : Nat) (v : Weight) : (s.setFt i v).lastOp = s.lastOp := rfl
@[simp] theorem State.setFt_errCode (s : State) (i : Nat) (v : Weight) : (s.setFt i v).errCode = s.errCode := rfl
@[simp] theorem State.setFt_errInfo (s : State) (i : Nat) (v : Weight) : (s.setFt i v).errInfo = s.errInfo := rfl
@[simp] theorem State.setFt_symLen (s : State) (i : Nat) (v : Weight) : (s.setFt i v).symLen = s.symLen := rfl
@[simp] theorem State.setFt_bitLen (s : State) (i : Nat) (v : Weight) : (s.setFt i v).bitLen = s.bitLen := rfl
@[simp] theorem State.setFt_root (s : State) (i : Nat) (v : Weight) : (s.setFt i v).root = s.root := rfl
@[simp] theorem State.setFt_nodeCount (s : State) (i : Nat) (v : Weight) : (s.setFt i v).nodeCount = s.nodeCount := rfl
@[simp] theorem State.setFt_ft (s : State) (i : Nat) (v : Weight) : (s.setFt i v).ft = Memory.set s.ft i v := rfl
@[simp] theorem State.setFt_na (s : State) (i : Nat) (v : Weight) : (s.setFt i v).na = s.na := rfl
@[simp] theorem State.setFt_ct (s : State) (i : Nat) (v : Weight) : (s.setFt i v).ct = s.ct := rfl
@[simp] theorem State.setFt_sym (s : State) (i : Nat) (v : Weight) : (s.setFt i v).sym = s.sym := rfl
@[simp] theorem State.setFt_bs (s : State) (i : Nat) (v : Weight) : (s.setFt i v).bs = s.bs := rfl
@[simp] theorem State.setFt_hidden (s : State) (i : Nat) (v : Weight) : (s.setFt i v).hidden = s.hidden := rfl
@[simp] theorem State.setFt_inputs (s : State) (i : Nat) (v : Weight) : (s.setFt i v).inputs = s.inputs := rfl
@[simp] theorem State.setFt_replies (s : State) (i : Nat) (v : Weight) : (s.setFt i v).replies = s.replies := rfl
@[simp] theorem State.setFt_epoch (s : State) (i : Nat) (v : Weight) : (s.setFt i v).epoch = s.epoch := rfl
@[simp] theorem State.setFt_draws (s : State) (i : Nat) (v : Weight) : (s.setFt i v).draws = s.draws := rfl

/-! ## setNa -/

@[simp] theorem State.setNa_busy (s : State) (i : Nat) (v : NodeElem) : (s.setNa i v).busy = s.busy := rfl
@[simp] theorem State.setNa_done (s : State) (i : Nat) (v : NodeElem) : (s.setNa i v).done = s.done := rfl
@[simp] theorem State.setNa_err (s : State) (i : Nat) (v : NodeElem) : (s.setNa i v).err = s.err := rfl
@[simp] theorem State.setNa_decState (s : State) (i : Nat) (v : NodeElem) : (s.setNa i v).decState = s.decState := rfl
@[simp] theorem State.setNa_lastOp (s : State) (i : Nat) (v : NodeElem) : (s.setNa i v).lastOp = s.lastOp := rfl
@[simp] theorem State.setNa_errCode (s : State) (i : Nat) (v : NodeElem) : (s.setNa i v).errCode = s.errCode := rfl
@[simp] theorem State.setNa_errInfo (s : State) (i : Nat) (v : NodeElem) : (s.setNa i v).errInfo = s.errInfo := rfl
@[simp] theorem State.setNa_symLen (s : State) (i : Nat) (v : NodeElem) : (s.setNa i v).symLen = s.symLen := rfl
@[simp] theorem State.setNa_bitLen (s : State) (i : Nat) (v : NodeElem) : (s.setNa i v).bitLen = s.bitLen := rfl
@[simp] theorem State.setNa_root (s : State) (i : Nat) (v : NodeElem) : (s.setNa i v).root = s.root := rfl
@[simp] theorem State.setNa_nodeCount (s : State) (i : Nat) (v : NodeElem) : (s.setNa i v).nodeCount = s.nodeCount := rfl
@[simp] theorem State.setNa_ft (s : State) (i : Nat) (v : NodeElem) : (s.setNa i v).ft = s.ft := rfl
@[simp] theorem State.setNa_na (s : State) (i : Nat) (v : NodeElem) : (s.setNa i v).na = Memory.set s.na i v := rfl
@[simp] theorem State.setNa_ct (s : State) (i : Nat) (v : NodeElem) : (s.setNa i v).ct = s.ct := rfl
@[simp] theorem State.setNa_sym (s : State) (i : Nat) (v : NodeElem) : (s.setNa i v).sym = s.sym := rfl
@[simp] theorem State.setNa_bs (s : State) (i : Nat) (v : NodeElem) : (s.setNa i v).bs = s.bs := rfl
@[simp] theorem State.setNa_hidden (s : State) (i : Nat) (v : NodeElem) : (s.setNa i v).hidden = s.hidden := rfl
@[simp] theorem State.setNa_inputs (s : State) (i : Nat) (v : NodeElem) : (s.setNa i v).inputs = s.inputs := rfl
@[simp] theorem State.setNa_replies (s : State) (i : Nat) (v : NodeElem) : (s.setNa i v).replies = s.replies := rfl
@[simp] theorem State.setNa_epoch (s : State) (i : Nat) (v : NodeElem) : (s.setNa i v).epoch = s.epoch := rfl
@[simp] theorem State.setNa_draws (s : State) (i : Nat) (v : NodeElem) : (s.setNa i v).draws = s.draws := rfl

/-! ## setCt -/

@[simp] theorem State.setCt_busy (s : State) (i : Nat) (v : CodeElem) : (s.setCt i v).busy = s.busy := rfl
@[simp] theorem State.setCt_done (s : State) (i : Nat) (v : CodeElem) : (s.setCt i v).done = s.done := rfl
@[simp] theorem State.setCt_err (s : State) (i : Nat) (v : CodeElem) : (s.setCt i v).err = s.err := rfl
@[simp] theorem State.setCt_decState (s : State) (i : Nat) (v : CodeElem) : (s.setCt i v).decState = s.decState := rfl
@[simp] theorem State.setCt_lastOp (s : State) (i : Nat) (v : CodeElem) : (s.setCt i v).lastOp = s.lastOp := rfl
@[simp] theorem State.setCt_errCode (s : State) (i : Nat) (v : CodeElem) : (s.setCt i v).errCode = s.errCode := rfl
@[simp] theorem State.setCt_errInfo (s : State) (i : Nat) (v : CodeElem) : (s.setCt i v).errInfo = s.errInfo := rfl
@[simp] theorem State.setCt_symLen (s : State) (i : Nat) (v : CodeElem) : (s.setCt i v).symLen = s.symLen := rfl
@[simp] theorem State.setCt_bitLen (s : State) (i : Nat) (v : CodeElem) : (s.setCt i v).bitLen = s.bitLen := rfl
@[simp] theorem State.setCt_root (s : State) (i : Nat) (v : CodeElem) : (s.setCt i v).root = s.root := rfl
@[simp] theorem State.setCt_nodeCount (s : State) (i : Nat) (v : CodeElem) : (s.setCt i v).nodeCount = s.nodeCount := rfl
@[simp] theorem State.setCt_ft (s : State) (i : Nat) (v : CodeElem) : (s.setCt i v).ft = s.ft := rfl
@[simp] theorem State.setCt_na (s : State) (i : Nat) (v : CodeElem) : (s.setCt i v).na = s.na := rfl
@[simp] theorem State.setCt_ct (s : State) (i : Nat) (v : CodeElem) : (s.setCt i v).ct = Memory.set s.ct i v := rfl
@[simp] theorem State.setCt_sym (s : State) (i : Nat) (v : CodeElem) : (s.setCt i v).sym = s.sym := rfl
@[simp] theorem State.setCt_bs (s : State) (i : Nat) (v : CodeElem) : (s.setCt i v).bs = s.bs := rfl
@[simp] theorem State.setCt_hidden (s : State) (i : Nat) (v : CodeElem) : (s.setCt i v).hidden = s.hidden := rfl
@[simp] theorem State.setCt_inputs (s : State) (i : Nat) (v : CodeElem) : (s.setCt i v).inputs = s.inputs := rfl
@[simp] theorem State.setCt_replies (s : State) (i : Nat) (v : CodeElem) : (s.setCt i v).replies = s.replies := rfl
@[simp] theorem State.setCt_epoch (s : State) (i : Nat) (v : CodeElem) : (s.setCt i v).epoch = s.epoch := rfl
@[simp] theorem State.setCt_draws (s : State) (i : Nat) (v : CodeElem) : (s.setCt i v).draws = s.draws := rfl

/-! ## setSym -/

@[simp] theorem State.setSym_busy (s : State) (i : Nat) (v : Sym) : (s.setSym i v).busy = s.busy := rfl
@[simp] theorem State.setSym_done (s : State) (i : Nat) (v : Sym) : (s.setSym i v).done = s.done := rfl
@[simp] theorem State.setSym_err (s : State) (i : Nat) (v : Sym) : (s.setSym i v).err = s.err := rfl
@[simp] theorem State.setSym_decState (s : State) (i : Nat) (v : Sym) : (s.setSym i v).decState = s.decState := rfl
@[simp] theorem State.setSym_lastOp (s : State) (i : Nat) (v : Sym) : (s.setSym i v).lastOp = s.lastOp := rfl
@[simp] theorem State.setSym_errCode (s : State) (i : Nat) (v : Sym) : (s.setSym i v).errCode = s.errCode := rfl
@[simp] theorem State.setSym_errInfo (s : State) (i : Nat) (v : Sym) : (s.setSym i v).errInfo = s.errInfo := rfl
@[simp] theorem State.setSym_symLen (s : State) (i : Nat) (v : Sym) : (s.setSym i v).symLen = s.symLen := rfl
@[simp] theorem State.setSym_bitLen (s : State) (i : Nat) (v : Sym) : (s.setSym i v).bitLen = s.bitLen := rfl
@[simp] theorem State.setSym_root (s : State) (i : Nat) (v : Sym) : (s.setSym i v).root = s.root := rfl
@[simp] theorem State.setSym_nodeCount (s : State) (i : Nat) (v : Sym) : (s.setSym i v).nodeCount = s.nodeCount := rfl
@[simp] theorem State.setSym_ft (s : State) (i : Nat) (v : Sym) : (s.setSym i v).ft = s.ft := rfl
@[simp] theorem State.setSym_na (s : State) (i : Nat) (v : Sym) : (s.setSym i v).na = s.na := rfl
@[simp] theorem State.setSym_ct (s : State) (i : Nat) (v : Sym) : (s.setSym i v).ct = s.ct := rfl
@[simp] theorem State.setSym_sym (s : State) (i : Nat) (v : Sym) : (s.setSym i v).sym = Memory.set s.sym i v := rfl
@[simp] theorem State.setSym_bs (s : State) (i : Nat) (v : Sym) : (s.setSym i v).bs = s.bs := rfl
@[simp] theorem State.setSym_hidden (s : State) (i : Nat) (v : Sym) : (s.setSym i v).hidden = s.hidden := rfl
@[simp] theorem State.setSym_inputs (s : State) (i : Nat) (v : Sym) : (s.setSym i v).inputs = s.inputs := rfl
@[simp] theorem State.setSym_replies (s : State) (i : Nat) (v : Sym) : (s.setSym i v).replies = s.replies := rfl
@[simp] theorem State.setSym_epoch (s : State) (i : Nat) (v : Sym) : (s.setSym i v).epoch = s.epoch := rfl
@[simp] theorem State.setSym_draws (s : State) (i : Nat) (v : Sym) : (s.setSym i v).draws = s.draws := rfl

/-! ## setBs -/

@[simp] theorem State.setBs_busy (s : State) (i : Nat) (v : Byte) : (s.setBs i v).busy = s.busy := rfl
@[simp] theorem State.setBs_done (s : State) (i : Nat) (v : Byte) : (s.setBs i v).done = s.done := rfl
@[simp] theorem State.setBs_err (s : State) (i : Nat) (v : Byte) : (s.setBs i v).err = s.err := rfl
@[simp] theorem State.setBs_decState (s : State) (i : Nat) (v : Byte) : (s.setBs i v).decState = s.decState := rfl
@[simp] theorem State.setBs_lastOp (s : State) (i : Nat) (v : Byte) : (s.setBs i v).lastOp = s.lastOp := rfl
@[simp] theorem State.setBs_errCode (s : State) (i : Nat) (v : Byte) : (s.setBs i v).errCode = s.errCode := rfl
@[simp] theorem State.setBs_errInfo (s : State) (i : Nat) (v : Byte) : (s.setBs i v).errInfo = s.errInfo := rfl
@[simp] theorem State.setBs_symLen (s : State) (i : Nat) (v : Byte) : (s.setBs i v).symLen = s.symLen := rfl
@[simp] theorem State.setBs_bitLen (s : State) (i : Nat) (v : Byte) : (s.setBs i v).bitLen = s.bitLen := rfl
@[simp] theorem State.setBs_root (s : State) (i : Nat) (v : Byte) : (s.setBs i v).root = s.root := rfl
@[simp] theorem State.setBs_nodeCount (s : State) (i : Nat) (v : Byte) : (s.setBs i v).nodeCount = s.nodeCount := rfl
@[simp] theorem State.setBs_ft (s : State) (i : Nat) (v : Byte) : (s.setBs i v).ft = s.ft := rfl
@[simp] theorem State.setBs_na (s : State) (i : Nat) (v : Byte) : (s.setBs i v).na = s.na := rfl
@[simp] theorem State.setBs_ct (s : State) (i : Nat) (v : Byte) : (s.setBs i v).ct = s.ct := rfl
@[simp] theorem State.setBs_sym (s : State) (i : Nat) (v : Byte) : (s.setBs i v).sym = s.sym := rfl
@[simp] theorem State.setBs_bs (s : State) (i : Nat) (v : Byte) : (s.setBs i v).bs = Memory.set s.bs i v := rfl
@[simp] theorem State.setBs_hidden (s : State) (i : Nat) (v : Byte) : (s.setBs i v).hidden = s.hidden := rfl
@[simp] theorem State.setBs_inputs (s : State) (i : Nat) (v : Byte) : (s.setBs i v).inputs = s.inputs := rfl
@[simp] theorem State.setBs_replies (s : State) (i : Nat) (v : Byte) : (s.setBs i v).replies = s.replies := rfl
@[simp] theorem State.setBs_epoch (s : State) (i : Nat) (v : Byte) : (s.setBs i v).epoch = s.epoch := rfl
@[simp] theorem State.setBs_draws (s : State) (i : Nat) (v : Byte) : (s.setBs i v).draws = s.draws := rfl

/-! ## setSymLen -/

@[simp] theorem State.setSymLen_busy (s : State) (v : Word) : (s.setSymLen v).busy = s.busy := rfl
@[simp] theorem State.setSymLen_done (s : State) (v : Word) : (s.setSymLen v).done = s.done := rfl
@[simp] theorem State.setSymLen_err (s : State) (v : Word) : (s.setSymLen v).err = s.err := rfl
@[simp] theorem State.setSymLen_decState (s : State) (v : Word) : (s.setSymLen v).decState = s.decState := rfl
@[simp] theorem State.setSymLen_lastOp (s : State) (v : Word) : (s.setSymLen v).lastOp = s.lastOp := rfl
@[simp] theorem State.setSymLen_errCode (s : State) (v : Word) : (s.setSymLen v).errCode = s.errCode := rfl
@[simp] theorem State.setSymLen_errInfo (s : State) (v : Word) : (s.setSymLen v).errInfo = s.errInfo := rfl
@[simp] theorem State.setSymLen_symLen (s : State) (v : Word) : (s.setSymLen v).symLen = v := rfl
@[simp] theorem State.setSymLen_bitLen (s : State) (v : Word) : (s.setSymLen v).bitLen = s.bitLen := rfl
@[simp] theorem State.setSymLen_root (s : State) (v : Word) : (s.setSymLen v).root = s.root := rfl
@[simp] theorem State.setSymLen_nodeCount (s : State) (v : Word) : (s.setSymLen v).nodeCount = s.nodeCount := rfl
@[simp] theorem State.setSymLen_ft (s : State) (v : Word) : (s.setSymLen v).ft = s.ft := rfl
@[simp] theorem State.setSymLen_na (s : State) (v : Word) : (s.setSymLen v).na = s.na := rfl
@[simp] theorem State.setSymLen_ct (s : State) (v : Word) : (s.setSymLen v).ct = s.ct := rfl
@[simp] theorem State.setSymLen_sym (s : State) (v : Word) : (s.setSymLen v).sym = s.sym := rfl
@[simp] theorem State.setSymLen_bs (s : State) (v : Word) : (s.setSymLen v).bs = s.bs := rfl
@[simp] theorem State.setSymLen_hidden (s : State) (v : Word) : (s.setSymLen v).hidden = s.hidden := rfl
@[simp] theorem State.setSymLen_inputs (s : State) (v : Word) : (s.setSymLen v).inputs = s.inputs := rfl
@[simp] theorem State.setSymLen_replies (s : State) (v : Word) : (s.setSymLen v).replies = s.replies := rfl
@[simp] theorem State.setSymLen_epoch (s : State) (v : Word) : (s.setSymLen v).epoch = s.epoch := rfl
@[simp] theorem State.setSymLen_draws (s : State) (v : Word) : (s.setSymLen v).draws = s.draws := rfl

/-! ## setBitLen -/

@[simp] theorem State.setBitLen_busy (s : State) (v : Word) : (s.setBitLen v).busy = s.busy := rfl
@[simp] theorem State.setBitLen_done (s : State) (v : Word) : (s.setBitLen v).done = s.done := rfl
@[simp] theorem State.setBitLen_err (s : State) (v : Word) : (s.setBitLen v).err = s.err := rfl
@[simp] theorem State.setBitLen_decState (s : State) (v : Word) : (s.setBitLen v).decState = s.decState := rfl
@[simp] theorem State.setBitLen_lastOp (s : State) (v : Word) : (s.setBitLen v).lastOp = s.lastOp := rfl
@[simp] theorem State.setBitLen_errCode (s : State) (v : Word) : (s.setBitLen v).errCode = s.errCode := rfl
@[simp] theorem State.setBitLen_errInfo (s : State) (v : Word) : (s.setBitLen v).errInfo = s.errInfo := rfl
@[simp] theorem State.setBitLen_symLen (s : State) (v : Word) : (s.setBitLen v).symLen = s.symLen := rfl
@[simp] theorem State.setBitLen_bitLen (s : State) (v : Word) : (s.setBitLen v).bitLen = v := rfl
@[simp] theorem State.setBitLen_root (s : State) (v : Word) : (s.setBitLen v).root = s.root := rfl
@[simp] theorem State.setBitLen_nodeCount (s : State) (v : Word) : (s.setBitLen v).nodeCount = s.nodeCount := rfl
@[simp] theorem State.setBitLen_ft (s : State) (v : Word) : (s.setBitLen v).ft = s.ft := rfl
@[simp] theorem State.setBitLen_na (s : State) (v : Word) : (s.setBitLen v).na = s.na := rfl
@[simp] theorem State.setBitLen_ct (s : State) (v : Word) : (s.setBitLen v).ct = s.ct := rfl
@[simp] theorem State.setBitLen_sym (s : State) (v : Word) : (s.setBitLen v).sym = s.sym := rfl
@[simp] theorem State.setBitLen_bs (s : State) (v : Word) : (s.setBitLen v).bs = s.bs := rfl
@[simp] theorem State.setBitLen_hidden (s : State) (v : Word) : (s.setBitLen v).hidden = s.hidden := rfl
@[simp] theorem State.setBitLen_inputs (s : State) (v : Word) : (s.setBitLen v).inputs = s.inputs := rfl
@[simp] theorem State.setBitLen_replies (s : State) (v : Word) : (s.setBitLen v).replies = s.replies := rfl
@[simp] theorem State.setBitLen_epoch (s : State) (v : Word) : (s.setBitLen v).epoch = s.epoch := rfl
@[simp] theorem State.setBitLen_draws (s : State) (v : Word) : (s.setBitLen v).draws = s.draws := rfl

/-! ## setRoot -/

@[simp] theorem State.setRoot_busy (s : State) (v : NodeIdx) : (s.setRoot v).busy = s.busy := rfl
@[simp] theorem State.setRoot_done (s : State) (v : NodeIdx) : (s.setRoot v).done = s.done := rfl
@[simp] theorem State.setRoot_err (s : State) (v : NodeIdx) : (s.setRoot v).err = s.err := rfl
@[simp] theorem State.setRoot_decState (s : State) (v : NodeIdx) : (s.setRoot v).decState = s.decState := rfl
@[simp] theorem State.setRoot_lastOp (s : State) (v : NodeIdx) : (s.setRoot v).lastOp = s.lastOp := rfl
@[simp] theorem State.setRoot_errCode (s : State) (v : NodeIdx) : (s.setRoot v).errCode = s.errCode := rfl
@[simp] theorem State.setRoot_errInfo (s : State) (v : NodeIdx) : (s.setRoot v).errInfo = s.errInfo := rfl
@[simp] theorem State.setRoot_symLen (s : State) (v : NodeIdx) : (s.setRoot v).symLen = s.symLen := rfl
@[simp] theorem State.setRoot_bitLen (s : State) (v : NodeIdx) : (s.setRoot v).bitLen = s.bitLen := rfl
@[simp] theorem State.setRoot_root (s : State) (v : NodeIdx) : (s.setRoot v).root = v := rfl
@[simp] theorem State.setRoot_nodeCount (s : State) (v : NodeIdx) : (s.setRoot v).nodeCount = s.nodeCount := rfl
@[simp] theorem State.setRoot_ft (s : State) (v : NodeIdx) : (s.setRoot v).ft = s.ft := rfl
@[simp] theorem State.setRoot_na (s : State) (v : NodeIdx) : (s.setRoot v).na = s.na := rfl
@[simp] theorem State.setRoot_ct (s : State) (v : NodeIdx) : (s.setRoot v).ct = s.ct := rfl
@[simp] theorem State.setRoot_sym (s : State) (v : NodeIdx) : (s.setRoot v).sym = s.sym := rfl
@[simp] theorem State.setRoot_bs (s : State) (v : NodeIdx) : (s.setRoot v).bs = s.bs := rfl
@[simp] theorem State.setRoot_hidden (s : State) (v : NodeIdx) : (s.setRoot v).hidden = s.hidden := rfl
@[simp] theorem State.setRoot_inputs (s : State) (v : NodeIdx) : (s.setRoot v).inputs = s.inputs := rfl
@[simp] theorem State.setRoot_replies (s : State) (v : NodeIdx) : (s.setRoot v).replies = s.replies := rfl
@[simp] theorem State.setRoot_epoch (s : State) (v : NodeIdx) : (s.setRoot v).epoch = s.epoch := rfl
@[simp] theorem State.setRoot_draws (s : State) (v : NodeIdx) : (s.setRoot v).draws = s.draws := rfl

/-! ## setNodeCount -/

@[simp] theorem State.setNodeCount_busy (s : State) (v : BitVec 10) : (s.setNodeCount v).busy = s.busy := rfl
@[simp] theorem State.setNodeCount_done (s : State) (v : BitVec 10) : (s.setNodeCount v).done = s.done := rfl
@[simp] theorem State.setNodeCount_err (s : State) (v : BitVec 10) : (s.setNodeCount v).err = s.err := rfl
@[simp] theorem State.setNodeCount_decState (s : State) (v : BitVec 10) : (s.setNodeCount v).decState = s.decState := rfl
@[simp] theorem State.setNodeCount_lastOp (s : State) (v : BitVec 10) : (s.setNodeCount v).lastOp = s.lastOp := rfl
@[simp] theorem State.setNodeCount_errCode (s : State) (v : BitVec 10) : (s.setNodeCount v).errCode = s.errCode := rfl
@[simp] theorem State.setNodeCount_errInfo (s : State) (v : BitVec 10) : (s.setNodeCount v).errInfo = s.errInfo := rfl
@[simp] theorem State.setNodeCount_symLen (s : State) (v : BitVec 10) : (s.setNodeCount v).symLen = s.symLen := rfl
@[simp] theorem State.setNodeCount_bitLen (s : State) (v : BitVec 10) : (s.setNodeCount v).bitLen = s.bitLen := rfl
@[simp] theorem State.setNodeCount_root (s : State) (v : BitVec 10) : (s.setNodeCount v).root = s.root := rfl
@[simp] theorem State.setNodeCount_nodeCount (s : State) (v : BitVec 10) : (s.setNodeCount v).nodeCount = v := rfl
@[simp] theorem State.setNodeCount_ft (s : State) (v : BitVec 10) : (s.setNodeCount v).ft = s.ft := rfl
@[simp] theorem State.setNodeCount_na (s : State) (v : BitVec 10) : (s.setNodeCount v).na = s.na := rfl
@[simp] theorem State.setNodeCount_ct (s : State) (v : BitVec 10) : (s.setNodeCount v).ct = s.ct := rfl
@[simp] theorem State.setNodeCount_sym (s : State) (v : BitVec 10) : (s.setNodeCount v).sym = s.sym := rfl
@[simp] theorem State.setNodeCount_bs (s : State) (v : BitVec 10) : (s.setNodeCount v).bs = s.bs := rfl
@[simp] theorem State.setNodeCount_hidden (s : State) (v : BitVec 10) : (s.setNodeCount v).hidden = s.hidden := rfl
@[simp] theorem State.setNodeCount_inputs (s : State) (v : BitVec 10) : (s.setNodeCount v).inputs = s.inputs := rfl
@[simp] theorem State.setNodeCount_replies (s : State) (v : BitVec 10) : (s.setNodeCount v).replies = s.replies := rfl
@[simp] theorem State.setNodeCount_epoch (s : State) (v : BitVec 10) : (s.setNodeCount v).epoch = s.epoch := rfl
@[simp] theorem State.setNodeCount_draws (s : State) (v : BitVec 10) : (s.setNodeCount v).draws = s.draws := rfl

/-! ## setDecState -/

@[simp] theorem State.setDecState_busy (s : State) (d : DecState) : (s.setDecState d).busy = s.busy := rfl
@[simp] theorem State.setDecState_done (s : State) (d : DecState) : (s.setDecState d).done = s.done := rfl
@[simp] theorem State.setDecState_err (s : State) (d : DecState) : (s.setDecState d).err = s.err := rfl
@[simp] theorem State.setDecState_decState (s : State) (d : DecState) : (s.setDecState d).decState = d := rfl
@[simp] theorem State.setDecState_lastOp (s : State) (d : DecState) : (s.setDecState d).lastOp = s.lastOp := rfl
@[simp] theorem State.setDecState_errCode (s : State) (d : DecState) : (s.setDecState d).errCode = s.errCode := rfl
@[simp] theorem State.setDecState_errInfo (s : State) (d : DecState) : (s.setDecState d).errInfo = s.errInfo := rfl
@[simp] theorem State.setDecState_symLen (s : State) (d : DecState) : (s.setDecState d).symLen = s.symLen := rfl
@[simp] theorem State.setDecState_bitLen (s : State) (d : DecState) : (s.setDecState d).bitLen = s.bitLen := rfl
@[simp] theorem State.setDecState_root (s : State) (d : DecState) : (s.setDecState d).root = s.root := rfl
@[simp] theorem State.setDecState_nodeCount (s : State) (d : DecState) : (s.setDecState d).nodeCount = s.nodeCount := rfl
@[simp] theorem State.setDecState_ft (s : State) (d : DecState) : (s.setDecState d).ft = s.ft := rfl
@[simp] theorem State.setDecState_na (s : State) (d : DecState) : (s.setDecState d).na = s.na := rfl
@[simp] theorem State.setDecState_ct (s : State) (d : DecState) : (s.setDecState d).ct = s.ct := rfl
@[simp] theorem State.setDecState_sym (s : State) (d : DecState) : (s.setDecState d).sym = s.sym := rfl
@[simp] theorem State.setDecState_bs (s : State) (d : DecState) : (s.setDecState d).bs = s.bs := rfl
@[simp] theorem State.setDecState_hidden (s : State) (d : DecState) : (s.setDecState d).hidden = s.hidden := rfl
@[simp] theorem State.setDecState_inputs (s : State) (d : DecState) : (s.setDecState d).inputs = s.inputs := rfl
@[simp] theorem State.setDecState_replies (s : State) (d : DecState) : (s.setDecState d).replies = s.replies := rfl
@[simp] theorem State.setDecState_epoch (s : State) (d : DecState) : (s.setDecState d).epoch = s.epoch := rfl
@[simp] theorem State.setDecState_draws (s : State) (d : DecState) : (s.setDecState d).draws = s.draws := rfl

/-! ## setHidden -/

@[simp] theorem State.setHidden_busy (s : State) (h : Hidden) : (s.setHidden h).busy = s.busy := rfl
@[simp] theorem State.setHidden_done (s : State) (h : Hidden) : (s.setHidden h).done = s.done := rfl
@[simp] theorem State.setHidden_err (s : State) (h : Hidden) : (s.setHidden h).err = s.err := rfl
@[simp] theorem State.setHidden_decState (s : State) (h : Hidden) : (s.setHidden h).decState = s.decState := rfl
@[simp] theorem State.setHidden_lastOp (s : State) (h : Hidden) : (s.setHidden h).lastOp = s.lastOp := rfl
@[simp] theorem State.setHidden_errCode (s : State) (h : Hidden) : (s.setHidden h).errCode = s.errCode := rfl
@[simp] theorem State.setHidden_errInfo (s : State) (h : Hidden) : (s.setHidden h).errInfo = s.errInfo := rfl
@[simp] theorem State.setHidden_symLen (s : State) (h : Hidden) : (s.setHidden h).symLen = s.symLen := rfl
@[simp] theorem State.setHidden_bitLen (s : State) (h : Hidden) : (s.setHidden h).bitLen = s.bitLen := rfl
@[simp] theorem State.setHidden_root (s : State) (h : Hidden) : (s.setHidden h).root = s.root := rfl
@[simp] theorem State.setHidden_nodeCount (s : State) (h : Hidden) : (s.setHidden h).nodeCount = s.nodeCount := rfl
@[simp] theorem State.setHidden_ft (s : State) (h : Hidden) : (s.setHidden h).ft = s.ft := rfl
@[simp] theorem State.setHidden_na (s : State) (h : Hidden) : (s.setHidden h).na = s.na := rfl
@[simp] theorem State.setHidden_ct (s : State) (h : Hidden) : (s.setHidden h).ct = s.ct := rfl
@[simp] theorem State.setHidden_sym (s : State) (h : Hidden) : (s.setHidden h).sym = s.sym := rfl
@[simp] theorem State.setHidden_bs (s : State) (h : Hidden) : (s.setHidden h).bs = s.bs := rfl
@[simp] theorem State.setHidden_hidden (s : State) (h : Hidden) : (s.setHidden h).hidden = h := rfl
@[simp] theorem State.setHidden_inputs (s : State) (h : Hidden) : (s.setHidden h).inputs = s.inputs := rfl
@[simp] theorem State.setHidden_replies (s : State) (h : Hidden) : (s.setHidden h).replies = s.replies := rfl
@[simp] theorem State.setHidden_epoch (s : State) (h : Hidden) : (s.setHidden h).epoch = s.epoch := rfl
@[simp] theorem State.setHidden_draws (s : State) (h : Hidden) : (s.setHidden h).draws = s.draws := rfl

/-! ## buildClear -/

@[simp] theorem buildClear_busy (s : State) : (buildClear s).busy = s.busy := rfl
@[simp] theorem buildClear_done (s : State) : (buildClear s).done = s.done := rfl
@[simp] theorem buildClear_err (s : State) : (buildClear s).err = s.err := rfl
@[simp] theorem buildClear_decState (s : State) : (buildClear s).decState = s.decState := rfl
@[simp] theorem buildClear_lastOp (s : State) : (buildClear s).lastOp = s.lastOp := rfl
@[simp] theorem buildClear_errCode (s : State) : (buildClear s).errCode = s.errCode := rfl
@[simp] theorem buildClear_errInfo (s : State) : (buildClear s).errInfo = s.errInfo := rfl
@[simp] theorem buildClear_symLen (s : State) : (buildClear s).symLen = s.symLen := rfl
@[simp] theorem buildClear_bitLen (s : State) : (buildClear s).bitLen = s.bitLen := rfl
@[simp] theorem buildClear_root (s : State) : (buildClear s).root = 0 := rfl
@[simp] theorem buildClear_nodeCount (s : State) : (buildClear s).nodeCount = 0 := rfl
@[simp] theorem buildClear_ft (s : State) : (buildClear s).ft = s.ft := rfl
@[simp] theorem buildClear_na (s : State) : (buildClear s).na = Memory.fill Config.nodeCap freeNode := by
  rw [buildClear]
@[simp] theorem buildClear_ct (s : State) : (buildClear s).ct = s.ct := rfl
@[simp] theorem buildClear_sym (s : State) : (buildClear s).sym = s.sym := rfl
@[simp] theorem buildClear_bs (s : State) : (buildClear s).bs = s.bs := rfl
@[simp] theorem buildClear_hidden (s : State) : (buildClear s).hidden = s.hidden := rfl
@[simp] theorem buildClear_inputs (s : State) : (buildClear s).inputs = s.inputs := rfl
@[simp] theorem buildClear_replies (s : State) : (buildClear s).replies = s.replies := rfl
@[simp] theorem buildClear_epoch (s : State) : (buildClear s).epoch = s.epoch := rfl
@[simp] theorem buildClear_draws (s : State) : (buildClear s).draws = s.draws := rfl

/-! ## genClear -/

@[simp] theorem genClear_busy (s : State) : (genClear s).busy = s.busy := rfl
@[simp] theorem genClear_done (s : State) : (genClear s).done = s.done := rfl
@[simp] theorem genClear_err (s : State) : (genClear s).err = s.err := rfl
@[simp] theorem genClear_decState (s : State) : (genClear s).decState = s.decState := rfl
@[simp] theorem genClear_lastOp (s : State) : (genClear s).lastOp = s.lastOp := rfl
@[simp] theorem genClear_errCode (s : State) : (genClear s).errCode = s.errCode := rfl
@[simp] theorem genClear_errInfo (s : State) : (genClear s).errInfo = s.errInfo := rfl
@[simp] theorem genClear_symLen (s : State) : (genClear s).symLen = s.symLen := rfl
@[simp] theorem genClear_bitLen (s : State) : (genClear s).bitLen = s.bitLen := rfl
@[simp] theorem genClear_root (s : State) : (genClear s).root = s.root := rfl
@[simp] theorem genClear_nodeCount (s : State) : (genClear s).nodeCount = s.nodeCount := rfl
@[simp] theorem genClear_ft (s : State) : (genClear s).ft = s.ft := rfl
@[simp] theorem genClear_na (s : State) : (genClear s).na = s.na := rfl
@[simp] theorem genClear_ct (s : State) : (genClear s).ct = Memory.fill Config.nsym noEntry := by
  rw [genClear]
@[simp] theorem genClear_sym (s : State) : (genClear s).sym = s.sym := rfl
@[simp] theorem genClear_bs (s : State) : (genClear s).bs = s.bs := rfl
@[simp] theorem genClear_hidden (s : State) : (genClear s).hidden = s.hidden := rfl
@[simp] theorem genClear_inputs (s : State) : (genClear s).inputs = s.inputs := rfl
@[simp] theorem genClear_replies (s : State) : (genClear s).replies = s.replies := rfl
@[simp] theorem genClear_epoch (s : State) : (genClear s).epoch = s.epoch := rfl
@[simp] theorem genClear_draws (s : State) : (genClear s).draws = s.draws := rfl

/-! ## accept -/

@[simp] theorem State.accept_busy (s : State) (w : Word) : (s.accept w).busy = true := rfl
@[simp] theorem State.accept_done (s : State) (w : Word) : (s.accept w).done = false := rfl
@[simp] theorem State.accept_err (s : State) (w : Word) : (s.accept w).err = s.err := rfl
@[simp] theorem State.accept_decState (s : State) (w : Word) : (s.accept w).decState = s.decState := rfl
@[simp] theorem State.accept_lastOp (s : State) (w : Word) : (s.accept w).lastOp = opField w := rfl
@[simp] theorem State.accept_errCode (s : State) (w : Word) : (s.accept w).errCode = s.errCode := rfl
@[simp] theorem State.accept_errInfo (s : State) (w : Word) : (s.accept w).errInfo = s.errInfo := rfl
@[simp] theorem State.accept_symLen (s : State) (w : Word) : (s.accept w).symLen = s.symLen := rfl
@[simp] theorem State.accept_bitLen (s : State) (w : Word) : (s.accept w).bitLen = s.bitLen := rfl
@[simp] theorem State.accept_root (s : State) (w : Word) : (s.accept w).root = s.root := rfl
@[simp] theorem State.accept_nodeCount (s : State) (w : Word) : (s.accept w).nodeCount = s.nodeCount := rfl
@[simp] theorem State.accept_ft (s : State) (w : Word) : (s.accept w).ft = s.ft := rfl
@[simp] theorem State.accept_na (s : State) (w : Word) : (s.accept w).na = s.na := rfl
@[simp] theorem State.accept_ct (s : State) (w : Word) : (s.accept w).ct = s.ct := rfl
@[simp] theorem State.accept_sym (s : State) (w : Word) : (s.accept w).sym = s.sym := rfl
@[simp] theorem State.accept_bs (s : State) (w : Word) : (s.accept w).bs = s.bs := rfl
@[simp] theorem State.accept_hidden (s : State) (w : Word) : (s.accept w).hidden = .accepted w := rfl
@[simp] theorem State.accept_inputs (s : State) (w : Word) : (s.accept w).inputs = s.inputs := rfl
@[simp] theorem State.accept_replies (s : State) (w : Word) : (s.accept w).replies = s.replies := rfl
@[simp] theorem State.accept_epoch (s : State) (w : Word) : (s.accept w).epoch = s.epoch := rfl
@[simp] theorem State.accept_draws (s : State) (w : Word) : (s.accept w).draws = s.draws := rfl

/-! ## complete -/

@[simp] theorem State.complete_busy (s : State) : (s.complete).busy = false := rfl
@[simp] theorem State.complete_done (s : State) : (s.complete).done = true := rfl
@[simp] theorem State.complete_err (s : State) : (s.complete).err = s.err := rfl
@[simp] theorem State.complete_decState (s : State) : (s.complete).decState = s.decState := rfl
@[simp] theorem State.complete_lastOp (s : State) : (s.complete).lastOp = s.lastOp := rfl
@[simp] theorem State.complete_errCode (s : State) : (s.complete).errCode = s.errCode := rfl
@[simp] theorem State.complete_errInfo (s : State) : (s.complete).errInfo = s.errInfo := rfl
@[simp] theorem State.complete_symLen (s : State) : (s.complete).symLen = s.symLen := rfl
@[simp] theorem State.complete_bitLen (s : State) : (s.complete).bitLen = s.bitLen := rfl
@[simp] theorem State.complete_root (s : State) : (s.complete).root = s.root := rfl
@[simp] theorem State.complete_nodeCount (s : State) : (s.complete).nodeCount = s.nodeCount := rfl
@[simp] theorem State.complete_ft (s : State) : (s.complete).ft = s.ft := rfl
@[simp] theorem State.complete_na (s : State) : (s.complete).na = s.na := rfl
@[simp] theorem State.complete_ct (s : State) : (s.complete).ct = s.ct := rfl
@[simp] theorem State.complete_sym (s : State) : (s.complete).sym = s.sym := rfl
@[simp] theorem State.complete_bs (s : State) : (s.complete).bs = s.bs := rfl
@[simp] theorem State.complete_hidden (s : State) : (s.complete).hidden = .idle := rfl
@[simp] theorem State.complete_inputs (s : State) : (s.complete).inputs = s.inputs := rfl
@[simp] theorem State.complete_replies (s : State) : (s.complete).replies = s.replies := rfl
@[simp] theorem State.complete_epoch (s : State) : (s.complete).epoch = s.epoch := rfl
@[simp] theorem State.complete_draws (s : State) : (s.complete).draws = s.draws := rfl

/-! ## raise -/

@[simp] theorem State.raise_busy (s : State) (e : Err) (info : Word) : (s.raise e info).busy = false := rfl
@[simp] theorem State.raise_done (s : State) (e : Err) (info : Word) : (s.raise e info).done = true := rfl
@[simp] theorem State.raise_err (s : State) (e : Err) (info : Word) : (s.raise e info).err = true := rfl
@[simp] theorem State.raise_decState (s : State) (e : Err) (info : Word) : (s.raise e info).decState = s.decState := rfl
@[simp] theorem State.raise_lastOp (s : State) (e : Err) (info : Word) : (s.raise e info).lastOp = s.lastOp := rfl
@[simp] theorem State.raise_errCode (s : State) (e : Err) (info : Word) : (s.raise e info).errCode = e.code := rfl
@[simp] theorem State.raise_errInfo (s : State) (e : Err) (info : Word) : (s.raise e info).errInfo = info := rfl
@[simp] theorem State.raise_symLen (s : State) (e : Err) (info : Word) : (s.raise e info).symLen = s.symLen := rfl
@[simp] theorem State.raise_bitLen (s : State) (e : Err) (info : Word) : (s.raise e info).bitLen = s.bitLen := rfl
@[simp] theorem State.raise_root (s : State) (e : Err) (info : Word) : (s.raise e info).root = s.root := rfl
@[simp] theorem State.raise_nodeCount (s : State) (e : Err) (info : Word) : (s.raise e info).nodeCount = s.nodeCount := rfl
@[simp] theorem State.raise_ft (s : State) (e : Err) (info : Word) : (s.raise e info).ft = s.ft := rfl
@[simp] theorem State.raise_na (s : State) (e : Err) (info : Word) : (s.raise e info).na = s.na := rfl
@[simp] theorem State.raise_ct (s : State) (e : Err) (info : Word) : (s.raise e info).ct = s.ct := rfl
@[simp] theorem State.raise_sym (s : State) (e : Err) (info : Word) : (s.raise e info).sym = s.sym := rfl
@[simp] theorem State.raise_bs (s : State) (e : Err) (info : Word) : (s.raise e info).bs = s.bs := rfl
@[simp] theorem State.raise_hidden (s : State) (e : Err) (info : Word) : (s.raise e info).hidden = .idle := rfl
@[simp] theorem State.raise_inputs (s : State) (e : Err) (info : Word) : (s.raise e info).inputs = s.inputs := rfl
@[simp] theorem State.raise_replies (s : State) (e : Err) (info : Word) : (s.raise e info).replies = s.replies := rfl
@[simp] theorem State.raise_epoch (s : State) (e : Err) (info : Word) : (s.raise e info).epoch = s.epoch := rfl
@[simp] theorem State.raise_draws (s : State) (e : Err) (info : Word) : (s.raise e info).draws = s.draws := rfl

/-! ## clearErr -/

@[simp] theorem State.clearErr_busy (s : State) : (s.clearErr).busy = s.busy := rfl
@[simp] theorem State.clearErr_done (s : State) : (s.clearErr).done = s.done := rfl
@[simp] theorem State.clearErr_err (s : State) : (s.clearErr).err = false := rfl
@[simp] theorem State.clearErr_decState (s : State) : (s.clearErr).decState = s.decState := rfl
@[simp] theorem State.clearErr_lastOp (s : State) : (s.clearErr).lastOp = s.lastOp := rfl
@[simp] theorem State.clearErr_errCode (s : State) : (s.clearErr).errCode = 0 := rfl
@[simp] theorem State.clearErr_errInfo (s : State) : (s.clearErr).errInfo = 0 := rfl
@[simp] theorem State.clearErr_symLen (s : State) : (s.clearErr).symLen = s.symLen := rfl
@[simp] theorem State.clearErr_bitLen (s : State) : (s.clearErr).bitLen = s.bitLen := rfl
@[simp] theorem State.clearErr_root (s : State) : (s.clearErr).root = s.root := rfl
@[simp] theorem State.clearErr_nodeCount (s : State) : (s.clearErr).nodeCount = s.nodeCount := rfl
@[simp] theorem State.clearErr_ft (s : State) : (s.clearErr).ft = s.ft := rfl
@[simp] theorem State.clearErr_na (s : State) : (s.clearErr).na = s.na := rfl
@[simp] theorem State.clearErr_ct (s : State) : (s.clearErr).ct = s.ct := rfl
@[simp] theorem State.clearErr_sym (s : State) : (s.clearErr).sym = s.sym := rfl
@[simp] theorem State.clearErr_bs (s : State) : (s.clearErr).bs = s.bs := rfl
@[simp] theorem State.clearErr_hidden (s : State) : (s.clearErr).hidden = s.hidden := rfl
@[simp] theorem State.clearErr_inputs (s : State) : (s.clearErr).inputs = s.inputs := rfl
@[simp] theorem State.clearErr_replies (s : State) : (s.clearErr).replies = s.replies := rfl
@[simp] theorem State.clearErr_epoch (s : State) : (s.clearErr).epoch = s.epoch := rfl
@[simp] theorem State.clearErr_draws (s : State) : (s.clearErr).draws = s.draws := rfl

/-! ## completed -/

@[simp] theorem State.completed_busy (s : State) (w : Word) : (s.completed w).busy = false := rfl
@[simp] theorem State.completed_done (s : State) (w : Word) : (s.completed w).done = true := rfl
@[simp] theorem State.completed_err (s : State) (w : Word) : (s.completed w).err = s.err := rfl
@[simp] theorem State.completed_decState (s : State) (w : Word) : (s.completed w).decState = s.decState := rfl
@[simp] theorem State.completed_lastOp (s : State) (w : Word) : (s.completed w).lastOp = opField w := rfl
@[simp] theorem State.completed_errCode (s : State) (w : Word) : (s.completed w).errCode = s.errCode := rfl
@[simp] theorem State.completed_errInfo (s : State) (w : Word) : (s.completed w).errInfo = s.errInfo := rfl
@[simp] theorem State.completed_symLen (s : State) (w : Word) : (s.completed w).symLen = s.symLen := rfl
@[simp] theorem State.completed_bitLen (s : State) (w : Word) : (s.completed w).bitLen = s.bitLen := rfl
@[simp] theorem State.completed_root (s : State) (w : Word) : (s.completed w).root = s.root := rfl
@[simp] theorem State.completed_nodeCount (s : State) (w : Word) : (s.completed w).nodeCount = s.nodeCount := rfl
@[simp] theorem State.completed_ft (s : State) (w : Word) : (s.completed w).ft = s.ft := rfl
@[simp] theorem State.completed_na (s : State) (w : Word) : (s.completed w).na = s.na := rfl
@[simp] theorem State.completed_ct (s : State) (w : Word) : (s.completed w).ct = s.ct := rfl
@[simp] theorem State.completed_sym (s : State) (w : Word) : (s.completed w).sym = s.sym := rfl
@[simp] theorem State.completed_bs (s : State) (w : Word) : (s.completed w).bs = s.bs := rfl
@[simp] theorem State.completed_hidden (s : State) (w : Word) : (s.completed w).hidden = .idle := rfl
@[simp] theorem State.completed_inputs (s : State) (w : Word) : (s.completed w).inputs = s.inputs := rfl
@[simp] theorem State.completed_replies (s : State) (w : Word) : (s.completed w).replies = s.replies := rfl
@[simp] theorem State.completed_epoch (s : State) (w : Word) : (s.completed w).epoch = s.epoch := rfl
@[simp] theorem State.completed_draws (s : State) (w : Word) : (s.completed w).draws = s.draws := rfl

/-! ## raised -/

@[simp] theorem State.raised_busy (s : State) (w : Word) (e : Err) (info : Word) : (s.raised w e info).busy = false := rfl
@[simp] theorem State.raised_done (s : State) (w : Word) (e : Err) (info : Word) : (s.raised w e info).done = true := rfl
@[simp] theorem State.raised_err (s : State) (w : Word) (e : Err) (info : Word) : (s.raised w e info).err = true := rfl
@[simp] theorem State.raised_decState (s : State) (w : Word) (e : Err) (info : Word) : (s.raised w e info).decState = s.decState := rfl
@[simp] theorem State.raised_lastOp (s : State) (w : Word) (e : Err) (info : Word) : (s.raised w e info).lastOp = opField w := rfl
@[simp] theorem State.raised_errCode (s : State) (w : Word) (e : Err) (info : Word) : (s.raised w e info).errCode = e.code := rfl
@[simp] theorem State.raised_errInfo (s : State) (w : Word) (e : Err) (info : Word) : (s.raised w e info).errInfo = info := rfl
@[simp] theorem State.raised_symLen (s : State) (w : Word) (e : Err) (info : Word) : (s.raised w e info).symLen = s.symLen := rfl
@[simp] theorem State.raised_bitLen (s : State) (w : Word) (e : Err) (info : Word) : (s.raised w e info).bitLen = s.bitLen := rfl
@[simp] theorem State.raised_root (s : State) (w : Word) (e : Err) (info : Word) : (s.raised w e info).root = s.root := rfl
@[simp] theorem State.raised_nodeCount (s : State) (w : Word) (e : Err) (info : Word) : (s.raised w e info).nodeCount = s.nodeCount := rfl
@[simp] theorem State.raised_ft (s : State) (w : Word) (e : Err) (info : Word) : (s.raised w e info).ft = s.ft := rfl
@[simp] theorem State.raised_na (s : State) (w : Word) (e : Err) (info : Word) : (s.raised w e info).na = s.na := rfl
@[simp] theorem State.raised_ct (s : State) (w : Word) (e : Err) (info : Word) : (s.raised w e info).ct = s.ct := rfl
@[simp] theorem State.raised_sym (s : State) (w : Word) (e : Err) (info : Word) : (s.raised w e info).sym = s.sym := rfl
@[simp] theorem State.raised_bs (s : State) (w : Word) (e : Err) (info : Word) : (s.raised w e info).bs = s.bs := rfl
@[simp] theorem State.raised_hidden (s : State) (w : Word) (e : Err) (info : Word) : (s.raised w e info).hidden = .idle := rfl
@[simp] theorem State.raised_inputs (s : State) (w : Word) (e : Err) (info : Word) : (s.raised w e info).inputs = s.inputs := rfl
@[simp] theorem State.raised_replies (s : State) (w : Word) (e : Err) (info : Word) : (s.raised w e info).replies = s.replies := rfl
@[simp] theorem State.raised_epoch (s : State) (w : Word) (e : Err) (info : Word) : (s.raised w e info).epoch = s.epoch := rfl
@[simp] theorem State.raised_draws (s : State) (w : Word) (e : Err) (info : Word) : (s.raised w e info).draws = s.draws := rfl

/-! ## hostRead -/

@[simp] theorem State.hostRead_busy (s : State) (sp : Space) (i : Nat) : (s.hostRead sp i).busy = s.busy := rfl
@[simp] theorem State.hostRead_done (s : State) (sp : Space) (i : Nat) : (s.hostRead sp i).done = s.done := rfl
@[simp] theorem State.hostRead_err (s : State) (sp : Space) (i : Nat) : (s.hostRead sp i).err = s.err := rfl
@[simp] theorem State.hostRead_decState (s : State) (sp : Space) (i : Nat) : (s.hostRead sp i).decState = s.decState := rfl
@[simp] theorem State.hostRead_lastOp (s : State) (sp : Space) (i : Nat) : (s.hostRead sp i).lastOp = s.lastOp := rfl
@[simp] theorem State.hostRead_errCode (s : State) (sp : Space) (i : Nat) : (s.hostRead sp i).errCode = s.errCode := rfl
@[simp] theorem State.hostRead_errInfo (s : State) (sp : Space) (i : Nat) : (s.hostRead sp i).errInfo = s.errInfo := rfl
@[simp] theorem State.hostRead_symLen (s : State) (sp : Space) (i : Nat) : (s.hostRead sp i).symLen = s.symLen := rfl
@[simp] theorem State.hostRead_bitLen (s : State) (sp : Space) (i : Nat) : (s.hostRead sp i).bitLen = s.bitLen := rfl
@[simp] theorem State.hostRead_root (s : State) (sp : Space) (i : Nat) : (s.hostRead sp i).root = s.root := rfl
@[simp] theorem State.hostRead_nodeCount (s : State) (sp : Space) (i : Nat) : (s.hostRead sp i).nodeCount = s.nodeCount := rfl
@[simp] theorem State.hostRead_ft (s : State) (sp : Space) (i : Nat) : (s.hostRead sp i).ft = s.ft := rfl
@[simp] theorem State.hostRead_na (s : State) (sp : Space) (i : Nat) : (s.hostRead sp i).na = s.na := rfl
@[simp] theorem State.hostRead_ct (s : State) (sp : Space) (i : Nat) : (s.hostRead sp i).ct = s.ct := rfl
@[simp] theorem State.hostRead_sym (s : State) (sp : Space) (i : Nat) : (s.hostRead sp i).sym = s.sym := rfl
@[simp] theorem State.hostRead_bs (s : State) (sp : Space) (i : Nat) : (s.hostRead sp i).bs = s.bs := rfl
@[simp] theorem State.hostRead_hidden (s : State) (sp : Space) (i : Nat) : (s.hostRead sp i).hidden = s.hidden := rfl
@[simp] theorem State.hostRead_inputs (s : State) (sp : Space) (i : Nat) : (s.hostRead sp i).inputs = s.inputs := rfl
@[simp] theorem State.hostRead_replies (s : State) (sp : Space) (i : Nat) : (s.hostRead sp i).replies = { sp := sp, idx := i, val := s.hostReadValue sp i } :: s.replies := rfl
@[simp] theorem State.hostRead_epoch (s : State) (sp : Space) (i : Nat) : (s.hostRead sp i).epoch = s.epoch := rfl
@[simp] theorem State.hostRead_draws (s : State) (sp : Space) (i : Nat) : (s.hostRead sp i).draws = s.draws + 1 := rfl

/-! ## applyReset -/

@[simp] theorem State.applyReset_busy (s : State) : (s.applyReset).busy = false := rfl
@[simp] theorem State.applyReset_done (s : State) : (s.applyReset).done = false := rfl
@[simp] theorem State.applyReset_err (s : State) : (s.applyReset).err = false := rfl
@[simp] theorem State.applyReset_decState (s : State) : (s.applyReset).decState = .atRoot := rfl
@[simp] theorem State.applyReset_lastOp (s : State) : (s.applyReset).lastOp = 0 := rfl
@[simp] theorem State.applyReset_errCode (s : State) : (s.applyReset).errCode = 0 := rfl
@[simp] theorem State.applyReset_errInfo (s : State) : (s.applyReset).errInfo = 0 := rfl
@[simp] theorem State.applyReset_symLen (s : State) : (s.applyReset).symLen = 0 := rfl
@[simp] theorem State.applyReset_bitLen (s : State) : (s.applyReset).bitLen = 0 := rfl
@[simp] theorem State.applyReset_root (s : State) : (s.applyReset).root = 0 := rfl
@[simp] theorem State.applyReset_nodeCount (s : State) : (s.applyReset).nodeCount = 0 := rfl
@[simp] theorem State.applyReset_ft (s : State) : (s.applyReset).ft = [] := rfl
@[simp] theorem State.applyReset_na (s : State) : (s.applyReset).na = [] := rfl
@[simp] theorem State.applyReset_ct (s : State) : (s.applyReset).ct = [] := rfl
@[simp] theorem State.applyReset_sym (s : State) : (s.applyReset).sym = [] := rfl
@[simp] theorem State.applyReset_bs (s : State) : (s.applyReset).bs = [] := rfl
@[simp] theorem State.applyReset_hidden (s : State) : (s.applyReset).hidden = .idle := rfl
@[simp] theorem State.applyReset_inputs (s : State) : (s.applyReset).inputs = s.inputs := rfl
@[simp] theorem State.applyReset_replies (s : State) : (s.applyReset).replies = s.replies := rfl
@[simp] theorem State.applyReset_epoch (s : State) : (s.applyReset).epoch = s.epoch + 1 := rfl
@[simp] theorem State.applyReset_draws (s : State) : (s.applyReset).draws = s.draws := rfl

end Sys2Proof.Machine
end

