-- ==== Sys2Proof/Laws/Memory.lean ====
section
/-!
SUPPORT. The laws of memories: read after write, the canonical form, and that every memory operation keeps it; and what the
element reads of State give after each update.
-/

namespace Sys2Proof.Machine

/-! ## Read after write -/

@[simp] theorem Memory.get_nil {w : Nat} (i : Nat) : Memory.get ([] : Memory w) i = none := rfl

theorem Memory.get_cons {w : Nat} (j : Nat) (x : BitVec w) (m : Memory w) (i : Nat) :
    Memory.get ((j, x) :: m) i = if i = j then some x else Memory.get m i := rfl

theorem Memory.get_set {w : Nat} (m : Memory w) (i : Nat) (v : BitVec w) (j : Nat) :
    Memory.get (Memory.set m i v) j = if j = i then some v else Memory.get m j := by
  induction m with
  | nil => simp [Memory.set, Memory.get]
  | cons c rest ih =>
    obtain ⟨a, x⟩ := c
    unfold Memory.set
    split
    · simp [Memory.get]
    · split
      · rename_i heq
        subst heq
        by_cases hj : j = i <;> simp [Memory.get, hj]
      · rename_i hne
        simp only [Memory.get, ih]
        by_cases hj : j = i
        · simp [hj, hne]
        · simp [hj]

@[simp] theorem Memory.get_set_same {w : Nat} (m : Memory w) (i : Nat) (v : BitVec w) :
    Memory.get (Memory.set m i v) i = some v := by simp [Memory.get_set]

theorem Memory.get_set_other {w : Nat} (m : Memory w) {i j : Nat} (v : BitVec w) (h : j ≠ i) :
    Memory.get (Memory.set m i v) j = Memory.get m j := by simp [Memory.get_set, h]

theorem Memory.get_append_map {w : Nat} (v : BitVec w) (l : List Nat) (i : Nat) :
    Memory.get (l.map fun k => (k, v)) i = if i ∈ l then some v else none := by
  induction l with
  | nil => rfl
  | cons k l ih =>
    simp only [List.map_cons, Memory.get, ih, List.mem_cons]
    by_cases h : i = k <;> simp [h]

theorem Memory.get_fill {w : Nat} (size : Nat) (v : BitVec w) (i : Nat) :
    Memory.get (Memory.fill size v) i = if i < size then some v else none := by
  simp [Memory.fill, Memory.get_append_map]

/-! ## The canonical form -/

theorem Memory.wf_nil {w : Nat} (size : Nat) : Memory.wf size ([] : Memory w) := by simp [Memory.wf]

theorem Memory.mem_set {w : Nat} (m : Memory w) (i : Nat) (v : BitVec w) (c : Nat × BitVec w)
    (h : c ∈ Memory.set m i v) : c = (i, v) ∨ c ∈ m := by
  induction m with
  | nil => simpa [Memory.set] using h
  | cons d rest ih =>
    obtain ⟨a, x⟩ := d
    unfold Memory.set at h
    split at h
    · simpa using h
    · split at h
      · rcases List.mem_cons.1 h with h | h
        · exact .inl h
        · exact .inr (List.mem_cons_of_mem _ h)
      · rcases List.mem_cons.1 h with h | h
        · exact .inr (h ▸ List.mem_cons_self)
        · rcases ih h with h | h
          · exact .inl h
          · exact .inr (List.mem_cons_of_mem _ h)

/-- A write in range keeps the canonical form. -/
theorem Memory.wf_set {w size : Nat} {m : Memory w} (h : Memory.wf size m) {i : Nat} (hi : i < size) (v : BitVec w) :
    Memory.wf size (Memory.set m i v) := by
  refine ⟨?_, fun c hc => ?_⟩
  · have hp := h.1
    clear h
    induction m with
    | nil => simp [Memory.set]
    | cons d rest ih =>
      obtain ⟨a, x⟩ := d
      rw [List.pairwise_cons] at hp
      unfold Memory.set
      split
      · rename_i hlt
        refine List.pairwise_cons.2 ⟨fun c hc => ?_, List.pairwise_cons.2 hp⟩
        rcases List.mem_cons.1 hc with rfl | hc
        · exact hlt
        · exact Nat.lt_trans hlt (hp.1 c hc)
      · split
        · rename_i heq
          subst heq
          exact List.pairwise_cons.2 ⟨hp.1, hp.2⟩
        · refine List.pairwise_cons.2 ⟨fun c hc => ?_, ih hp.2⟩
          rcases Memory.mem_set _ _ _ _ hc with rfl | hc
          · show a < i
            omega
          · exact hp.1 c hc
  · rcases Memory.mem_set _ _ _ _ hc with rfl | hc
    · exact hi
    · exact h.2 c hc

theorem Memory.wf_fill {w : Nat} (size : Nat) (v : BitVec w) : Memory.wf size (Memory.fill size v) := by
  refine ⟨?_, fun c hc => ?_⟩
  · rw [Memory.fill, List.pairwise_map]
    exact List.pairwise_lt_range
  · simp only [Memory.fill, List.mem_map, List.mem_range] at hc
    obtain ⟨i, hi, rfl⟩ := hc
    exact hi

theorem Memory.get_none_of_lt {w : Nat} {m : Memory w} {i : Nat} (h : ∀ c ∈ m, i < c.1) : Memory.get m i = none := by
  induction m with
  | nil => rfl
  | cons d rest ih =>
    have h1 : i < d.1 := h d List.mem_cons_self
    simp only [Memory.get]
    rw [if_neg (by omega)]
    exact ih fun c hc => h c (List.mem_cons_of_mem _ hc)

/-- Equal memories are equal data: two canonical memories with the same written elements are the same list. -/
theorem Memory.ext_of_get {w size : Nat} {m m' : Memory w} (h : Memory.wf size m) (h' : Memory.wf size m')
    (hg : ∀ i, Memory.get m i = Memory.get m' i) : m = m' := by
  have hp := h.1
  have hp' := h'.1
  clear h h'
  induction m generalizing m' with
  | nil =>
    cases m' with
    | nil => rfl
    | cons d rest => simpa [Memory.get] using hg d.1
  | cons d rest ih =>
    cases m' with
    | nil => simpa [Memory.get] using hg d.1
    | cons d' rest' =>
      obtain ⟨a, x⟩ := d
      obtain ⟨b, y⟩ := d'
      rw [List.pairwise_cons] at hp hp'
      have hr : Memory.get rest a = none := Memory.get_none_of_lt hp.1
      have hr' : Memory.get rest' b = none := Memory.get_none_of_lt hp'.1
      have hab : a = b := by
        rcases Nat.lt_trichotomy a b with hlt | heq | hgt
        · have hn : Memory.get ((b, y) :: rest') a = none :=
            Memory.get_none_of_lt fun c hc => by
              rcases List.mem_cons.1 hc with rfl | hc
              · exact hlt
              · exact Nat.lt_trans hlt (hp'.1 c hc)
          have := hg a
          rw [hn] at this
          simp [Memory.get] at this
        · exact heq
        · have hn : Memory.get ((a, x) :: rest) b = none :=
            Memory.get_none_of_lt fun c hc => by
              rcases List.mem_cons.1 hc with rfl | hc
              · exact hgt
              · exact Nat.lt_trans hgt (hp.1 c hc)
          have := hg b
          rw [hn] at this
          simp [Memory.get] at this
      subst hab
      have hxy : x = y := by simpa [Memory.get] using hg a
      subst hxy
      have : rest = rest' := ih (fun i => by
        by_cases hi : i = a
        · rw [hi, hr, hr']
        · simpa [Memory.get, hi] using hg i) hp.2 hp'.2
      rw [this]

/-! ## Element reads after an update -/

theorem State.naAt_setNa (s : State) (i : Nat) (v : NodeElem) (j : Nat) :
    (s.setNa i v).naAt j = if j = i then v else s.naAt j := by
  simp only [State.naAt, State.setNa_na, State.setNa_epoch, Memory.get_set]
  split <;> rfl

theorem State.ctAt_setCt (s : State) (i : Nat) (v : CodeElem) (j : Nat) :
    (s.setCt i v).ctAt j = if j = i then v else s.ctAt j := by
  simp only [State.ctAt, State.setCt_ct, State.setCt_epoch, Memory.get_set]
  split <;> rfl

theorem State.ftAt_setFt (s : State) (i : Nat) (v : Weight) (j : Nat) :
    (s.setFt i v).ftAt j = if j = i then v else s.ftAt j := by
  simp only [State.ftAt, State.setFt_ft, State.setFt_epoch, Memory.get_set]
  split <;> rfl

theorem State.symAt_setSym (s : State) (i : Nat) (v : Sym) (j : Nat) :
    (s.setSym i v).symAt j = if j = i then v else s.symAt j := by
  simp only [State.symAt, State.setSym_sym, State.setSym_epoch, Memory.get_set]
  split <;> rfl

theorem State.bsAt_setBs (s : State) (i : Nat) (v : Byte) (j : Nat) :
    (s.setBs i v).bsAt j = if j = i then v else s.bsAt j := by
  simp only [State.bsAt, State.setBs_bs, State.setBs_epoch, Memory.get_set]
  split <;> rfl

/-- An element read depends on its memory and the reset epoch alone. -/
theorem State.naAt_congr {s t : State} (h : s.na = t.na) (he : s.epoch = t.epoch) (k : Nat) : s.naAt k = t.naAt k := by
  simp [State.naAt, h, he]

theorem State.node_congr {s t : State} (h : s.na = t.na) (he : s.epoch = t.epoch) (k : NodeIdx) : s.node k = t.node k :=
  State.naAt_congr h he k.toNat

theorem State.ctAt_congr {s t : State} (h : s.ct = t.ct) (he : s.epoch = t.epoch) (k : Nat) : s.ctAt k = t.ctAt k := by
  simp [State.ctAt, h, he]

theorem State.codeElem_congr {s t : State} (h : s.ct = t.ct) (he : s.epoch = t.epoch) (v : Sym) :
    s.codeElem v = t.codeElem v :=
  State.ctAt_congr h he v.toNat

theorem State.ftAt_congr {s t : State} (h : s.ft = t.ft) (he : s.epoch = t.epoch) (k : Nat) : s.ftAt k = t.ftAt k := by
  simp [State.ftAt, h, he]

theorem State.symAt_congr {s t : State} (h : s.sym = t.sym) (he : s.epoch = t.epoch) (k : Nat) : s.symAt k = t.symAt k := by
  simp [State.symAt, h, he]

theorem State.bsAt_congr {s t : State} (h : s.bs = t.bs) (he : s.epoch = t.epoch) (k : Nat) : s.bsAt k = t.bsAt k := by
  simp [State.bsAt, h, he]

theorem State.getBit_congr {s t : State} (h : s.bs = t.bs) (he : s.epoch = t.epoch) (j : Nat) : s.getBit j = t.getBit j := by
  simp [State.getBit, State.bsAt_congr h he]

/-- After phase 0 of BUILD every entry of NA is FREE. -/
theorem naAt_buildClear (s : State) {k : Nat} (hk : k < Config.nodeCap) : (buildClear s).naAt k = 0 := by
  simp only [State.naAt, buildClear, Memory.get_fill, if_pos hk]
  rfl

/-- After phase 0 of GEN no symbol has an entry. -/
theorem ctAt_genClear (s : State) {v : Nat} (hv : v < Config.nsym) : (genClear s).ctAt v = 0 := by
  simp only [State.ctAt, genClear, Memory.get_fill, if_pos hv]
  rfl

end Sys2Proof.Machine
end

