-- ==== Sys2Proof/Laws/Elements.lean ====
section
/-!
SUPPORT. The laws of the data formats: the fields of NA elements, of CT elements, and the bits of the stream.
-/

namespace Sys2Proof.Machine

/-! ## NA elements: every field reads back what was put in -/

theorem kindBits_nodeElem (kd : BitVec 2) (lv rv : BitVec 1) (sy : Sym) (l r : NodeIdx) (w : Weight) :
    (nodeElem kd lv rv sy l r w).extractLsb' 0 2 = kd := by
  apply BitVec.eq_of_getLsbD_eq
  intro i hi
  have h2 : 0 + i < 2 := by omega
  simp only [nodeElem, BitVec.getLsbD_extractLsb', BitVec.getLsbD_append, hi, h2, ↓reduceIte]
  simp

theorem lvOf_nodeElem (kd : BitVec 2) (lv rv : BitVec 1) (sy : Sym) (l r : NodeIdx) (w : Weight) :
    lvOf (nodeElem kd lv rv sy l r w) = lv.getLsbD 0 := by
  simp only [lvOf, nodeElem, BitVec.getLsbD_append]
  simp

theorem rvOf_nodeElem (kd : BitVec 2) (lv rv : BitVec 1) (sy : Sym) (l r : NodeIdx) (w : Weight) :
    rvOf (nodeElem kd lv rv sy l r w) = rv.getLsbD 0 := by
  simp only [rvOf, nodeElem, BitVec.getLsbD_append]
  simp

theorem symOf_nodeElem (kd : BitVec 2) (lv rv : BitVec 1) (sy : Sym) (l r : NodeIdx) (w : Weight) :
    symOf (nodeElem kd lv rv sy l r w) = sy := by
  apply BitVec.eq_of_getLsbD_eq
  intro i hi
  simp only [symOf, nodeElem, BitVec.getLsbD_extractLsb', BitVec.getLsbD_append, hi]
  have h1 : ¬(4 + i < 2) := by omega
  have h2 : ¬(4 + i - 2 < 1) := by omega
  have h3 : ¬(4 + i - 2 - 1 < 1) := by omega
  have h4 : 4 + i - 2 - 1 - 1 < 8 := by omega
  have h5 : 4 + i - 2 - 1 - 1 = i := by omega
  simp only [h1, h2, h3, h4, ↓reduceIte]
  simp [h5]

theorem leftOf_nodeElem (kd : BitVec 2) (lv rv : BitVec 1) (sy : Sym) (l r : NodeIdx) (w : Weight) :
    leftOf (nodeElem kd lv rv sy l r w) = l := by
  apply BitVec.eq_of_getLsbD_eq
  intro i hi
  simp only [leftOf, nodeElem, BitVec.getLsbD_extractLsb', BitVec.getLsbD_append, hi]
  have h1 : ¬(12 + i < 2) := by omega
  have h2 : ¬(12 + i - 2 < 1) := by omega
  have h3 : ¬(12 + i - 2 - 1 < 1) := by omega
  have h4 : ¬(12 + i - 2 - 1 - 1 < 8) := by omega
  have h5 : 12 + i - 2 - 1 - 1 - 8 < 9 := by omega
  have h6 : 12 + i - 2 - 1 - 1 - 8 = i := by omega
  simp only [h1, h2, h3, h4, h5, ↓reduceIte]
  simp [h6]

theorem rightOf_nodeElem (kd : BitVec 2) (lv rv : BitVec 1) (sy : Sym) (l r : NodeIdx) (w : Weight) :
    rightOf (nodeElem kd lv rv sy l r w) = r := by
  apply BitVec.eq_of_getLsbD_eq
  intro i hi
  simp only [rightOf, nodeElem, BitVec.getLsbD_extractLsb', BitVec.getLsbD_append, hi]
  have h1 : ¬(21 + i < 2) := by omega
  have h2 : ¬(21 + i - 2 < 1) := by omega
  have h3 : ¬(21 + i - 2 - 1 < 1) := by omega
  have h4 : ¬(21 + i - 2 - 1 - 1 < 8) := by omega
  have h5 : ¬(21 + i - 2 - 1 - 1 - 8 < 9) := by omega
  have h6 : 21 + i - 2 - 1 - 1 - 8 - 9 < 9 := by omega
  have h7 : 21 + i - 2 - 1 - 1 - 8 - 9 = i := by omega
  simp only [h1, h2, h3, h4, h5, h6, ↓reduceIte]
  simp [h7]

theorem weightOf_nodeElem (kd : BitVec 2) (lv rv : BitVec 1) (sy : Sym) (l r : NodeIdx) (w : Weight) :
    weightOf (nodeElem kd lv rv sy l r w) = w := by
  apply BitVec.eq_of_getLsbD_eq
  intro i hi
  simp only [weightOf, nodeElem, BitVec.getLsbD_extractLsb', BitVec.getLsbD_append, hi]
  have h1 : ¬(30 + i < 2) := by omega
  have h2 : ¬(30 + i - 2 < 1) := by omega
  have h3 : ¬(30 + i - 2 - 1 < 1) := by omega
  have h4 : ¬(30 + i - 2 - 1 - 1 < 8) := by omega
  have h5 : ¬(30 + i - 2 - 1 - 1 - 8 < 9) := by omega
  have h6 : ¬(30 + i - 2 - 1 - 1 - 8 - 9 < 9) := by omega
  have h7 : 30 + i - 2 - 1 - 1 - 8 - 9 - 9 = i := by omega
  simp only [h1, h2, h3, h4, h5, h6, ↓reduceIte]
  simp [h7]

@[simp] theorem kindOf_leafNode (sy : Sym) (w : Weight) : kindOf (leafNode sy w) = .leaf := by
  simp [kindOf, leafNode, kindBits_nodeElem]

@[simp] theorem symOf_leafNode (sy : Sym) (w : Weight) : symOf (leafNode sy w) = sy := by
  simp [leafNode, symOf_nodeElem]

@[simp] theorem weightOf_leafNode (sy : Sym) (w : Weight) : weightOf (leafNode sy w) = w := by
  simp [leafNode, weightOf_nodeElem]

@[simp] theorem kindOf_intNode (l r : NodeIdx) (w : Weight) : kindOf (intNode l r w) = .internal := by
  simp [kindOf, intNode, kindBits_nodeElem]

@[simp] theorem lvOf_intNode (l r : NodeIdx) (w : Weight) : lvOf (intNode l r w) = true := by
  simp [intNode, lvOf_nodeElem]

@[simp] theorem rvOf_intNode (l r : NodeIdx) (w : Weight) : rvOf (intNode l r w) = true := by
  simp [intNode, rvOf_nodeElem]

@[simp] theorem leftOf_intNode (l r : NodeIdx) (w : Weight) : leftOf (intNode l r w) = l := by
  simp [intNode, leftOf_nodeElem]

@[simp] theorem rightOf_intNode (l r : NodeIdx) (w : Weight) : rightOf (intNode l r w) = r := by
  simp [intNode, rightOf_nodeElem]

@[simp] theorem weightOf_intNode (l r : NodeIdx) (w : Weight) : weightOf (intNode l r w) = w := by
  simp [intNode, weightOf_nodeElem]

@[simp] theorem kindOf_wrapperNode (w : Weight) : kindOf (wrapperNode w) = .internal := by
  simp [kindOf, wrapperNode, kindBits_nodeElem]

@[simp] theorem lvOf_wrapperNode (w : Weight) : lvOf (wrapperNode w) = true := by
  simp [wrapperNode, lvOf_nodeElem]

@[simp] theorem rvOf_wrapperNode (w : Weight) : rvOf (wrapperNode w) = false := by
  simp [wrapperNode, rvOf_nodeElem]

@[simp] theorem leftOf_wrapperNode (w : Weight) : leftOf (wrapperNode w) = 0 := by
  simp [wrapperNode, leftOf_nodeElem]

@[simp] theorem weightOf_wrapperNode (w : Weight) : weightOf (wrapperNode w) = w := by
  simp [wrapperNode, weightOf_nodeElem]

@[simp] theorem kindOf_freeNode : kindOf freeNode = .free := by decide

/-! ## CT elements: the entry of a path reads back as the path -/

theorem bitsNat_lt (p : BitString) : bitsNat p < 2 ^ p.length := by
  induction p with
  | nil => simp [bitsNat]
  | cons b p ih =>
    simp only [bitsNat, List.length_cons, Nat.pow_succ]
    cases b <;> simp <;> omega

theorem testBit_bitsNat (p : BitString) (k : Nat) : (bitsNat p).testBit k = p.getD k false := by
  induction p generalizing k with
  | nil => simp [bitsNat]
  | cons b p ih =>
    cases k with
    | zero => cases b <;> simp [bitsNat, Nat.testBit_zero]
    | succ k =>
      rw [Nat.testBit_succ]
      have : (bitsNat (b :: p)) / 2 = bitsNat p := by
        cases b
        · simp [bitsNat]
        · simp [bitsNat]
          omega
      rw [this, ih]
      simp

theorem lenOf_entry {p : BitString} (h : p.length ≤ Config.codeLenMax) : lenOf (entry p) = p.length := by
  have : (entry p).extractLsb' 0 8 = BitVec.ofNat 8 p.length := by
    apply BitVec.eq_of_getLsbD_eq
    intro i hi
    simp only [entry, BitVec.getLsbD_extractLsb', BitVec.getLsbD_append, hi]
    simp [hi]
  simp only [lenOf, this, BitVec.toNat_ofNat]
  have : p.length ≤ 255 := h
  omega

theorem codeBit_entry {p : BitString} (h : p.length ≤ Config.codeLenMax) (k : Nat) :
    codeBit (entry p) k = p.getD k false := by
  have h1 : ¬(8 + k < 8) := by omega
  have h2 : 8 + k - 8 = k := by omega
  simp only [codeBit, entry, BitVec.getLsbD_append, h1, h2, ↓reduceIte]
  rw [BitVec.getLsbD_ofNat, testBit_bitsNat]
  by_cases hk : k < 255
  · simp [hk]
  · have : p.length ≤ k := by
      have : p.length ≤ 255 := h
      omega
    simp [hk, List.getElem?_eq_none this]

@[simp] theorem length_codeOf (e : CodeElem) : (codeOf e).length = lenOf e := by simp [codeOf]

/-- The code of `ENTRY(p)` is `p` (41_code_table_generator.md R141, 10_state.md R34). -/
theorem codeOf_entry {p : BitString} (h : p.length ≤ Config.codeLenMax) : codeOf (entry p) = p := by
  apply List.ext_getElem
  · simp [lenOf_entry h]
  · intro i h1 h2
    simp only [codeOf, List.getElem_map, List.getElem_range, codeBit_entry h]
    simp [List.getD_eq_getElem?_getD, List.getElem?_eq_getElem h2]

@[simp] theorem lenOf_noEntry : lenOf noEntry = 0 := by decide +kernel

theorem lenOf_le (e : CodeElem) : lenOf e ≤ Config.codeLenMax := by
  have h : (e.extractLsb' 0 8).toNat < 2 ^ 8 := (e.extractLsb' 0 8).isLt
  show (e.extractLsb' 0 8).toNat ≤ 255
  omega

/-! ## Stream bits -/

theorem getLsbD_setByteBit (t : Byte) {k : Nat} (b : Bool) {i : Nat} (hi : i < 8) :
    (setByteBit t k b).getLsbD i = if i = k then b else t.getLsbD i := by
  unfold setByteBit
  by_cases hk : i = k
  · subst hk
    cases b <;> simp [hi]
  · rcases Nat.lt_or_gt_of_ne hk with hlt | hgt
    · cases b <;> simp [hi, hk, hlt]
    · have h0 : i - k ≠ 0 := by omega
      cases b <;> simp [hi, hk, h0]

/-- The bit just put reads back; a bit put at a byte's start clears the rest of the byte; every other bit reads as before
(20_memory.md R77). -/
theorem State.getBit_putBit (s : State) (j : Nat) (b : Bool) (i : Nat) :
    (s.putBit j b).getBit i =
      if i = j then b else if i / 8 = j / 8 ∧ j % 8 = 0 then false else s.getBit i := by
  unfold State.putBit
  by_cases h0 : j % 8 = 0
  · simp only [h0, ↓reduceIte, State.getBit, State.bsAt_setBs]
    by_cases hq : i / 8 = j / 8
    · simp only [hq, ↓reduceIte, and_self]
      by_cases hij : i = j
      · subst hij
        cases b <;> simp [h0]
      · have hm : i % 8 ≠ 0 := by omega
        have hm' : i % 8 < 8 := Nat.mod_lt _ (by omega)
        rw [if_neg hij]
        cases b
        · simp
        · have : ∀ k < 7, (0x80#8).getLsbD k = false := by decide
          exact this _ (by omega)
    · have hij : i ≠ j := by
        rintro rfl
        exact hq rfl
      simp [hq, hij]
  · simp only [h0, ↓reduceIte, State.getBit, State.bsAt_setBs, and_false]
    have hm' : i % 8 < 8 := Nat.mod_lt _ (by omega)
    have hm : j % 8 < 8 := Nat.mod_lt _ (by omega)
    by_cases hq : i / 8 = j / 8
    · simp only [hq, ↓reduceIte]
      rw [getLsbD_setByteBit _ _ (by omega)]
      by_cases hij : i = j
      · subst hij
        simp
      · have : 7 - i % 8 ≠ 7 - j % 8 := by omega
        simp [hij, this]
    · have hij : i ≠ j := by
        rintro rfl
        exact hq rfl
      simp [hq, hij]

theorem State.bsAt_putBit (s : State) (j : Nat) (b : Bool) {q : Nat} (h : q ≠ j / 8) :
    (s.putBit j b).bsAt q = s.bsAt q := by
  unfold State.putBit
  split <;> simp [State.bsAt_setBs, h]

/-- `putBit` writes BS alone. -/
theorem State.putBit_eq (s : State) (j : Nat) (b : Bool) : s.putBit j b = { s with bs := (s.putBit j b).bs } := by
  unfold State.putBit
  split <;> rfl

theorem State.bsWf_putBit {s : State} (h : Memory.wf Config.bsCap s.bs) {j : Nat} (hj : j < 8 * Config.bsCap) (b : Bool) :
    Memory.wf Config.bsCap (s.putBit j b).bs := by
  have : j / 8 < Config.bsCap := by
    simp only [Config.bsCap] at *
    omega
  unfold State.putBit
  split
  · exact Memory.wf_set h this _
  · exact Memory.wf_set h this _

end Sys2Proof.Machine
end

