-- ==== Sys2Proof/Laws/Commands.lean ====
section
/-!
SUPPORT. What issuing a command does, once and for all: ignored, or accepted, run and completed; and the step function's cases.
-/

namespace Sys2Proof.Machine

theorem State.ignores_of_ready {s : State} (h : s.ready) (w : Word) : s.ignores w = false := by
  simp [State.ignores, h.1, h.2]

theorem State.ignores_of_busy {s : State} (h : s.busy = true) (w : Word) : s.ignores w = true := by
  simp [State.ignores, h]

/-- An issue is ignored exactly when the block is busy, or an error is latched and the word is not CLRERR (30_encoding.md R93). -/
theorem State.ignores_iff (s : State) (w : Word) :
    s.ignores w = true ↔ s.busy = true ∨ (s.err = true ∧ w ≠ clrerrWord) := by
  simp [State.ignores]

theorem State.issue_ignored {s : State} {w : Word} (h : s.ignores w = true) (body : State → Run State) :
    s.issue w body = s := by
  simp [State.issue, h]

theorem State.issue_accepted {s : State} {w : Word} (h : s.ignores w = false) (body : State → Run State) :
    s.issue w body = (body (s.accept w)).finish := by
  simp [State.issue, h]

@[simp] theorem Run.finish_ok (s : State) : Run.finish (.ok s) = s.complete := rfl
@[simp] theorem Run.finish_error (s : State) : Run.finish (.error s) = s := rfl
@[simp] theorem Run.goOn_ok {α : Type} (a : α) (f : α → State) : Run.goOn (.ok a) f = f a := rfl
@[simp] theorem Run.goOn_error {α : Type} (t : State) (f : α → State) : Run.goOn (.error t) f = t := rfl

@[simp] theorem bind_ok {α β : Type} (a : α) (f : α → Run β) : Except.bind (.ok a : Run α) f = f a := rfl
@[simp] theorem bind_error {α β : Type} (t : State) (f : α → Run β) : Except.bind (.error t : Run α) f = .error t := rfl
@[simp] theorem map_ok {α β : Type} (a : α) (f : α → β) : Except.map f (.ok a : Run α) = .ok (f a) := rfl
@[simp] theorem map_error {α β : Type} (t : State) (f : α → β) : Except.map f (.error t : Run α) = .error t := rfl

/-- What a bind that goes on went through. -/
theorem bind_eq_ok {α β : Type} {r : Run α} {f : α → Run β} {b : β} :
    Except.bind r f = .ok b ↔ ∃ a, r = .ok a ∧ f a = .ok b := by
  cases r <;> simp

/-- What a bind that has ended went through. -/
theorem bind_eq_error {α β : Type} {r : Run α} {f : α → Run β} {t : State} :
    Except.bind r f = .error t ↔ r = .error t ∨ ∃ a, r = .ok a ∧ f a = .error t := by
  cases r <;> simp

/-- The pseudocode of a command. -/
def runOf (i : Instr) : State → Run State :=
  match i with
  | .nop => nopRun
  | .build => buildRun
  | .gen => genRun
  | .encode => encodeRun
  | .decode => decodeRun
  | .clrerr => clrerrRun

/-- Every command is its word issued with its pseudocode. -/
theorem exec_eq_issue (i : Instr) (s : State) : exec i s = .next (s.issue (encode i) (runOf i)) := by
  cases i <;> rfl

theorem exec_ignored {i : Instr} {s : State} (h : s.ignores (encode i) = true) : exec i s = .next s := by
  rw [exec_eq_issue, State.issue_ignored h]

theorem exec_accepted {i : Instr} {s : State} (h : s.ignores (encode i) = false) :
    exec i s = .next ((runOf i (s.accept (encode i))).finish) := by
  rw [exec_eq_issue, State.issue_accepted h]

theorem exec_of_ready {s : State} (h : s.ready) (i : Instr) :
    exec i s = .next ((runOf i (s.accept (encode i))).finish) :=
  exec_accepted (State.ignores_of_ready h _)

/-- What a step that takes an event does. -/
theorem step_cons {s : State} {e : Event} {rest : List Event} (h : s.inputs = e :: rest) :
    step s = runEvent e { s with inputs := rest } := by
  simp [step, runNext, h]

/-- With no event left, a running command goes on. -/
theorem step_nil {s : State} (h : s.inputs = []) : step s = .next s.tick := by
  simp [step, runNext, h]

end Sys2Proof.Machine
end

