-- ==== Sys2Proof/Laws/Decoder.lean ====
section
/-!
SUPPORT. What DECODE's loop does along a path of the tree (43_decoder.md R181, R184).
-/

namespace Sys2Proof.Machine

/-- DECODE's loop is its loop over the first bits and then over the rest. -/
theorem decodeLoop_add (a b j : Nat) (c : Cursor) :
    decodeLoop (a + b) j c = (decodeLoop a j c).bind (decodeLoop b (j + a)) := by
  induction a generalizing j c with
  | zero => simp [decodeLoop]
  | succ a ih =>
    rw [Nat.add_right_comm]
    simp only [decodeLoop]
    cases decodeBit j c with
    | error t => rfl
    | ok c' =>
      simp only [bind_ok, ih]
      congr 2
      omega

theorem descend_cons (s : State) (k : NodeIdx) (b : Bool) (p : BitString) :
    descend s k (b :: p) =
      if kindOf (s.node k) = .internal ∧ childValid (s.node k) b = true then descend s (childOf (s.node k) b) p
      else none := rfl

theorem descend_append (s : State) (k : NodeIdx) (p q : BitString) :
    descend s k (p ++ q) = (descend s k p).bind fun m => descend s m q := by
  induction p generalizing k with
  | nil => rfl
  | cons b p ih =>
    simp only [List.cons_append, descend_cons, ih]
    split <;> rfl

/-- The tree is a matter of NA and the reset epoch. -/
theorem descend_congr {s t : State} (h : s.na = t.na) (he : s.epoch = t.epoch) (k : NodeIdx) (p : BitString) :
    descend s k p = descend t k p := by
  induction p generalizing k with
  | nil => rfl
  | cons b p ih => simp only [descend_cons, State.node_congr h he, ih]

@[simp] theorem node_setDecState (s : State) (d : DecState) : (s.setDecState d).node = s.node := rfl

@[simp] theorem getBit_setDecState (s : State) (d : DecState) : (s.setDecState d).getBit = s.getBit := rfl

@[simp] theorem node_setSym (s : State) (i : Nat) (v : Sym) : (s.setSym i v).node = s.node := rfl

@[simp] theorem getBit_setSym (s : State) (i : Nat) (v : Sym) : (s.setSym i v).getBit = s.getBit := rfl

theorem setDecState_self (s : State) : s.setDecState s.decState = s := rfl

@[simp] theorem setDecState_setDecState (s : State) (d e : DecState) : (s.setDecState d).setDecState e = s.setDecState e := rfl

@[simp] theorem setSym_setDecState (s : State) (d : DecState) (i : Nat) (v : Sym) :
    (s.setDecState d).setSym i v = (s.setSym i v).setDecState d := rfl

@[simp] theorem descend_setDecState (s : State) (d : DecState) : descend (s.setDecState d) = descend s :=
  funext fun k => funext fun p => descend_congr (by simp) (by simp) k p

@[simp] theorem descend_setSym (s : State) (i : Nat) (v : Sym) : descend (s.setSym i v) = descend s :=
  funext fun k => funext fun p => descend_congr (by simp) (by simp) k p

/-- One bit to an INTERNAL child: the cursor moves there, `dstate` is IN_PATH (43_decoder.md R184). -/
theorem decodeBit_internal {j : Nat} {c : Cursor} (hk : kindOf (c.st.node c.cur) = .internal)
    (hv : childValid (c.st.node c.cur) (c.st.getBit j) = true)
    (hn : kindOf (c.st.node (childOf (c.st.node c.cur) (c.st.getBit j))) = .internal) :
    decodeBit j c =
      .ok { cur := childOf (c.st.node c.cur) (c.st.getBit j), m := c.m, st := c.st.setDecState .inPath } := by
  simp [decodeBit, decodeArrive, hk, hv, hn]

/-- One bit to a LEAF, with room: its symbol is emitted and the cursor is at the root again (43_decoder.md R185). -/
theorem decodeBit_leaf {j : Nat} {c : Cursor} (hk : kindOf (c.st.node c.cur) = .internal)
    (hv : childValid (c.st.node c.cur) (c.st.getBit j) = true)
    (hn : kindOf (c.st.node (childOf (c.st.node c.cur) (c.st.getBit j))) = .leaf) (hm : c.m ≠ Config.symCap) :
    decodeBit j c =
      .ok { cur := c.st.root, m := c.m + 1,
            st := (c.st.setSym c.m (symOf (c.st.node (childOf (c.st.node c.cur) (c.st.getBit j))))).setDecState .atRoot } := by
  simp [decodeBit, decodeArrive, hk, hv, hn, hm]

/-- Along a path of INTERNAL nodes the loop only moves the cursor. -/
theorem decodeLoop_path (q : BitString) (j m : Nat) (cur k : NodeIdx) (s : State)
    (hb : ∀ i < q.length, s.getBit (j + i) = q.getD i false)
    (hd : descend s cur q = some k) (hk : kindOf (s.node k) = .internal) :
    decodeLoop q.length j { cur := cur, m := m, st := s } =
      .ok { cur := k, m := m, st := s.setDecState (if q = [] then s.decState else .inPath) } := by
  induction q generalizing j cur s with
  | nil =>
    simp only [descend, Option.some.injEq] at hd
    subst hd
    rfl
  | cons b q ih =>
    have hb0 : s.getBit j = b := by simpa using hb 0 (by simp)
    rw [descend_cons] at hd
    split at hd
    · rename_i h
      have hn : kindOf (s.node (childOf (s.node cur) b)) = .internal := by
        cases q with
        | nil =>
          simp only [descend, Option.some.injEq] at hd
          rw [hd, hk]
        | cons b' q =>
          rw [descend_cons] at hd
          split at hd
          · rename_i h'
            exact h'.1
          · simp at hd
      simp only [List.length_cons, decodeLoop]
      rw [decodeBit_internal h.1 (by rw [hb0]; exact h.2) (by rw [hb0]; exact hn), bind_ok, hb0]
      rw [ih (j + 1) _ (s.setDecState .inPath)
        (fun i hi => by
          have := hb (i + 1) (by simpa using hi)
          have h2 : j + (i + 1) = j + 1 + i := by omega
          rw [h2] at this
          simpa using this)
        (by simpa using hd) (by simpa using hk)]
      simp
    · simp at hd

/-- Along a root-to-leaf path the loop emits the leaf's symbol and is at the root again (43_decoder.md R180). -/
theorem decodeLoop_leaf (p : BitString) (j m : Nat) (cur k : NodeIdx) (s : State) (hp : p ≠ [])
    (hb : ∀ i < p.length, s.getBit (j + i) = p.getD i false)
    (hd : descend s cur p = some k) (hk : kindOf (s.node k) = .leaf) (hm : m ≠ Config.symCap) :
    decodeLoop p.length j { cur := cur, m := m, st := s } =
      .ok { cur := s.root, m := m + 1, st := (s.setSym m (symOf (s.node k))).setDecState .atRoot } := by
  obtain ⟨q, b, rfl⟩ : ∃ q b, p = q ++ [b] := ⟨p.dropLast, p.getLast hp, (List.dropLast_concat_getLast hp).symm⟩
  rw [descend_append] at hd
  cases hq : descend s cur q with
  | none => simp [hq] at hd
  | some n =>
    rw [hq, Option.bind_some, descend_cons] at hd
    split at hd
    · rename_i h
      simp only [descend, Option.some.injEq] at hd
      have hbits : ∀ i < q.length, s.getBit (j + i) = q.getD i false := fun i hi => by
        rw [hb i (by simp; omega)]
        simp [List.getD_eq_getElem?_getD, List.getElem?_append_left hi]
      have hlast : s.getBit (j + q.length) = b := by
        rw [hb q.length (by simp)]
        simp
      rw [List.length_append, decodeLoop_add, decodeLoop_path q j m cur n s hbits hq h.1, bind_ok]
      simp only [List.length_singleton, decodeLoop]
      rw [decodeBit_leaf (by simpa using h.1) (by simpa [hlast] using h.2) (by simpa [hlast, hd] using hk) hm, bind_ok]
      simp [hlast, hd]
    · simp at hd

end Sys2Proof.Machine
end

