-- ==== Sys2Proof/Laws/CodeTable.lean ====
section
/-!
SUPPORT. What GEN's walk does (41_code_table_generator.md R141, R145): visiting one node; a walk that ends well gives every leaf
below its node the path to it and changes nothing else; a walk that ends with an error raised it at a node.
-/

namespace Sys2Proof.Machine

/-- The symbol of the leaf reached from node `k` along `p`, if there is one. -/
def leafFrom (s : State) (k : NodeIdx) (p : BitString) : Option Sym :=
  match descend s k p with
  | some m => if kindOf (s.node m) = .leaf then some (symOf (s.node m)) else none
  | none => none

theorem leafSym_eq_leafFrom (s : State) (p : BitString) : leafSym s p = leafFrom s s.root p := rfl

theorem leafFrom_nil (s : State) (k : NodeIdx) :
    leafFrom s k [] = if kindOf (s.node k) = .leaf then some (symOf (s.node k)) else none := rfl

theorem leafFrom_cons (s : State) (k : NodeIdx) (b : Bool) (p : BitString) :
    leafFrom s k (b :: p) =
      if kindOf (s.node k) = .internal ∧ childValid (s.node k) b = true then leafFrom s (childOf (s.node k) b) p
      else none := by
  simp only [leafFrom, descend_cons]
  by_cases h : kindOf (s.node k) = .internal ∧ childValid (s.node k) b = true
  · simp only [if_pos h]
  · simp only [if_neg h]

theorem leafFrom_congr {s t : State} (h : s.na = t.na) (he : s.epoch = t.epoch) (k : NodeIdx) (p : BitString) :
    leafFrom s k p = leafFrom t k p := by
  simp only [leafFrom, descend_congr h he, State.node_congr h he]

@[simp] theorem node_setCt (s : State) (i : Nat) (v : CodeElem) : (s.setCt i v).node = s.node := rfl

theorem codeElem_setCt (s : State) (v w : Sym) (e : CodeElem) :
    (s.setCt v.toNat e).codeElem w = if w = v then e else s.codeElem w := by
  simp only [State.codeElem, State.ctAt_setCt, BitVec.toNat_inj]

/-- Visiting one node, when the walk goes on: a leaf takes its path as code, an internal node gives its children. -/
theorem genVisit_ok {k : NodeIdx} {path : BitString} {s : State} {r : Option (NodeIdx × NodeIdx) × State}
    (h : genVisit k path s = .ok r) :
    (kindOf (s.node k) = .leaf ∧ lenOf (s.codeElem (symOf (s.node k))) = 0 ∧
      r = (none, s.setCt (symOf (s.node k)).toNat (entry path))) ∨
    (kindOf (s.node k) = .internal ∧ lvOf (s.node k) = true ∧ rvOf (s.node k) = true ∧
      path.length ≠ Config.codeLenMax ∧ r = (some (leftOf (s.node k), rightOf (s.node k)), s)) := by
  unfold genVisit at h
  split at h
  · rename_i hk
    split at h
    · rename_i hl
      exact .inl ⟨hk, hl, (Except.ok.inj h).symm⟩
    · simp at h
  · rename_i hk
    split at h
    · rename_i hv
      split at h
      · simp at h
      · rename_i hp
        rw [Bool.and_eq_true] at hv
        exact .inr ⟨hk, hv.1, hv.2, hp, (Except.ok.inj h).symm⟩
    · simp at h
  · simp at h

/-- Visiting one node, when it raises: MalformedTreeError with the node. -/
theorem genVisit_error {k : NodeIdx} {path : BitString} {s t : State} (h : genVisit k path s = .error t) :
    t = malformedAt s k := by
  unfold genVisit at h
  split at h
  · split at h
    · simp at h
    · exact (Except.error.inj h).symm
  · split at h
    · split at h
      · exact (Except.error.inj h).symm
      · simp at h
    · exact (Except.error.inj h).symm
  · exact (Except.error.inj h).symm

/-- When visiting one node raises (41_code_table_generator.md R145 (a) to (d)). -/
theorem genVisit_raises {k : NodeIdx} {path : BitString} {s t : State} (h : genVisit k path s = .error t) :
    kindOf (s.node k) = .free ∨ (kindOf (s.node k) = .leaf ∧ lenOf (s.codeElem (symOf (s.node k))) ≠ 0) ∨
    (kindOf (s.node k) = .internal ∧
      (lvOf (s.node k) = false ∨ rvOf (s.node k) = false ∨ path.length = Config.codeLenMax)) := by
  cases hk : kindOf (s.node k) with
  | free => exact .inl rfl
  | leaf =>
    refine .inr (.inl ⟨rfl, fun h0 => ?_⟩)
    simp [genVisit, hk, h0] at h
  | internal =>
    refine .inr (.inr ⟨rfl, ?_⟩)
    cases hl : lvOf (s.node k) <;> cases hr : rvOf (s.node k) <;> simp [genVisit, hk, hl, hr] at h ⊢
    by_contra hp
    simp [hp] at h

/-- What a walk below node `k`, entered with `path`, relies on: every node reached is a LEAF or a full INTERNAL node with room
below, no leaf's symbol has a code yet, and no symbol is on two leaves. -/
structure Walkable (s : State) (k : NodeIdx) (path : BitString) : Prop where
  nodes : ∀ q m, descend s k q = some m →
    kindOf (s.node m) = .leaf ∨
    (kindOf (s.node m) = .internal ∧ lvOf (s.node m) = true ∧ rvOf (s.node m) = true ∧
      path.length + q.length < Config.codeLenMax)
  fresh : ∀ q v, leafFrom s k q = some v → lenOf (s.codeElem v) = 0
  once : ∀ p q v, leafFrom s k p = some v → leafFrom s k q = some v → p = q

/-- What a walk that ended well has done: CT alone is written, each leaf's symbol with the path to the leaf. -/
structure Walked (s : State) (k : NodeIdx) (path : BitString) (t : State) : Prop where
  only : t = { s with ct := t.ct }
  codes : ∀ q v, leafFrom s k q = some v → t.codeElem v = entry (path ++ q)
  others : ∀ v, (∀ q, leafFrom s k q ≠ some v) → t.codeElem v = s.codeElem v

theorem childOf_false (e : NodeElem) : childOf e false = leftOf e := rfl
theorem childOf_true (e : NodeElem) : childOf e true = rightOf e := rfl
theorem childValid_false (e : NodeElem) : childValid e false = lvOf e := rfl
theorem childValid_true (e : NodeElem) : childValid e true = rvOf e := rfl

theorem leafFrom_leaf_cons {s : State} {k : NodeIdx} (h : kindOf (s.node k) = .leaf) (b : Bool) (p : BitString) :
    leafFrom s k (b :: p) = none := by
  simp [leafFrom_cons, h]

theorem descend_leaf_cons {s : State} {k : NodeIdx} (h : kindOf (s.node k) = .leaf) (b : Bool) (p : BitString) :
    descend s k (b :: p) = none := by
  simp [descend_cons, h]

theorem leafFrom_full_cons {s : State} {k : NodeIdx} (h : kindOf (s.node k) = .internal) (hl : lvOf (s.node k) = true)
    (hr : rvOf (s.node k) = true) (b : Bool) (p : BitString) :
    leafFrom s k (b :: p) = leafFrom s (childOf (s.node k) b) p := by
  rw [leafFrom_cons, if_pos ⟨h, by cases b <;> assumption⟩]

theorem descend_full_cons {s : State} {k : NodeIdx} (h : kindOf (s.node k) = .internal) (hl : lvOf (s.node k) = true)
    (hr : rvOf (s.node k) = true) (b : Bool) (p : BitString) :
    descend s k (b :: p) = descend s (childOf (s.node k) b) p := by
  rw [descend_cons, if_pos ⟨h, by cases b <;> assumption⟩]

/-- Visiting a leaf, as a walk. -/
theorem walked_leaf {s : State} {k : NodeIdx} {path : BitString} (hk : kindOf (s.node k) = .leaf)
    (hl : lenOf (s.codeElem (symOf (s.node k))) = 0) :
    Walkable s k path ∧ Walked s k path (s.setCt (symOf (s.node k)).toNat (entry path)) := by
  have hnil : leafFrom s k [] = some (symOf (s.node k)) := by rw [leafFrom_nil, if_pos hk]
  refine ⟨⟨fun q m hd => ?_, fun q v hv => ?_, fun p q v hp hq => ?_⟩, ⟨rfl, fun q v hv => ?_, fun v hv => ?_⟩⟩
  · cases q with
    | nil =>
      obtain rfl : k = m := by simpa [descend] using hd
      exact .inl hk
    | cons b q => simp [descend_leaf_cons hk] at hd
  · cases q with
    | nil =>
      rw [hnil] at hv
      cases hv
      exact hl
    | cons b q => simp [leafFrom_leaf_cons hk] at hv
  · cases p with
    | nil =>
      cases q with
      | nil => rfl
      | cons b q => simp [leafFrom_leaf_cons hk] at hq
    | cons b p => simp [leafFrom_leaf_cons hk] at hp
  · cases q with
    | nil =>
      rw [hnil] at hv
      cases hv
      rw [codeElem_setCt, if_pos rfl, List.append_nil]
    | cons b q => simp [leafFrom_leaf_cons hk] at hv
  · rw [codeElem_setCt, if_neg]
    rintro rfl
    exact hv [] hnil

/-- The two walks below a full internal node, as one. -/
theorem walked_internal {s t u : State} {k : NodeIdx} {path : BitString} (hk : kindOf (s.node k) = .internal)
    (hl : lvOf (s.node k) = true) (hr : rvOf (s.node k) = true) (hp : path.length < Config.codeLenMax)
    (h1 : Walkable s (leftOf (s.node k)) (path ++ [false])) (w1 : Walked s (leftOf (s.node k)) (path ++ [false]) t)
    (h2 : Walkable t (rightOf (s.node k)) (path ++ [true])) (w2 : Walked t (rightOf (s.node k)) (path ++ [true]) u)
    (hlen : ∀ q v, leafFrom s (leftOf (s.node k)) q = some v → path.length + 1 + q.length ≤ Config.codeLenMax) :
    Walkable s k path ∧ Walked s k path u := by
  have hna : t.na = s.na := by rw [w1.only]
  have hep : t.epoch = s.epoch := by rw [w1.only]
  have hlf : ∀ p, leafFrom t (rightOf (s.node k)) p = leafFrom s (rightOf (s.node k)) p := fun p =>
    leafFrom_congr hna hep _ _
  have hnil : leafFrom s k [] = none := by simp [leafFrom_nil, hk]
  have hc := leafFrom_full_cons hk hl hr
  have hd := descend_full_cons hk hl hr
  have hdisj : ∀ p q v, leafFrom s (leftOf (s.node k)) p = some v → leafFrom s (rightOf (s.node k)) q ≠ some v := by
    intro p q v hpv hqv
    have e1 := w1.codes p v hpv
    have e2 := h2.fresh q v ((hlf q).trans hqv)
    rw [e1, lenOf_entry (by have := hlen p v hpv; simp; omega)] at e2
    simp at e2
  refine ⟨⟨fun q m hdm => ?_, fun q v hv => ?_, fun p q v hpv hqv => ?_⟩, ⟨?_, fun q v hv => ?_, fun v hv => ?_⟩⟩
  · cases q with
    | nil =>
      obtain rfl : k = m := by simpa [descend] using hdm
      exact .inr ⟨hk, hl, hr, by simpa using hp⟩
    | cons b q =>
      rw [hd] at hdm
      cases b
      · rcases h1.nodes q m hdm with h | ⟨a, b', c, d⟩
        · exact .inl h
        · exact .inr ⟨a, b', c, by simp at d ⊢; omega⟩
      · have hdm' : descend t (rightOf (s.node k)) q = some m := by rw [descend_congr hna hep]; exact hdm
        rcases h2.nodes q m hdm' with h | ⟨a, b', c, d⟩
        · exact .inl (by rw [State.node_congr hna hep] at h; exact h)
        · rw [State.node_congr hna hep] at a b' c
          exact .inr ⟨a, b', c, by simp at d ⊢; omega⟩
  · cases q with
    | nil => simp [hnil] at hv
    | cons b q =>
      rw [hc] at hv
      cases b
      · exact h1.fresh q v hv
      · have := h2.fresh q v ((hlf q).trans hv)
        rwa [w1.others v fun p hpv => hdisj p q v hpv hv] at this
  · cases p with
    | nil => simp [hnil] at hpv
    | cons b p =>
      cases q with
      | nil => simp [hnil] at hqv
      | cons c q =>
        rw [hc] at hpv hqv
        cases b <;> cases c
        · rw [h1.once p q v hpv hqv]
        · exact absurd hqv (hdisj p q v hpv)
        · exact absurd hpv (hdisj q p v hqv)
        · rw [h2.once p q v ((hlf p).trans hpv) ((hlf q).trans hqv)]
  · rw [w2.only, w1.only]
  · cases q with
    | nil => simp [hnil] at hv
    | cons b q =>
      rw [hc] at hv
      cases b
      · rw [w2.others v fun p hpv => hdisj q p v hv ((hlf p).symm.trans hpv), w1.codes q v hv]
        simp
      · rw [w2.codes q v ((hlf q).trans hv)]
        simp
  · rw [w2.others v fun q hq => hv (true :: q) (by rw [hc]; exact (hlf q).symm.trans hq),
      w1.others v fun q hq => hv (false :: q) (by rw [hc]; exact hq)]

/-- No leaf is below the path length the walk allows. -/
theorem Walkable.length_le {s : State} {k : NodeIdx} {path : BitString} (h : Walkable s k path)
    (hp : path.length ≤ Config.codeLenMax) {q : BitString} {v : Sym} (hq : leafFrom s k q = some v) :
    path.length + q.length ≤ Config.codeLenMax := by
  rcases List.eq_nil_or_concat q with rfl | ⟨q', b, rfl⟩
  · simpa using hp
  · simp only [leafFrom, List.concat_eq_append, descend_append] at hq
    cases hd : descend s k q' with
    | none => simp [hd] at hq
    | some m =>
      rcases h.nodes q' m hd with hl | ⟨-, -, -, hlt⟩
      · simp [hd, descend_leaf_cons hl] at hq
      · simp only [List.concat_eq_append, List.length_append, List.length_singleton]
        omega

/-- A walk that ends well has met only leaves and full internal nodes, no symbol twice, and has written each leaf's path
(41_code_table_generator.md R141, R145). -/
theorem walk_ok {room : Nat} {k : NodeIdx} {path : BitString} {s t : State} (hr : path.length + room = Config.codeLenMax)
    (h : walk room k path s = .ok t) : Walkable s k path ∧ Walked s k path t := by
  induction room generalizing k path s t with
  | zero =>
    simp only [walk] at h
    cases hv : genVisit k path s with
    | error e => simp [hv] at h
    | ok r =>
      rw [hv, map_ok, Except.ok.injEq] at h
      rcases genVisit_ok hv with ⟨hk, hl, rfl⟩ | ⟨-, -, -, hne, -⟩
      · subst h
        exact walked_leaf hk hl
      · exact absurd (by simpa using hr) hne
  | succ room ih =>
    simp only [walk] at h
    obtain ⟨r, hv, h⟩ := bind_eq_ok.1 h
    rcases genVisit_ok hv with ⟨hk, hl, rfl⟩ | ⟨hk, hl, hrt, hne, rfl⟩
    · simp only [Except.ok.injEq] at h
      subst h
      exact walked_leaf hk hl
    · simp only at h
      obtain ⟨u, hu, ht⟩ := bind_eq_ok.1 h
      obtain ⟨a1, w1⟩ := ih (by simp; omega) hu
      obtain ⟨a2, w2⟩ := ih (by simp; omega) ht
      exact walked_internal hk hl hrt (by omega) a1 w1 a2 w2 fun q v hq => by
        simpa using a1.length_le (by simp; omega) hq

/-- A walk that ends well has written CT alone. -/
theorem walk_only {room : Nat} {k : NodeIdx} {path : BitString} {s t : State} (h : walk room k path s = .ok t) :
    t = { s with ct := t.ct } := by
  induction room generalizing k path s t with
  | zero =>
    simp only [walk] at h
    cases hv : genVisit k path s with
    | error e => simp [hv] at h
    | ok r =>
      rw [hv, map_ok, Except.ok.injEq] at h
      subst h
      rcases genVisit_ok hv with ⟨-, -, rfl⟩ | ⟨-, -, -, -, rfl⟩ <;> rfl
  | succ room ih =>
    simp only [walk] at h
    obtain ⟨r, hv, h⟩ := bind_eq_ok.1 h
    rcases genVisit_ok hv with ⟨-, -, rfl⟩ | ⟨-, -, -, -, rfl⟩
    · simp only [Except.ok.injEq] at h
      subst h
      rfl
    · simp only at h
      obtain ⟨u, hu, ht⟩ := bind_eq_ok.1 h
      rw [ih ht, ih hu]

/-- What a walk below node `k`, entered with `path`, that raised at node `m`, reached along `p`, has done: every node met before
is a LEAF or a full INTERNAL node with room below, no leaf's symbol had a code, and none is on two of those leaves; `u` is the
machine at the raise, CT alone written, each leaf met before with the path to it. -/
structure Stopped (s : State) (k : NodeIdx) (path p : BitString) (m : NodeIdx) (u : State) : Prop where
  reached : descend s k p = some m
  raises : genVisit m (path ++ p) u = .error (malformedAt u m)
  only : u = { s with ct := u.ct }
  nodes : ∀ q n, before q p = true → descend s k q = some n →
    kindOf (s.node n) = .leaf ∨
    (kindOf (s.node n) = .internal ∧ lvOf (s.node n) = true ∧ rvOf (s.node n) = true ∧
      path.length + q.length < Config.codeLenMax)
  fresh : ∀ q v, before q p = true → leafFrom s k q = some v → lenOf (s.codeElem v) = 0
  once : ∀ q q' v, before q p = true → before q' p = true → leafFrom s k q = some v → leafFrom s k q' = some v → q = q'
  codes : ∀ q v, before q p = true → leafFrom s k q = some v → u.codeElem v = entry (path ++ q)
  others : ∀ v, (∀ q, before q p = true → leafFrom s k q ≠ some v) → u.codeElem v = s.codeElem v

@[simp] theorem before_nil (q : BitString) : before q [] = false := by cases q <;> rfl
@[simp] theorem before_nil_cons (b : Bool) (p : BitString) : before [] (b :: p) = true := rfl
@[simp] theorem before_cons_cons (a b : Bool) (q p : BitString) :
    before (a :: q) (b :: p) = if a = b then before q p else b := rfl

@[simp] theorem before_self (p : BitString) : before p p = false := by
  induction p with
  | nil => rfl
  | cons b p ih => simpa using ih

theorem before_trans {p q r : BitString} (h1 : before p q = true) (h2 : before q r = true) : before p r = true := by
  induction r generalizing p q with
  | nil => simp at h2
  | cons c r ih =>
    cases p with
    | nil => rfl
    | cons a p =>
      cases q with
      | nil => simp at h1
      | cons b q =>
        cases a <;> cases b <;> cases c <;> simp at h1 h2 ⊢ <;> exact ih h1 h2

/-- A walk that raises at its first node. -/
theorem stopped_here {s : State} {k : NodeIdx} {path : BitString} (h : genVisit k path s = .error (malformedAt s k)) :
    Stopped s k path [] k s where
  reached := rfl
  raises := by rwa [List.append_nil]
  only := rfl
  nodes _ _ h := by simp at h
  fresh _ _ h := by simp at h
  once _ _ _ h := by simp at h
  codes _ _ h := by simp at h
  others _ _ := rfl

/-- A walk that raises in the left subtree of a full internal node. -/
theorem Stopped.left {s u : State} {k m : NodeIdx} {path p : BitString} (hk : kindOf (s.node k) = .internal)
    (hl : lvOf (s.node k) = true) (hr : rvOf (s.node k) = true) (hp : path.length < Config.codeLenMax)
    (h : Stopped s (leftOf (s.node k)) (path ++ [false]) p m u) : Stopped s k path (false :: p) m u := by
  have hnil : leafFrom s k [] = none := by simp [leafFrom_nil, hk]
  have hc := leafFrom_full_cons hk hl hr
  have hd := descend_full_cons hk hl hr
  refine ⟨by rw [hd]; exact h.reached, by simpa using h.raises, h.only, fun q n hq hn => ?_, fun q v hq hv => ?_,
    fun q q' v hq hq' hv hv' => ?_, fun q v hq hv => ?_, fun v hv => ?_⟩
  · cases q with
    | nil =>
      obtain rfl : k = n := by simpa [descend] using hn
      exact .inr ⟨hk, hl, hr, by simpa using hp⟩
    | cons b q =>
      cases b <;> simp at hq
      rw [hd] at hn
      rcases h.nodes q n hq hn with h' | ⟨a, b, c, d⟩
      · exact .inl h'
      · exact .inr ⟨a, b, c, by simp at d ⊢; omega⟩
  · cases q with
    | nil => simp [hnil] at hv
    | cons b q =>
      cases b <;> simp at hq
      rw [hc] at hv
      exact h.fresh q v hq hv
  · cases q with
    | nil => simp [hnil] at hv
    | cons b q =>
      cases q' with
      | nil => simp [hnil] at hv'
      | cons b' q' =>
        cases b <;> cases b' <;> simp at hq hq'
        rw [hc] at hv hv'
        rw [h.once q q' v hq hq' hv hv']
  · cases q with
    | nil => simp [hnil] at hv
    | cons b q =>
      cases b <;> simp at hq
      rw [hc] at hv
      simpa using h.codes q v hq hv
  · exact h.others v fun q hq hq' => hv (false :: q) (by simpa using hq) (by rw [hc]; exact hq')

/-- A walk that raises in the right subtree of a full internal node, the left one walked. -/
theorem Stopped.right {s t u : State} {k m : NodeIdx} {path p : BitString} (hk : kindOf (s.node k) = .internal)
    (hl : lvOf (s.node k) = true) (hr : rvOf (s.node k) = true) (hp : path.length < Config.codeLenMax)
    (h1 : Walkable s (leftOf (s.node k)) (path ++ [false])) (w1 : Walked s (leftOf (s.node k)) (path ++ [false]) t)
    (h : Stopped t (rightOf (s.node k)) (path ++ [true]) p m u) : Stopped s k path (true :: p) m u := by
  have hna : t.na = s.na := by rw [w1.only]
  have hep : t.epoch = s.epoch := by rw [w1.only]
  have hlf : ∀ p, leafFrom t (rightOf (s.node k)) p = leafFrom s (rightOf (s.node k)) p := fun p =>
    leafFrom_congr hna hep _ _
  have hnil : leafFrom s k [] = none := by simp [leafFrom_nil, hk]
  have hc := leafFrom_full_cons hk hl hr
  have hd := descend_full_cons hk hl hr
  have hdisj : ∀ q q' v, leafFrom s (leftOf (s.node k)) q = some v → before q' p = true →
      leafFrom s (rightOf (s.node k)) q' ≠ some v := by
    intro q q' v hv hq' hv'
    have e2 := h.fresh q' v hq' ((hlf q').trans hv')
    have hle := h1.length_le (by simp; omega) hv
    rw [w1.codes q v hv, lenOf_entry (by simp at hle ⊢; omega)] at e2
    simp at e2
  refine ⟨by rw [hd, ← h.reached]; exact (descend_congr hna hep _ _).symm, by simpa using h.raises, by rw [h.only, w1.only],
    fun q n hq hn => ?_, fun q v hq hv => ?_, fun q q' v hq hq' hv hv' => ?_, fun q v hq hv => ?_, fun v hv => ?_⟩
  · cases q with
    | nil =>
      obtain rfl : k = n := by simpa [descend] using hn
      exact .inr ⟨hk, hl, hr, by simpa using hp⟩
    | cons b q =>
      rw [hd] at hn
      cases b
      · rcases h1.nodes q n hn with h' | ⟨a, b, c, d⟩
        · exact .inl h'
        · exact .inr ⟨a, b, c, by simp at d ⊢; omega⟩
      · rcases h.nodes q n (by simpa using hq) (by rw [descend_congr hna hep]; exact hn) with h' | ⟨a, b, c, d⟩
        · exact .inl (by rwa [State.node_congr hna hep] at h')
        · rw [State.node_congr hna hep] at a b c
          exact .inr ⟨a, b, c, by simp at d ⊢; omega⟩
  · cases q with
    | nil => simp [hnil] at hv
    | cons b q =>
      rw [hc] at hv
      cases b
      · exact h1.fresh q v hv
      · have hq : before q p = true := by simpa using hq
        have := h.fresh q v hq ((hlf q).trans hv)
        rwa [w1.others v fun q' hv' => hdisj q' q v hv' hq hv] at this
  · cases q with
    | nil => simp [hnil] at hv
    | cons b q =>
      cases q' with
      | nil => simp [hnil] at hv'
      | cons b' q' =>
        rw [hc] at hv hv'
        cases b <;> cases b' <;> simp at hq hq'
        · rw [h1.once q q' v hv hv']
        · exact absurd hv' (hdisj q q' v hv hq')
        · exact absurd hv (hdisj q' q v hv' hq)
        · rw [h.once q q' v hq hq' ((hlf q).trans hv) ((hlf q').trans hv')]
  · cases q with
    | nil => simp [hnil] at hv
    | cons b q =>
      rw [hc] at hv
      cases b
      · rw [h.others v fun q' hq' hv' => hdisj q q' v hv hq' ((hlf q').symm.trans hv'), w1.codes q v hv]
        simp
      · simpa using h.codes q v (by simpa using hq) ((hlf q).trans hv)
  · rw [h.others v fun q hq hv' => hv (true :: q) (by simpa using hq) (by rw [hc]; exact (hlf q).symm.trans hv'),
      w1.others v fun q hv' => hv (false :: q) (by simp) (by rw [hc]; exact hv')]

/-- A walk that ends with an error raised MalformedTreeError at the first node in pre-order that GEN rejects, the leaves met
before having their codes (41_code_table_generator.md R144, R145, 60_exceptions.md R253). -/
theorem walk_error {room : Nat} {k : NodeIdx} {path : BitString} {s t : State} (hr : path.length + room = Config.codeLenMax)
    (h : walk room k path s = .error t) :
    ∃ (p : BitString) (m : NodeIdx) (u : State), Stopped s k path p m u ∧ t = malformedAt u m := by
  induction room generalizing k path s t with
  | zero =>
    simp only [walk] at h
    cases hv : genVisit k path s with
    | error e =>
      rw [hv, map_error, Except.error.injEq] at h
      have he := genVisit_error hv
      exact ⟨[], k, s, stopped_here (by rw [hv, he]), by rw [← h, he]⟩
    | ok r => simp [hv] at h
  | succ room ih =>
    simp only [walk] at h
    rcases bind_eq_error.1 h with hv | ⟨r, hv, h⟩
    · have he := genVisit_error hv
      exact ⟨[], k, s, stopped_here (by rw [hv, he]), he⟩
    · rcases genVisit_ok hv with ⟨-, -, rfl⟩ | ⟨hk, hl, hrt, -, rfl⟩
      · simp at h
      · simp only at h
        rcases bind_eq_error.1 h with hu | ⟨u, hu, ht⟩
        · obtain ⟨p, m, u, st, he⟩ := ih (by simp; omega) hu
          exact ⟨false :: p, m, u, st.left hk hl hrt (by omega), he⟩
        · obtain ⟨a1, w1⟩ := walk_ok (by simp; omega) hu
          obtain ⟨p, m, v, st, he⟩ := ih (by simp; omega) ht
          exact ⟨true :: p, m, v, st.right hk hl hrt (by omega) a1 w1, he⟩

theorem genVisit_leaf {k : NodeIdx} {s : State} (path : BitString) (hk : kindOf (s.node k) = .leaf)
    (h0 : lenOf (s.codeElem (symOf (s.node k))) = 0) :
    genVisit k path s = .ok (none, s.setCt (symOf (s.node k)).toNat (entry path)) := by
  simp [genVisit, hk, h0]

theorem genVisit_internal {k : NodeIdx} {path : BitString} {s : State} (hk : kindOf (s.node k) = .internal)
    (hl : lvOf (s.node k) = true) (hr : rvOf (s.node k) = true) (hp : path.length < Config.codeLenMax) :
    genVisit k path s = .ok (some (leftOf (s.node k), rightOf (s.node k)), s) := by
  have hne : path.length ≠ Config.codeLenMax := by omega
  simp [genVisit, hk, hl, hr, hne]

/-- Below a full internal node the walk can go left. -/
theorem Walkable.left {s : State} {k : NodeIdx} {path : BitString} (h : Walkable s k path)
    (hk : kindOf (s.node k) = .internal) (hl : lvOf (s.node k) = true) (hr : rvOf (s.node k) = true) :
    Walkable s (leftOf (s.node k)) (path ++ [false]) where
  nodes q m hd := by
    rcases h.nodes (false :: q) m (by rw [descend_full_cons hk hl hr]; exact hd) with h' | ⟨a, b, c, d⟩
    · exact .inl h'
    · exact .inr ⟨a, b, c, by simp at d ⊢; omega⟩
  fresh q v hv := h.fresh (false :: q) v (by rw [leafFrom_full_cons hk hl hr]; exact hv)
  once p q v hp hq := by
    have := h.once (false :: p) (false :: q) v (by rw [leafFrom_full_cons hk hl hr]; exact hp)
      (by rw [leafFrom_full_cons hk hl hr]; exact hq)
    simpa using this

/-- Below a full internal node, the left subtree walked, the walk can go right. -/
theorem Walkable.right {s t : State} {k : NodeIdx} {path : BitString} (h : Walkable s k path)
    (hk : kindOf (s.node k) = .internal) (hl : lvOf (s.node k) = true) (hr : rvOf (s.node k) = true)
    (w : Walked s (leftOf (s.node k)) (path ++ [false]) t) :
    Walkable t (rightOf (s.node k)) (path ++ [true]) := by
  have hna : t.na = s.na := by rw [w.only]
  have hep : t.epoch = s.epoch := by rw [w.only]
  have hc := leafFrom_full_cons hk hl hr
  refine ⟨fun q m hd => ?_, fun q v hv => ?_, fun p q v hp hq => ?_⟩
  · rw [descend_congr hna hep] at hd
    rw [State.node_congr hna hep]
    rcases h.nodes (true :: q) m (by rw [descend_full_cons hk hl hr]; exact hd) with h' | ⟨a, b, c, d⟩
    · exact .inl h'
    · exact .inr ⟨a, b, c, by simp at d ⊢; omega⟩
  · rw [leafFrom_congr hna hep] at hv
    have hv' : leafFrom s k (true :: q) = some v := by rw [hc]; exact hv
    rw [w.others v fun p hp => by simpa using h.once (false :: p) (true :: q) v (by rw [hc]; exact hp) hv']
    exact h.fresh _ v hv'
  · rw [leafFrom_congr hna hep] at hp hq
    simpa using h.once (true :: p) (true :: q) v (by rw [hc]; exact hp) (by rw [hc]; exact hq)

/-- A walk over a tree it can walk ends well (41_code_table_generator.md R145, R146). -/
theorem walk_complete {room : Nat} {k : NodeIdx} {path : BitString} {s : State}
    (hr : path.length + room = Config.codeLenMax) (h : Walkable s k path) : ∃ t, walk room k path s = .ok t := by
  induction room generalizing k path s with
  | zero =>
    rcases h.nodes [] k rfl with hk | ⟨-, -, -, hp⟩
    · exact ⟨_, by rw [walk, genVisit_leaf path hk (h.fresh [] _ (by rw [leafFrom_nil, if_pos hk]))]; rfl⟩
    · simp at hp hr
      omega
  | succ room ih =>
    rcases h.nodes [] k rfl with hk | ⟨hk, hl, hrt, hp⟩
    · exact ⟨_, by rw [walk, genVisit_leaf path hk (h.fresh [] _ (by rw [leafFrom_nil, if_pos hk]))]; rfl⟩
    · have hp : path.length < Config.codeLenMax := by simpa using hp
      obtain ⟨u, hu⟩ := ih (path := path ++ [false]) (by simp; omega) (h.left hk hl hrt)
      have w := (walk_ok (by simp; omega) hu).2
      obtain ⟨t, ht⟩ := ih (path := path ++ [true]) (by simp; omega) (h.right hk hl hrt w)
      exact ⟨t, by rw [walk, genVisit_internal hk hl hrt hp, bind_ok]; simp only [hu, bind_ok, ht]⟩

theorem codeElem_genClear (s : State) (v : Sym) : (genClear s).codeElem v = 0 := ctAt_genClear s v.isLt

@[simp] theorem node_genClear (s : State) : (genClear s).node = s.node := rfl

theorem leafFrom_genClear (s : State) (k : NodeIdx) (p : BitString) : leafFrom (genClear s) k p = leafFrom s k p :=
  leafFrom_congr (by simp) (by simp) k p

theorem descend_genClear (s : State) (k : NodeIdx) (p : BitString) : descend (genClear s) k p = descend s k p :=
  descend_congr (by simp) (by simp) k p

/-- With CT cleared, the trees GEN's walk can walk from an INTERNAL root are the proper ones (41_code_table_generator.md R141,
R145). -/
theorem properTree_iff_walkable (s : State) :
    properTree s ↔ kindOf (s.node s.root) = .internal ∧ Walkable (genClear s) s.root [] := by
  refine ⟨fun ⟨h1, h2, h3⟩ => ⟨h1, fun q m hd => ?_, fun q v _ => ?_, fun p q v hp hq => ?_⟩,
    fun ⟨h1, h⟩ => ⟨h1, fun p k hd => ?_, fun p q v hp hq => ?_⟩⟩
  · rw [descend_genClear] at hd
    simpa using h2 q m hd
  · rw [codeElem_genClear]
    exact lenOf_noEntry
  · rw [leafFrom_genClear] at hp hq
    exact h3 p q v hp hq
  · simpa using h.nodes p k (by rw [descend_genClear]; exact hd)
  · exact h.once p q v (by rw [leafFrom_genClear]; exact hp) (by rw [leafFrom_genClear]; exact hq)

end Sys2Proof.Machine
end

