-- ==== Sys2Proof/Laws/Encoder.lean ====
section
/-!
SUPPORT. What the packer and ENCODE's loop do (42_encoder.md R162 to R166).
-/

namespace Sys2Proof.Machine

/-- The packer writes BS alone. -/
theorem putBits_eq (j : Nat) (p : BitString) (s : State) : putBits j p s = { s with bs := (putBits j p s).bs } := by
  induction p generalizing j s with
  | nil => rfl
  | cons b p ih =>
    simp only [putBits]
    rw [ih (j + 1) (s.putBit j b), State.putBit_eq s j b]

theorem putBits_epoch (j : Nat) (p : BitString) (s : State) : (putBits j p s).epoch = s.epoch := by
  rw [putBits_eq]

theorem symAt_putBits (j : Nat) (p : BitString) (s : State) (i : Nat) : (putBits j p s).symAt i = s.symAt i := by
  rw [putBits_eq]
  rfl

theorem codeElem_putBits (j : Nat) (p : BitString) (s : State) (v : Sym) :
    (putBits j p s).codeElem v = s.codeElem v := by
  rw [putBits_eq]
  rfl

theorem putBits_append (j : Nat) (p q : BitString) (s : State) :
    putBits j (p ++ q) s = putBits (j + p.length) q (putBits j p s) := by
  induction p generalizing j s with
  | nil => rfl
  | cons b p ih =>
    simp only [List.cons_append, putBits, ih, List.length_cons]
    congr 1
    omega

/-- The stream bits after the packer: those before `j` as they were, then `p`, then zeros to the end of a byte begun by `p`,
then as they were (42_encoder.md R165). -/
theorem getBit_putBits (j : Nat) (p : BitString) (s : State) (i : Nat) :
    (putBits j p s).getBit i =
      if i < j then s.getBit i
      else if i < j + p.length then p.getD (i - j) false
      else if j ≤ 8 * (i / 8) ∧ 8 * (i / 8) < j + p.length then false
      else s.getBit i := by
  induction p generalizing j s with
  | nil =>
    simp only [putBits, List.length_nil]
    split
    · rfl
    · rw [if_neg (by omega), if_neg (by omega)]
  | cons b p ih =>
    simp only [putBits, ih, State.getBit_putBit, List.length_cons]
    by_cases h1 : i < j
    · have h2 : i < j + 1 := by omega
      have h3 : i ≠ j := by omega
      have h4 : ¬(i / 8 = j / 8 ∧ j % 8 = 0) := by omega
      simp [h1, h2, h3, h4]
    · by_cases h2 : i = j
      · subst h2
        simp
      · have h3 : ¬i < j + 1 := by omega
        by_cases h4 : i < j + (p.length + 1)
        · have h5 : i < j + 1 + p.length := by omega
          have h6 : i - j = (i - (j + 1)) + 1 := by omega
          simp only [h1, h3, h4, h5, ↓reduceIte]
          rw [h6]
          rfl
        · have h5 : ¬i < j + 1 + p.length := by omega
          simp only [h1, h2, h3, h4, h5, ↓reduceIte]
          by_cases h6 : j ≤ 8 * (i / 8) ∧ 8 * (i / 8) < j + (p.length + 1)
          · rw [if_pos h6]
            by_cases h7 : j + 1 ≤ 8 * (i / 8)
            · rw [if_pos (by omega)]
            · rw [if_neg (by omega), if_pos (by omega)]
          · rw [if_neg h6, if_neg (by omega), if_neg (by omega)]

/-- Bytes in which no bit was put are unchanged. -/
theorem bsAt_putBits (j : Nat) (p : BitString) (s : State) (q : Nat) (h : q < j / 8 ∨ (j + p.length + 7) / 8 ≤ q) :
    (putBits j p s).bsAt q = s.bsAt q := by
  induction p generalizing j s with
  | nil => rfl
  | cons b p ih =>
    simp only [List.length_cons] at h
    simp only [putBits]
    rw [ih (j + 1) (s.putBit j b) (by omega), State.bsAt_putBit]
    omega

theorem bsWf_putBits {j : Nat} {p : BitString} {s : State} (h : Memory.wf Config.bsCap s.bs)
    (hj : j + p.length ≤ 8 * Config.bsCap) : Memory.wf Config.bsCap (putBits j p s).bs := by
  induction p generalizing j s with
  | nil => exact h
  | cons b p ih =>
    simp only [List.length_cons] at hj
    exact ih (State.bsWf_putBit h (by omega) b) (by omega)

/-- The symbols at positions `i .. i+left-1`. -/
def symbolsFrom (s : State) (i left : Nat) : List Sym := (List.range' i left).map s.symAt

theorem symbolsFrom_putBits (j : Nat) (p : BitString) (s : State) (i left : Nat) :
    symbolsFrom (putBits j p s) i left = symbolsFrom s i left := by
  simp [symbolsFrom, symAt_putBits]

theorem codesOf_putBits (j : Nat) (p : BitString) (s : State) (seq : List Sym) :
    codesOf (putBits j p s) seq = codesOf s seq := by
  have : codeAt (putBits j p s) = codeAt s := funext fun v => by simp only [codeAt, codeElem_putBits]
  simp only [codesOf, this]

theorem sequence_eq_symbolsFrom (s : State) : sequence s = symbolsFrom s 0 s.symLen.toNat := by
  simp [sequence, symbolsFrom, List.range_eq_range']

/-- ENCODE's loop over symbols that all have entries and whose codes fit puts their codes, in order (42_encoder.md R162). -/
theorem encodeLoop_ok (left i bitpos : Nat) (s : State)
    (hk : ∀ v ∈ symbolsFrom s i left, lenOf (s.codeElem v) ≠ 0)
    (hc : bitpos + (codesOf s (symbolsFrom s i left)).length ≤ 8 * Config.bsCap) :
    encodeLoop left i bitpos s =
      .ok (bitpos + (codesOf s (symbolsFrom s i left)).length, putBits bitpos (codesOf s (symbolsFrom s i left)) s) := by
  induction left generalizing i bitpos s with
  | zero => rfl
  | succ left ih =>
    have hs : symbolsFrom s i (left + 1) = s.symAt i :: symbolsFrom s (i + 1) left := by
      simp [symbolsFrom, List.range'_succ]
    rw [hs] at hk hc ⊢
    have hcons : codesOf s (s.symAt i :: symbolsFrom s (i + 1) left) =
        codeOf (s.codeElem (s.symAt i)) ++ codesOf s (symbolsFrom s (i + 1) left) := by
      simp [codesOf, codeAt]
    rw [hcons, List.length_append, length_codeOf] at hc ⊢
    have h0 := hk _ List.mem_cons_self
    simp only [encodeLoop, encodeSymbol]
    rw [if_neg h0, if_neg (by omega), bind_ok]
    rw [ih]
    · rw [symbolsFrom_putBits, codesOf_putBits, putBits_append, length_codeOf]
      simp [Nat.add_assoc]
    · intro v hv
      rw [symbolsFrom_putBits] at hv
      rw [codeElem_putBits]
      exact hk v (List.mem_cons_of_mem _ hv)
    · rw [symbolsFrom_putBits, codesOf_putBits]
      simp only
      omega

/-- ENCODE's loop is its loop over the first symbols and then over the rest. -/
theorem encodeLoop_add (a b i bitpos : Nat) (s : State) :
    encodeLoop (a + b) i bitpos s = (encodeLoop a i bitpos s).bind fun r => encodeLoop b (i + a) r.1 r.2 := by
  induction a generalizing i bitpos s with
  | zero => simp [encodeLoop]
  | succ a ih =>
    rw [Nat.add_right_comm]
    simp only [encodeLoop]
    cases encodeSymbol i bitpos s with
    | error t => rfl
    | ok r =>
      simp only [bind_ok, ih]
      congr 1
      funext r'
      congr 1
      omega

end Sys2Proof.Machine
end

