-- ==== Sys2Proof/Laws/TreeBuilder.lean ====
section
/-!
SUPPORT. What BUILD's phases do (40_tree_builder.md R121): the forest after phase 1; what a merge does; and induction over the
merges of phase 3.
-/

namespace Sys2Proof.Machine

/-- The present symbols below `v`, ascending. -/
def presentBelow (s : State) (v : Nat) : List Nat := (List.range v).filter fun w => decide (s.ftAt w ≠ 0)

theorem present_eq_presentBelow (s : State) : present s = presentBelow s Config.nsym := rfl

theorem presentBelow_succ (s : State) (v : Nat) :
    presentBelow s (v + 1) = if s.ftAt v = 0 then presentBelow s v else presentBelow s v ++ [v] := by
  unfold presentBelow
  rw [List.range_succ, List.filter_append]
  by_cases h : s.ftAt v = 0
  · rw [if_pos h, List.filter_singleton]
    simp only [h, ne_eq, not_true_eq_false, decide_false, cond_false, List.append_nil]
  · rw [if_neg h, List.filter_singleton]
    simp only [h, ne_eq, not_false_eq_true, decide_true, cond_true]

theorem length_presentBelow_le (s : State) (v : Nat) : (presentBelow s v).length ≤ v := by
  simpa [presentBelow] using List.length_filter_le (fun w => decide (s.ftAt w ≠ 0)) (List.range v)

/-- The forest in phase 1 before symbol `v` is looked at (40_tree_builder.md R124): NA alone is written since phase 0, one leaf per
present symbol below `v`, in order; the queue holds the leaves. -/
structure Scanned (s : State) (v : Nat) (f : Forest) : Prop where
  only : f.st = { buildClear s with na := f.st.na }
  n : f.n = (presentBelow s v).length
  pq : f.pq = List.range f.n
  leaves : ∀ i w, (presentBelow s v)[i]? = some w → f.st.naAt i = leafNode (BitVec.ofNat 8 w) (s.ftAt w)
  free : ∀ k < Config.nodeCap, f.n ≤ k → f.st.naAt k = 0
  wf : Memory.wf Config.nodeCap f.st.na

theorem buildBegin_st (s : State) : (buildBegin s).st = buildClear s := by rw [buildBegin]

theorem scanned_begin (s : State) : Scanned s 0 (buildBegin s) where
  only := by rw [buildBegin_st]
  n := rfl
  pq := rfl
  leaves i w h := by simp [presentBelow] at h
  free k hk _ := by rw [buildBegin_st, naAt_buildClear s hk]
  wf := by
    rw [buildBegin_st, buildClear_na]
    exact Memory.wf_fill _ _

theorem scanned_leaf {s : State} {v : Nat} {f : Forest} (h : Scanned s v f) (hv : v < Config.nsym) :
    Scanned s (v + 1) (buildLeaf v f) := by
  have hft : f.st.ftAt v = s.ftAt v := by
    rw [h.only]
    exact State.ftAt_congr rfl rfl v
  have hn : f.n ≤ v := by
    rw [h.n]
    exact length_presentBelow_le s v
  have hv' : v < 256 := hv
  have hcap : f.n < Config.nodeCap := by
    show f.n < 512
    omega
  by_cases h0 : s.ftAt v = 0
  · have : buildLeaf v f = f := by simp [buildLeaf, hft, h0]
    rw [this]
    have hp : presentBelow s (v + 1) = presentBelow s v := by rw [presentBelow_succ, if_pos h0]
    exact ⟨h.only, by rw [hp]; exact h.n, h.pq, by rw [hp]; exact h.leaves, h.free, h.wf⟩
  · have hb : buildLeaf v f =
        { pq := f.pq ++ [f.n], n := f.n + 1, st := f.st.setNa f.n (leafNode (BitVec.ofNat 8 v) (s.ftAt v)) } := by
      unfold buildLeaf
      rw [hft, if_neg h0]
    have hp : presentBelow s (v + 1) = presentBelow s v ++ [v] := by rw [presentBelow_succ, if_neg h0]
    rw [hb]
    refine ⟨?_, ?_, ?_, fun i w hw => ?_, fun k hk hle => ?_, ?_⟩
    · show f.st.setNa _ _ = _
      rw [h.only]
      rfl
    · simp [hp, h.n]
    · simp [List.range_succ, h.pq]
    · rw [hp] at hw
      simp only [State.naAt_setNa]
      rw [h.n]
      by_cases hi : i = (presentBelow s v).length
      · subst hi
        simp only [List.getElem?_append_right (Nat.le_refl _), Nat.sub_self, List.getElem?_cons_zero,
          Option.some.injEq] at hw
        simp [hw]
      · have hlt : i < (presentBelow s v).length := by
          have := (List.getElem?_eq_some_iff.1 hw).1
          simp at this
          omega
        rw [if_neg hi]
        rw [List.getElem?_append_left hlt] at hw
        exact h.leaves i w hw
    · simp only at hle
      simp only [State.naAt_setNa]
      rw [if_neg (by omega)]
      exact h.free k hk (by omega)
    · exact Memory.wf_set h.wf hcap _

theorem scanned_scan {s : State} {left v : Nat} {f : Forest} (h : Scanned s v f) (hv : v + left = Config.nsym) :
    Scanned s Config.nsym (buildScan left v f) := by
  induction left generalizing v f with
  | zero =>
    rw [Nat.add_zero] at hv
    subst hv
    exact h
  | succ left ih => exact ih (scanned_leaf h (by omega)) (by omega)

/-- The forest after phase 1 (40_tree_builder.md R121, R124). -/
theorem scanned (s : State) : Scanned s Config.nsym (buildScan Config.nsym 0 (buildBegin s)) :=
  scanned_scan (scanned_begin s) (Nat.zero_add _)

/-! ## Merges -/

theorem pqLeast_mem (s : State) (k : Nat) (ks : List Nat) : pqLeast s k ks ∈ k :: ks := by
  induction ks generalizing k with
  | nil => simp [pqLeast]
  | cons j js ih =>
    simp only [pqLeast]
    split
    · exact List.mem_cons_of_mem _ (ih j)
    · rcases List.mem_cons.1 (ih k) with h | h
      · rw [h]
        exact List.mem_cons_self
      · exact List.mem_cons_of_mem _ (List.mem_cons_of_mem _ h)

/-- `extract_min` splits a non-empty queue into one index and the rest. -/
theorem extractMin_perm {s : State} {pq : List Nat} (h : pq ≠ []) :
    ((extractMin s pq).1 :: (extractMin s pq).2).Perm pq := by
  cases pq with
  | nil => exact absurd rfl h
  | cons k ks => exact (List.perm_cons_erase (pqLeast_mem s k ks)).symm

/-- What `extract_min` leaves keeps its order. -/
theorem extractMin_sublist (s : State) (pq : List Nat) : (extractMin s pq).2.Sublist pq := by
  cases pq with
  | nil => simp [extractMin]
  | cons k ks => exact List.erase_sublist

theorem length_extractMin {s : State} {pq : List Nat} (h : pq ≠ []) :
    (extractMin s pq).2.length + 1 = pq.length := by
  simpa using (extractMin_perm (s := s) h).length_eq

/-- One merge (40_tree_builder.md R121 phase 3), when it goes on: two indices `a`, `b` leave the queue, the sum of their weights
fits, and the new node `n` has `b` left and `a` right. -/
theorem buildMerge_ok {f g : Forest} (hq : 1 < f.pq.length) (h : buildMerge f = .ok g) :
    ∃ a b rest, (a :: b :: rest).Perm f.pq ∧ rest.Sublist f.pq ∧
      (weightOf (f.st.naAt a)).toNat + (weightOf (f.st.naAt b)).toNat < 2 ^ Config.weightW ∧
      g = { pq := rest ++ [f.n], n := f.n + 1,
            st := f.st.setNa f.n (intNode (BitVec.ofNat 9 b) (BitVec.ofNat 9 a)
              (BitVec.ofNat 32 ((weightOf (f.st.naAt a)).toNat + (weightOf (f.st.naAt b)).toNat))) } := by
  have h1 : f.pq ≠ [] := by
    intro hn
    simp [hn] at hq
  have hl := length_extractMin (s := f.st) h1
  have h2 : (extractMin f.st f.pq).2 ≠ [] := by
    intro hn
    simp [hn] at hl
    omega
  unfold buildMerge at h
  simp only at h
  split at h
  · simp at h
  · rename_i hw
    refine ⟨_, _, _, ?_, (extractMin_sublist _ _).trans (extractMin_sublist _ _), Nat.lt_of_not_le hw, (Except.ok.inj h).symm⟩
    exact ((extractMin_perm h2).cons _).trans (extractMin_perm h1)

/-- One merge, when it raises: WeightOverflowError with the index the new node would have had (40_tree_builder.md R126). -/
theorem buildMerge_error {f : Forest} {t : State} (h : buildMerge f = .error t) :
    t = f.st.raise .weightOverflow (BitVec.ofNat 32 f.n) := by
  unfold buildMerge at h
  simp only at h
  split at h
  · exact (Except.error.inj h).symm
  · simp at h

theorem length_buildMerge {f g : Forest} (hq : 1 < f.pq.length) (h : buildMerge f = .ok g) :
    g.pq.length + 1 = f.pq.length := by
  obtain ⟨a, b, rest, hp, -, -, rfl⟩ := buildMerge_ok hq h
  have := hp.length_eq
  simp at this ⊢
  omega

/-- Induction over the merges that go on: what each keeps holds at the end, and the queue then holds at most one index. -/
theorem buildMerges_ok {P : Forest → Prop} (hs : ∀ f g, P f → 1 < f.pq.length → buildMerge f = .ok g → P g)
    {room : Nat} {f g : Forest} (hf : P f) (hr : f.pq.length ≤ room + 1) (h : buildMerges room f = .ok g) :
    P g ∧ g.pq.length ≤ 1 := by
  induction room generalizing f with
  | zero =>
    simp only [buildMerges, Except.ok.injEq] at h
    subst h
    exact ⟨hf, by omega⟩
  | succ room ih =>
    simp only [buildMerges] at h
    split at h
    · rename_i hq
      obtain ⟨m, hm, h⟩ := bind_eq_ok.1 h
      exact ih (hs f m hf hq hm) (by have := length_buildMerge hq hm; omega) h
    · simp only [Except.ok.injEq] at h
      subst h
      exact ⟨hf, by omega⟩

/-- Merges that end with an error end in a merge that raised it. -/
theorem buildMerges_error {P : Forest → Prop} (hs : ∀ f g, P f → 1 < f.pq.length → buildMerge f = .ok g → P g)
    {room : Nat} {f : Forest} {t : State} (hf : P f) (h : buildMerges room f = .error t) :
    ∃ g, P g ∧ 1 < g.pq.length ∧ t = g.st.raise .weightOverflow (BitVec.ofNat 32 g.n) := by
  induction room generalizing f with
  | zero => simp [buildMerges] at h
  | succ room ih =>
    simp only [buildMerges] at h
    split at h
    · rename_i hq
      rcases bind_eq_error.1 h with hm | ⟨m, hm, h⟩
      · exact ⟨f, hf, hq, buildMerge_error hm⟩
      · exact ih (hs f m hf hq hm) h
    · simp at h

end Sys2Proof.Machine
end

