-- ==== Sys2Proof/Laws/Invariant.lean ====
section
/-!
SUPPORT. The invariant's parts: the memories' canonical form and the operations that keep it, and the states in which a command
ends.
-/

namespace Sys2Proof.Machine

/-- Every memory of the machine keeps its canonical form (log 6). -/
structure MemoriesWf (s : State) : Prop where
  ft : Memory.wf Config.nsym s.ft
  na : Memory.wf Config.nodeCap s.na
  ct : Memory.wf Config.nsym s.ct
  sym : Memory.wf Config.symCap s.sym
  bs : Memory.wf Config.bsCap s.bs

theorem State.Inv.memories {s : State} (h : s.Inv) : MemoriesWf s := ⟨h.ftWf, h.naWf, h.ctWf, h.symWf, h.bsWf⟩

theorem MemoriesWf.setFt {s : State} (h : MemoriesWf s) {i : Nat} (hi : i < Config.nsym) (v : Weight) :
    MemoriesWf (s.setFt i v) := { h with ft := Memory.wf_set h.ft hi v }

theorem MemoriesWf.setNa {s : State} (h : MemoriesWf s) {i : Nat} (hi : i < Config.nodeCap) (v : NodeElem) :
    MemoriesWf (s.setNa i v) := { h with na := Memory.wf_set h.na hi v }

theorem MemoriesWf.setCt {s : State} (h : MemoriesWf s) {i : Nat} (hi : i < Config.nsym) (v : CodeElem) :
    MemoriesWf (s.setCt i v) := { h with ct := Memory.wf_set h.ct hi v }

theorem MemoriesWf.setSym {s : State} (h : MemoriesWf s) {i : Nat} (hi : i < Config.symCap) (v : Sym) :
    MemoriesWf (s.setSym i v) := { h with sym := Memory.wf_set h.sym hi v }

theorem MemoriesWf.setBs {s : State} (h : MemoriesWf s) {i : Nat} (hi : i < Config.bsCap) (v : Byte) :
    MemoriesWf (s.setBs i v) := { h with bs := Memory.wf_set h.bs hi v }

theorem MemoriesWf.putBits {s : State} (h : MemoriesWf s) {j : Nat} {p : BitString}
    (hj : j + p.length ≤ 8 * Config.bsCap) : MemoriesWf (putBits j p s) := by
  have hb := bsWf_putBits (j := j) (p := p) h.bs hj
  rw [putBits_eq]
  exact { h with bs := hb }

theorem MemoriesWf.buildClear {s : State} (h : MemoriesWf s) : MemoriesWf (buildClear s) :=
  ⟨h.ft, by rw [buildClear_na]; exact Memory.wf_fill _ _, h.ct, h.sym, h.bs⟩

theorem MemoriesWf.genClear {s : State} (h : MemoriesWf s) : MemoriesWf (genClear s) :=
  ⟨h.ft, h.na, by rw [genClear_ct]; exact Memory.wf_fill _ _, h.sym, h.bs⟩

/-- What a host write does to the memories' canonical form: it keeps it (20_memory.md R66). -/
theorem MemoriesWf.hostWrite {s : State} (h : MemoriesWf s) (sp : Space) (i : Nat) (v : BitVec sp.width) :
    MemoriesWf (s.hostWrite sp i v) := by
  unfold State.hostWrite
  split
  · exact h
  · rename_i hc
    have hi : i < sp.size := by
      simp only [Bool.or_eq_true, decide_eq_true_eq, not_or] at hc
      exact Nat.lt_of_not_le hc.2
    cases sp with
    | csr =>
      simp only
      unfold State.csrWrite
      split <;> exact ⟨h.ft, h.na, h.ct, h.sym, h.bs⟩
    | ft => exact h.setFt hi v
    | na => exact h.setNa hi v
    | ct => exact h.setCt hi v
    | sym => exact h.setSym hi v
    | bs => exact h.setBs hi v

/-- No error code is 0, 6 or above 9 (60_exceptions.md R251). -/
theorem Err.code_range (e : Err) : e.code ≠ 0 ∧ e.code.toNat ≤ 9 ∧ e.code ≠ 6 := by
  cases e <;> decide

/-- A raised error leaves a state that meets the invariant (60_exceptions.md R262). -/
theorem MemoriesWf.inv_raise {s : State} (h : MemoriesWf s) (e : Err) (info : Word) : (s.raise e info).Inv where
  ftWf := h.ft
  naWf := h.na
  ctWf := h.ct
  symWf := h.sym
  bsWf := h.bs
  busyDone hb := by simp at hb
  errIdle _ := by simp
  errCode := by simpa using e.code_range.1
  errInfo he := by simp at he
  errRange := by simpa using e.code_range.2
  busyHidden := by simp
  hidden := by
    simp only [hiddenOk, State.raise_hidden]

/-- A command that completes without a latched error leaves a state that meets the invariant (30_encoding.md R95). -/
theorem MemoriesWf.inv_complete {s : State} (h : MemoriesWf s) (he : s.err = false) (hc : s.errCode = 0)
    (hi : s.errInfo = 0) : s.complete.Inv where
  ftWf := h.ft
  naWf := h.na
  ctWf := h.ct
  symWf := h.sym
  bsWf := h.bs
  busyDone hb := by simp at hb
  errIdle _ := by simp
  errCode := by simp [he, hc]
  errInfo _ := by simp [hi]
  errRange := by simp [hc]
  busyHidden := by simp
  hidden := by
    simp only [hiddenOk, State.complete_hidden]

end Sys2Proof.Machine
end

