-- ==== Sys2Proof/Laws/Optimality.lean ====
section
/-!
SUPPORT. Greedy merging is optimal, apart from the machine: merging the two least weights until one is left costs no more, in
the sum of the merged weights, than any code lengths that satisfy Kraft's inequality (40_tree_builder.md R129, 46_guarantees.md
R232). A code is a multiset of pairs (weight, length).
-/

namespace Sys2Proof.Machine

/-- The weighted length of a code. -/
def weightedLength (p : Multiset (Nat × Nat)) : Nat := (p.map fun x => x.1 * x.2).sum

/-- Kraft's inequality for lengths of at most `m`, in whole numbers. -/
def kraft (m : Nat) (lens : Multiset Nat) : Prop :=
  (lens.map fun l => 2 ^ (m - l)).sum ≤ 2 ^ m ∧ ∀ l ∈ lens, l ≤ m

/-- Greedy merging of a multiset of weights, with the sum of the weights made (40_tree_builder.md R120). -/
inductive Greedy : Multiset Nat → Nat → Prop
  | one (w : Nat) : Greedy {w} 0
  | merge (a b : Nat) (s : Multiset Nat) (c : Nat) (least : ∀ x ∈ s, a ≤ x ∧ b ≤ x) (rest : Greedy ((a + b) ::ₘ s) c) :
      Greedy (a ::ₘ b ::ₘ s) (c + (a + b))

theorem weightedLength_cons (x : Nat × Nat) (p : Multiset (Nat × Nat)) :
    weightedLength (x ::ₘ p) = x.1 * x.2 + weightedLength p := by
  simp [weightedLength]

/-- A lighter weight can take a longest length from a heavier one. -/
theorem exchange {p : Multiset (Nat × Nat)} {w a L : Nat} (hw : (w, L) ∈ p) (hL : ∀ l ∈ p.map Prod.snd, l ≤ L)
    (ha : a ∈ p.map Prod.fst) (hle : a ≤ w) :
    ∃ q : Multiset (Nat × Nat), a ::ₘ q.map Prod.fst = p.map Prod.fst ∧ L ::ₘ q.map Prod.snd = p.map Prod.snd ∧
      a * L + weightedLength q ≤ weightedLength p := by
  obtain ⟨r, rfl⟩ := Multiset.exists_cons_of_mem hw
  by_cases haw : a = w
  · subst haw
    exact ⟨r, by simp, by simp, by simp [weightedLength_cons]⟩
  · obtain ⟨⟨a', la⟩, hm, rfl⟩ := Multiset.mem_map.1 ha
    have hr : (a', la) ∈ r := by
      rcases Multiset.mem_cons.1 hm with h | h
      · exact absurd (congrArg Prod.fst h) haw
      · exact h
    obtain ⟨r0, rfl⟩ := Multiset.exists_cons_of_mem hr
    refine ⟨(w, la) ::ₘ r0, ?_, ?_, ?_⟩
    · simp only [Multiset.map_cons]
      exact Multiset.cons_swap _ _ _
    · simp only [Multiset.map_cons]
    · have hl : la ≤ L := hL la (by simp)
      simp only [weightedLength_cons]
      obtain ⟨d, rfl⟩ := Nat.exists_eq_add_of_le hle
      obtain ⟨e, rfl⟩ := Nat.exists_eq_add_of_le hl
      simp only at *
      nlinarith [Nat.zero_le (d * e)]

/-- If just one length is longest, it can be shortened by one. -/
theorem shorten {m L : Nat} {r : Multiset Nat} (hL : 1 ≤ L) (hr : ∀ l ∈ r, l < L) (hk : kraft m (L ::ₘ r)) :
    kraft m ((L - 1) ::ₘ r) := by
  obtain ⟨hs, hm⟩ := hk
  have hLm : L ≤ m := hm L (Multiset.mem_cons_self L r)
  have hd : 2 ^ (m - L + 1) ∣ (r.map fun l => 2 ^ (m - l)).sum := by
    apply Multiset.dvd_sum
    intro x hx
    obtain ⟨l, hl, rfl⟩ := Multiset.mem_map.1 hx
    have := hr l hl
    exact pow_dvd_pow 2 (by omega)
  obtain ⟨k, hk⟩ := hd
  have hp : (2 : Nat) ^ m = 2 ^ (m - L + 1) * 2 ^ (L - 1) := by
    rw [← pow_add]
    congr 1
    omega
  refine ⟨?_, fun l hl => ?_⟩
  · simp only [Multiset.map_cons, Multiset.sum_cons] at hs ⊢
    rw [hk, hp] at hs
    rw [hk, hp]
    have h0 : 0 < 2 ^ (m - L) := Nat.pos_of_ne_zero (by positivity)
    have hlt : k < 2 ^ (L - 1) := by
      by_contra hge
      have := Nat.mul_le_mul_left (2 ^ (m - L + 1)) (Nat.le_of_not_lt hge)
      omega
    have he : m - (L - 1) = m - L + 1 := by omega
    rw [he]
    calc 2 ^ (m - L + 1) + 2 ^ (m - L + 1) * k = 2 ^ (m - L + 1) * (k + 1) := by ring
      _ ≤ 2 ^ (m - L + 1) * 2 ^ (L - 1) := Nat.mul_le_mul_left _ hlt
  · rcases Multiset.mem_cons.1 hl with rfl | hl
    · omega
    · exact hm l (Multiset.mem_cons_of_mem hl)

/-- Some length is longest. -/
theorem exists_longest {p : Multiset (Nat × Nat)} (hp : p ≠ 0) :
    ∃ w L, (w, L) ∈ p ∧ ∀ l ∈ p.map Prod.snd, l ≤ L := by
  induction p using Multiset.induction with
  | empty => exact absurd rfl hp
  | cons x p ih =>
    by_cases h0 : p = 0
    · subst h0
      exact ⟨x.1, x.2, by simp, by simp⟩
    · obtain ⟨w, L, hw, hL⟩ := ih h0
      by_cases hx : x.2 ≤ L
      · refine ⟨w, L, Multiset.mem_cons_of_mem hw, fun l hl => ?_⟩
        rw [Multiset.map_cons] at hl
        rcases Multiset.mem_cons.1 hl with rfl | hl
        · exact hx
        · exact hL l hl
      · refine ⟨x.1, x.2, Multiset.mem_cons_self x p, fun l hl => ?_⟩
        rw [Multiset.map_cons] at hl
        rcases Multiset.mem_cons.1 hl with rfl | hl
        · exact Nat.le_refl _
        · exact Nat.le_trans (hL l hl) (by omega)

/-- The two least weights can be given one and the same longest length, at no cost. -/
theorem siblings {m a b : Nat} {s : Multiset Nat} (hab : a ≤ b) (hs : ∀ x ∈ s, a ≤ x ∧ b ≤ x) (n : Nat) :
    ∀ p : Multiset (Nat × Nat), (p.map Prod.snd).sum = n → p.map Prod.fst = a ::ₘ b ::ₘ s → kraft m (p.map Prod.snd) →
      ∃ (L : Nat) (q : Multiset (Nat × Nat)), 1 ≤ L ∧ q.map Prod.fst = s ∧ kraft m (L ::ₘ L ::ₘ q.map Prod.snd) ∧
        a * L + (b * L + weightedLength q) ≤ weightedLength p := by
  induction n using Nat.strong_induction_on with
  | _ n ih =>
    intro p hn hf hk
    have hp : p ≠ 0 := by
      rintro rfl
      simp at hf
    obtain ⟨w, L, hw, hL⟩ := exists_longest hp
    have hLs : L ∈ p.map Prod.snd := Multiset.mem_map.2 ⟨_, hw, rfl⟩
    have hL1 : 1 ≤ L := by
      by_contra h0
      have hz : ∀ l ∈ p.map Prod.snd, l = 0 := fun l hl => by
        have := hL l hl
        omega
      have hsum : ((p.map Prod.snd).map fun l => 2 ^ (m - l)).sum = (p.map Prod.snd).card * 2 ^ m := by
        rw [Multiset.map_congr rfl (g := fun _ => 2 ^ m) fun l hl => by rw [hz l hl, Nat.sub_zero]]
        simp
      have hc : (p.map Prod.snd).card = s.card + 2 := by
        have := congrArg Multiset.card hf
        simpa using this
      have h1 := hk.1
      rw [hsum, hc] at h1
      have h2 : 0 < 2 ^ m := Nat.pos_of_ne_zero (by positivity)
      nlinarith [Nat.zero_le (s.card * 2 ^ m)]
    obtain ⟨r, rfl⟩ := Multiset.exists_cons_of_mem hw
    by_cases h2 : L ∈ r.map Prod.snd
    · have haw : a ≤ w := by
        have : w ∈ a ::ₘ b ::ₘ s := hf ▸ Multiset.mem_map.2 ⟨_, hw, rfl⟩
        rcases Multiset.mem_cons.1 this with rfl | h
        · exact Nat.le_refl _
        · rcases Multiset.mem_cons.1 h with rfl | h
          · exact hab
          · exact (hs w h).1
      obtain ⟨p1, hf1, hl1, hc1⟩ := exchange hw hL (a := a) (by rw [hf]; simp) haw
      have hf1' : p1.map Prod.fst = b ::ₘ s := by
        rw [hf] at hf1
        exact (Multiset.cons_inj_right a).1 hf1
      have hl1' : p1.map Prod.snd = r.map Prod.snd := by
        rw [Multiset.map_cons] at hl1
        exact (Multiset.cons_inj_right L).1 hl1
      rw [← hl1'] at h2
      obtain ⟨⟨w', L'⟩, hw', rfl⟩ := Multiset.mem_map.1 h2
      have hbw : b ≤ w' := by
        have : w' ∈ b ::ₘ s := hf1' ▸ Multiset.mem_map.2 ⟨_, hw', rfl⟩
        rcases Multiset.mem_cons.1 this with rfl | h
        · exact Nat.le_refl _
        · exact (hs w' h).2
      obtain ⟨q, hfq, hlq, hcq⟩ := exchange hw'
        (fun l hl => hL l (by rw [← hl1]; exact Multiset.mem_cons_of_mem hl)) (a := b) (by rw [hf1']; simp) hbw
      refine ⟨L', q, hL1, ?_, ?_, ?_⟩
      · rw [hf1'] at hfq
        exact (Multiset.cons_inj_right b).1 hfq
      · rw [hlq, hl1]
        exact hk
      · simp only at *
        omega
    · have hr : ∀ l ∈ r.map Prod.snd, l < L := fun l hl => by
        have h3 := hL l (by rw [Multiset.map_cons]; exact Multiset.mem_cons_of_mem hl)
        have h4 : l ≠ L := fun h => h2 (h ▸ hl)
        omega
      have hk' := shorten hL1 hr (by rw [← Multiset.map_cons Prod.snd (w, L)]; exact hk)
      obtain ⟨L', q, g1, g2, g3, g4⟩ := ih (L - 1 + (r.map Prod.snd).sum)
        (by rw [← hn]; simp only [Multiset.map_cons, Multiset.sum_cons]; omega) ((w, L - 1) ::ₘ r)
        (by simp) (by rw [← hf]; simp) (by rw [Multiset.map_cons]; exact hk')
      refine ⟨L', q, g1, g2, g3, Nat.le_trans g4 ?_⟩
      simp only [weightedLength_cons]
      exact Nat.add_le_add_right (Nat.mul_le_mul_left w (Nat.sub_le L 1)) _

/-- Greedy merging costs no more than any code lengths that satisfy Kraft's inequality. -/
theorem Greedy.le_weightedLength {ws : Multiset Nat} {c : Nat} (h : Greedy ws c) :
    ∀ (m : Nat) (p : Multiset (Nat × Nat)), p.map Prod.fst = ws → kraft m (p.map Prod.snd) → c ≤ weightedLength p := by
  induction h with
  | one w => exact fun _ _ _ _ => Nat.zero_le _
  | merge a b s c least rest ih =>
    have key : ∀ a b : Nat, a ≤ b → (∀ x ∈ s, a ≤ x ∧ b ≤ x) →
        (∀ (m : Nat) (p : Multiset (Nat × Nat)), p.map Prod.fst = (a + b) ::ₘ s → kraft m (p.map Prod.snd) →
          c ≤ weightedLength p) →
        ∀ (m : Nat) (p : Multiset (Nat × Nat)), p.map Prod.fst = a ::ₘ b ::ₘ s → kraft m (p.map Prod.snd) →
          c + (a + b) ≤ weightedLength p := by
      intro a b hab hl ih m p hf hk
      obtain ⟨L, q, hL, hq, hkq, hc⟩ := siblings hab hl _ p rfl hf hk
      have hLm : L ≤ m := hkq.2 L (Multiset.mem_cons_self _ _)
      have h1 := ih m ((a + b, L - 1) ::ₘ q) (by simp [hq]) (by
        refine ⟨?_, fun l hl => ?_⟩
        · have h2 := hkq.1
          have he : 2 ^ (m - (L - 1)) = 2 ^ (m - L) + 2 ^ (m - L) := by
            rw [show m - (L - 1) = m - L + 1 by omega, pow_succ]
            ring
          simp only [Multiset.map_cons, Multiset.sum_cons] at h2 ⊢
          omega
        · rw [Multiset.map_cons] at hl
          rcases Multiset.mem_cons.1 hl with rfl | hl
          · show L - 1 ≤ m
            omega
          · exact hkq.2 l (Multiset.mem_cons_of_mem (Multiset.mem_cons_of_mem hl)))
      rw [weightedLength_cons] at h1
      obtain ⟨k, rfl⟩ := Nat.exists_eq_add_of_le hL
      simp only [Nat.add_sub_cancel_left] at h1
      nlinarith
    intro m p hf hk
    rcases Nat.le_total a b with hab | hab
    · exact key a b hab least ih m p hf hk
    · have := key b a hab (fun x hx => ⟨(least x hx).2, (least x hx).1⟩) (by rw [Nat.add_comm b a]; exact ih) m p
        (by rw [hf]; exact Multiset.cons_swap _ _ _) hk
      omega

end Sys2Proof.Machine
end

