-- ==== Sys2Proof/Laws/PerInstr.lean ====
section
/-!
SUPPORT. Statements for all commands, one lemma per constructor of `Instr`.
-/

namespace Sys2Proof.Laws.CommandWord

/-- A command's word is legal (30_encoding.md R96), its opcode is the command's (R91), and `decode` refuses every word that
differs from it in a bit of `RSVZ` alone (R90). -/
def Statement (i : Instr) : Prop :=
  i.wellFormed = true ∧ legalWord (encode i) = true ∧ opField (encode i) = opcodeOf i ∧
  ∀ k < 28, decode (encode i ||| (1#32 <<< (4 + k))) = .error .reservedBitSet

theorem nop : Statement .nop := by unfold Statement; decide
theorem build : Statement .build := by unfold Statement; decide
theorem gen : Statement .gen := by unfold Statement; decide
theorem encode : Statement .encode := by unfold Statement; decide
theorem decode : Statement .decode := by unfold Statement; decide
theorem clrerr : Statement .clrerr := by unfold Statement; decide

end Sys2Proof.Laws.CommandWord
end

