-- ==== Sys2Proof/Laws/Tick.lean ====
section
/-!
SUPPORT. The loop bodies of the commands neither read nor depend on the hidden state that the one-iteration-at-a-time machine
keeps beside them (`Tick.lean`): each commutes with writing it. And the arithmetic of `ticks`.
-/

namespace Sys2Proof.Machine

theorem State.ticks_add (a b : Nat) (s : State) : State.ticks (a + b) s = State.ticks b (State.ticks a s) := by
  induction a generalizing s with
  | zero => simp [State.ticks]
  | succ a ih =>
    rw [Nat.add_right_comm]
    simp only [State.ticks, ih]

/-- An idle block stays as it is under ticks (70_reset_and_hazards.md R281). -/
theorem State.ticks_idle {s : State} (h : s.hidden = .idle) (k : Nat) : State.ticks k s = s := by
  induction k with
  | zero => rfl
  | succ k ih => rw [State.ticks, State.tick, h]; exact ih

@[simp] theorem State.setHidden_setHidden (s : State) (g h : Hidden) : (s.setHidden g).setHidden h = s.setHidden h := rfl
@[simp] theorem State.raise_setHidden (s : State) (h : Hidden) (e : Err) (info : Word) :
    (s.setHidden h).raise e info = s.raise e info := rfl
@[simp] theorem State.complete_setHidden (s : State) (h : Hidden) : (s.setHidden h).complete = s.complete := rfl
@[simp] theorem State.ftAt_setHidden (s : State) (h : Hidden) : (s.setHidden h).ftAt = s.ftAt := rfl
@[simp] theorem State.naAt_setHidden (s : State) (h : Hidden) : (s.setHidden h).naAt = s.naAt := rfl
@[simp] theorem State.node_setHidden (s : State) (h : Hidden) : (s.setHidden h).node = s.node := rfl
@[simp] theorem State.codeElem_setHidden (s : State) (h : Hidden) : (s.setHidden h).codeElem = s.codeElem := rfl
@[simp] theorem State.symAt_setHidden (s : State) (h : Hidden) : (s.setHidden h).symAt = s.symAt := rfl
@[simp] theorem State.bsAt_setHidden (s : State) (h : Hidden) : (s.setHidden h).bsAt = s.bsAt := rfl
@[simp] theorem State.getBit_setHidden (s : State) (h : Hidden) : (s.setHidden h).getBit = s.getBit := rfl
@[simp] theorem State.setNa_setHidden (s : State) (h : Hidden) (i : Nat) (v : NodeElem) :
    (s.setHidden h).setNa i v = (s.setNa i v).setHidden h := rfl
@[simp] theorem State.setCt_setHidden (s : State) (h : Hidden) (i : Nat) (v : CodeElem) :
    (s.setHidden h).setCt i v = (s.setCt i v).setHidden h := rfl
@[simp] theorem State.setSym_setHidden (s : State) (h : Hidden) (i : Nat) (v : Sym) :
    (s.setHidden h).setSym i v = (s.setSym i v).setHidden h := rfl
@[simp] theorem State.setDecState_setHidden (s : State) (h : Hidden) (d : DecState) :
    (s.setHidden h).setDecState d = (s.setDecState d).setHidden h := rfl
@[simp] theorem State.setBitLen_setHidden (s : State) (h : Hidden) (v : Word) :
    (s.setHidden h).setBitLen v = (s.setBitLen v).setHidden h := rfl
@[simp] theorem State.setSymLen_setHidden (s : State) (h : Hidden) (v : Word) :
    (s.setHidden h).setSymLen v = (s.setSymLen v).setHidden h := rfl
@[simp] theorem State.setRoot_setHidden (s : State) (h : Hidden) (v : NodeIdx) :
    (s.setHidden h).setRoot v = (s.setRoot v).setHidden h := rfl
@[simp] theorem State.setNodeCount_setHidden (s : State) (h : Hidden) (v : BitVec 10) :
    (s.setHidden h).setNodeCount v = (s.setNodeCount v).setHidden h := rfl

theorem State.putBit_setHidden (s : State) (h : Hidden) (j : Nat) (b : Bool) :
    (s.setHidden h).putBit j b = (s.putBit j b).setHidden h := by
  unfold State.putBit
  split <;> rfl

theorem putBits_setHidden (j : Nat) (p : BitString) (s : State) (h : Hidden) :
    putBits j p (s.setHidden h) = (putBits j p s).setHidden h := by
  induction p generalizing j s with
  | nil => rfl
  | cons b p ih => simp only [putBits, State.putBit_setHidden, ih]

/-- `f` with the hidden state `h` beside it. -/
def Forest.beside (f : Forest) (h : Hidden) : Forest := { f with st := f.st.setHidden h }

/-- `c` with the hidden state `h` beside it. -/
def Cursor.beside (c : Cursor) (h : Hidden) : Cursor := { c with st := c.st.setHidden h }

@[simp] theorem Forest.beside_st (f : Forest) (h : Hidden) : (f.beside h).st = f.st.setHidden h := rfl
@[simp] theorem Forest.beside_pq (f : Forest) (h : Hidden) : (f.beside h).pq = f.pq := rfl
@[simp] theorem Forest.beside_n (f : Forest) (h : Hidden) : (f.beside h).n = f.n := rfl
@[simp] theorem Cursor.beside_st (c : Cursor) (h : Hidden) : (c.beside h).st = c.st.setHidden h := rfl
@[simp] theorem Cursor.beside_cur (c : Cursor) (h : Hidden) : (c.beside h).cur = c.cur := rfl
@[simp] theorem Cursor.beside_m (c : Cursor) (h : Hidden) : (c.beside h).m = c.m := rfl

/-- Phase 1 of BUILD ignores the hidden state. -/
theorem buildLeaf_beside (v : Nat) (f : Forest) (h : Hidden) : buildLeaf v (f.beside h) = (buildLeaf v f).beside h := by
  unfold buildLeaf
  by_cases h0 : f.st.ftAt v = 0
  · simp only [Forest.beside_st, State.ftAt_setHidden, h0, ↓reduceIte]
  · simp only [Forest.beside_st, State.ftAt_setHidden, h0, ↓reduceIte]
    rfl

theorem pqLeast_setHidden (s : State) (h : Hidden) (k : Nat) (ks : List Nat) :
    pqLeast (s.setHidden h) k ks = pqLeast s k ks := by
  induction ks generalizing k with
  | nil => rfl
  | cons j js ih =>
    simp only [pqLeast, ih]
    rfl

theorem extractMin_setHidden (s : State) (h : Hidden) (pq : List Nat) :
    extractMin (s.setHidden h) pq = extractMin s pq := by
  cases pq with
  | nil => rfl
  | cons k ks => simp only [extractMin, pqLeast_setHidden]

/-- Phase 2 of BUILD ignores the hidden state. -/
theorem buildEdges_beside (f : Forest) (h : Hidden) :
    buildEdges (f.beside h) = (buildEdges f).map fun f => f.beside h := by
  unfold buildEdges
  simp only [Forest.beside_n]
  by_cases h0 : f.n = 0
  · simp only [h0, ↓reduceIte]
    rfl
  · by_cases h1 : f.n = 1
    · simp only [h1, ↓reduceIte]
      rfl
    · simp only [h0, h1, ↓reduceIte]
      rfl

/-- A merge of BUILD ignores the hidden state. -/
theorem buildMerge_beside (f : Forest) (h : Hidden) :
    buildMerge (f.beside h) = (buildMerge f).map fun f => f.beside h := by
  unfold buildMerge
  simp only [Forest.beside_st, Forest.beside_pq, extractMin_setHidden, State.naAt_setHidden]
  split <;> rfl

/-- A visit of GEN ignores the hidden state. -/
theorem genVisit_setHidden (k : NodeIdx) (path : BitString) (s : State) (h : Hidden) :
    genVisit k path (s.setHidden h) = (genVisit k path s).map fun r => (r.1, r.2.setHidden h) := by
  unfold genVisit
  simp only [State.node_setHidden, State.codeElem_setHidden]
  cases kindOf (s.node k) with
  | free => rfl
  | leaf =>
    by_cases h0 : lenOf (s.codeElem (symOf (s.node k))) = 0
    · simp only [h0, ↓reduceIte]
      rfl
    · simp only [h0, ↓reduceIte]
      rfl
  | internal =>
    by_cases h0 : (lvOf (s.node k) && rvOf (s.node k)) = true
    · by_cases h1 : path.length = Config.codeLenMax
      · simp only [h0, h1, ↓reduceIte]
        rfl
      · simp only [h0, h1, ↓reduceIte]
        rfl
    · simp only [h0]
      rfl

/-- One symbol of ENCODE ignores the hidden state. -/
theorem encodeSymbol_setHidden (i bitpos : Nat) (s : State) (h : Hidden) :
    encodeSymbol i bitpos (s.setHidden h) = (encodeSymbol i bitpos s).map fun r => (r.1, r.2.setHidden h) := by
  unfold encodeSymbol
  simp only [State.codeElem_setHidden, State.symAt_setHidden, putBits_setHidden]
  by_cases h0 : lenOf (s.codeElem (s.symAt i)) = 0
  · simp only [h0, ↓reduceIte]
    rfl
  · by_cases h1 : 8 * Config.bsCap < bitpos + lenOf (s.codeElem (s.symAt i))
    · simp only [h0, h1, ↓reduceIte]
      rfl
    · simp only [h0, h1, ↓reduceIte]
      rfl

/-- Arriving at a node ignores the hidden state. -/
theorem decodeArrive_beside (j : Nat) (nxt : NodeIdx) (c : Cursor) (h : Hidden) :
    decodeArrive j nxt (c.beside h) = (decodeArrive j nxt c).map fun c => c.beside h := by
  unfold decodeArrive
  simp only [Cursor.beside_st, State.node_setHidden, Cursor.beside_m]
  cases kindOf (c.st.node nxt) with
  | free => rfl
  | internal => rfl
  | leaf =>
    by_cases h0 : c.m = Config.symCap
    · simp only [h0, ↓reduceIte]
      rfl
    · simp only [h0, ↓reduceIte]
      rfl

/-- One bit of DECODE ignores the hidden state. -/
theorem decodeBit_beside (j : Nat) (c : Cursor) (h : Hidden) :
    decodeBit j (c.beside h) = (decodeBit j c).map fun c => c.beside h := by
  unfold decodeBit
  simp only [Cursor.beside_st, Cursor.beside_cur, State.node_setHidden, State.getBit_setHidden, decodeArrive_beside]
  by_cases h0 : kindOf (c.st.node c.cur) = .internal
  · by_cases h1 : childValid (c.st.node c.cur) (c.st.getBit j) = true
    · simp only [h0, h1, ↓reduceIte]
    · simp only [h0, h1, ↓reduceIte]
      rfl
  · simp only [h0, ↓reduceIte]
    rfl

/-- The end of DECODE ignores the hidden state. -/
theorem decodeEnd_beside (c : Cursor) (h : Hidden) :
    decodeEnd (c.beside h) = (decodeEnd c).map fun s => s.setHidden h := by
  unfold decodeEnd
  simp only [Cursor.beside_st, State.setHidden_decState]
  by_cases h0 : c.st.decState = .atRoot
  · simp only [h0, ↓reduceIte]
    rfl
  · simp only [h0, ↓reduceIte]
    rfl

end Sys2Proof.Machine
end

