-- ==== Sys2Proof/Tests/Slice0.lean ====
section
/-!
SUPPORT. The model's own tests: small steps with the results the spec's vectors give (95_test_vectors.md V1 to V43), a smoke test
of the well-formedness checks, and for every obligation that has hypotheses a state and operands that meet them all together.
-/

namespace Sys2Proof.Tests

set_option Elab.async false

open Sys2Proof.Machine

/-! ## States to test in -/

/-- `m` with the elements of the list written. -/
def writeAll {w : Nat} (l : List (Nat × BitVec w)) (m : Memory w) : Memory w :=
  match l with
  | [] => m
  | (i, v) :: rest => Memory.set (writeAll rest m) i v

/-- The state an outcome goes on in. -/
def after (o : Host.Outcome State Fault Refusal) (s : State) : State :=
  match o with
  | .next t => t
  | .fault _ => s
  | .refused _ => s

/-- The state after a command issued in `s`. -/
def run (i : Instr) (s : State) : State := after (exec i s) s

theorem exec_run (i : Instr) (s : State) : exec i s = .next (run i s) := by
  cases i <;> rfl

/-- An idle block with the counts given, every other count 0. -/
def withCounts (l : List (Nat × Weight)) : State := { State.reset with ft := writeAll l (Memory.fill 256 0) }

/-- The count of symbol value `v` in the list. -/
def countIn (l : List (Nat × Weight)) (v : Nat) : Weight :=
  match l with
  | [] => 0
  | (i, w) :: rest => if v = i then w else countIn rest v

theorem ftAt_withCounts (l : List (Nat × Weight)) {v : Nat} (hv : v < 256) : (withCounts l).ftAt v = countIn l v := by
  have h : Memory.get (writeAll l (Memory.fill 256 0)) v = some (countIn l v) := by
    induction l with
    | nil =>
      rw [writeAll, Memory.get_fill, if_pos hv]
      rfl
    | cons c rest ih =>
      rw [writeAll, Memory.get_set, ih, countIn]
      split <;> rfl
  rw [State.ftAt, withCounts, h]
  rfl

theorem present_withCounts (l : List (Nat × Weight)) :
    present (withCounts l) = (List.range 256).filter fun v => decide (countIn l v ≠ 0) :=
  List.filter_congr fun v hv => by rw [ftAt_withCounts l (List.mem_range.1 hv)]

theorem ftTotal_withCounts (l : List (Nat × Weight)) :
    ftTotal (withCounts l) = ((List.range 256).map fun v => (countIn l v).toNat).sum := by
  rw [ftTotal, List.map_congr_left fun v hv => by rw [ftAt_withCounts l (List.mem_range.1 hv)]]

/-- An idle block in which every count is 1. -/
def allOnes : State := { State.reset with ft := Memory.fill 256 1 }

theorem ftAt_allOnes {v : Nat} (hv : v < 256) : allOnes.ftAt v = 1 := by
  have h : allOnes.ft = Memory.fill 256 1 := by rw [allOnes]
  rw [State.ftAt, h, Memory.get_fill, if_pos hv]
  rfl

theorem present_allOnes : present allOnes = List.range 256 :=
  List.filter_eq_self.2 fun v hv => by rw [ftAt_allOnes (List.mem_range.1 hv)]; decide

theorem ftTotal_allOnes : ftTotal allOnes = 256 := by
  rw [ftTotal, List.map_congr_left (g := fun _ => 1) fun v hv => by rw [ftAt_allOnes (List.mem_range.1 hv)]; rfl]
  decide +kernel

/-- An idle block with the nodes given and a root. -/
def withTree (l : List (Nat × NodeElem)) (root : NodeIdx) : State := { State.reset with na := writeAll l [], root := root }

/-- The table {a:"0", b:"1"} of V1, and the symbols given. -/
def withSymbols (l : List Sym) : State :=
  { State.reset with
    ct := writeAll [(0x61, 0x1), (0x62, 0x101), (0x78, 0)] [], sym := l.zipIdx.map fun c => (c.2, c.1),
    symLen := BitVec.ofNat 32 l.length }

/-- `s` with the bytes given in BS and a BIT_LEN. -/
def withStream (s : State) (l : List Byte) (bitLen : Word) : State :=
  { s with bs := l.zipIdx.map fun c => (c.2, c.1), bitLen := bitLen }

/-- The tree of V40: {a:"0", b:"1"}. -/
def treeAB : State := withTree [(0, 0x40100E), (1, 0x611), (2, 0x621)] 0

/-- The tree of V3: {z:"0"}, degenerate. -/
def treeZ : State := withTree [(0, 0x00000001000007A1), (1, 0x0000000100000006)] 1

/-- The tree of V22 (d): the root its own left child. -/
def treeCycle : State := withTree [(0, 0x20000E), (1, 0x411)] 0

/-- An idle block with an error latched. -/
def latched : State := State.reset.raised 0x00000006 .illegalCommand 6

theorem latched_inv : latched.Inv := by
  have h : MemoriesWf State.reset :=
    ⟨Memory.wf_nil _, Memory.wf_nil _, Memory.wf_nil _, Memory.wf_nil _, Memory.wf_nil _⟩
  exact MemoriesWf.inv_raise (s := State.reset.accept 6) ⟨h.ft, h.na, h.ct, h.sym, h.bs⟩ _ _

/-! ## Well-formedness and decoding: the words written out from 30_encoding.md R90, R91 -/

theorem test_rsvz_refused : rsvzIsZero 0x00000010#32 = false ∧ legalWord 0x00000010#32 = false := by decide

theorem test_reserved_opcode_refused : opIsAssigned 0x00000006#32 = false ∧ legalWord 0x00000006#32 = false := by decide

theorem test_reserved_opcodes_rejected : ∀ k < 16, 6 ≤ k → decode (BitVec.ofNat 32 k) = .error .reservedOpcode := by decide

theorem test_table_word_build : decodeTableWord 32 0x00000001 = some .build ∧ decodeTableWord 32 0x00000010 = none := by decide

theorem test_encode_words : encode .nop = 0 ∧ encode .build = 1 ∧ encode .gen = 2 ∧ encode .encode = 3 ∧ encode .decode = 4 ∧
    encode .clrerr = 5 := by decide

/-! ## One step each -/

/-- V37: from reset NOP gives STATUS 2. -/
theorem test_nop_from_reset : (run .nop State.reset).statusWord = 0x00000002 := by decide +kernel

/-- V37: NOP is ignored while an error is latched. -/
theorem test_nop_ignored : (run .nop latched).statusWord = 0x00000066 := by decide +kernel

/-- V37: CLRERR after IllegalCommandError. -/
theorem test_clrerr_after_error :
    (run .clrerr latched).statusWord = 0x00000052 ∧ (run .clrerr latched).csrWord 2 = 0 ∧
    (run .clrerr latched).csrWord 3 = 0 := by decide +kernel

/-- V37: the word 0x10 is an illegal command, written to CMD at reset as `step` takes it. -/
theorem test_illegal_word :
    (after (step (State.reset.withFetchWord 32 0x10)) State.reset).statusWord = 0x00000006 ∧
    (after (step (State.reset.withFetchWord 32 0x10)) State.reset).csrWord 3 = 0x10 := by decide +kernel

/-- Two leaves of the weights given, before their merge. -/
def beforeMerge (wa wb : Weight) : State :=
  (withTree [(0, leafNode 0x61 wa), (1, leafNode 0x62 wb)] 0).setHidden (.buildMerge [0, 1] 2)

/-- V12: a sum of 2^32 at the only merge. -/
theorem test_build_overflow :
    let t := (beforeMerge 0xFFFFFFFF 1).tick
    t.err = true ∧ t.csrWord 2 = 8 ∧ t.csrWord 3 = 2 ∧ t.na = (beforeMerge 0xFFFFFFFF 1).na ∧ t.csrWord 6 = 0 := by
  decide +kernel

/-- V40, V1: the table of {a:"0", b:"1"}. -/
theorem test_gen_two :
    let t := run .gen treeAB
    t.ctAt 0x61 = 0x1 ∧ t.ctAt 0x62 = 0x101 ∧ t.ctAt 0x63 = 0 ∧ t.statusWord = 0x00000022 := by decide +kernel

/-- V22 (d): a cycle is found at path length 255. -/
theorem test_gen_cycle :
    let t := run .gen treeCycle
    t.statusWord = 0x00000026 ∧ t.csrWord 2 = 2 ∧ t.csrWord 3 = 0 ∧ t.ctAt 0x41 = 0 := by decide +kernel

/-- V1: "aaaab" is the stream 00001. -/
theorem test_encode_aaaab :
    let t := run .encode (withSymbols [0x61, 0x61, 0x61, 0x61, 0x62])
    t.csrWord 5 = 5 ∧ t.bsAt 0 = 0x08 ∧ t.statusWord = 0x00000032 := by decide +kernel

/-- V25, with the table of V1: the unknown symbol stands at position 2; the codes before it, 0 and 1, are in BS. -/
theorem test_encode_unknown :
    let t := run .encode (withSymbols [0x61, 0x62, 0x78, 0x61])
    t.statusWord = 0x00000036 ∧ t.csrWord 2 = 3 ∧ t.csrWord 3 = 2 ∧ t.csrWord 5 = 0 ∧ t.bsAt 0 = 0x40 := by decide +kernel

/-- V1: the stream 00001 is "aaaab". -/
theorem test_decode_aaaab :
    let t := run .decode (withStream treeAB [0x08] 5)
    (List.range 5).map t.symAt = [0x61, 0x61, 0x61, 0x61, 0x62] ∧ t.csrWord 4 = 5 ∧ t.statusWord = 0x00000042 := by
  decide +kernel

/-- V32: a bit no code starts with. -/
theorem test_decode_corrupt :
    let t := run .decode (withStream treeZ [0x40] 4)
    t.statusWord = 0x00000046 ∧ t.csrWord 2 = 5 ∧ t.csrWord 3 = 1 ∧ t.symAt 0 = 0x7A ∧ t.csrWord 4 = 0 := by decide +kernel

/-! ## The hypotheses of every obligation can be met -/

theorem wit_DecodeAndEncodeAgree : ∃ w : Word, decode w = .ok .clrerr := ⟨5, by decide⟩

theorem wit_StepRunsDecodedCommand : ∃ (s : State) (w : Word) (rest : List Event),
    decode w = .ok .build ∧ s.inputs = .host (.write .csr 0 w) :: rest :=
  ⟨{ State.reset with inputs := [.host (.write .csr 0 1)] }, 1, [], by decide, rfl⟩

theorem wit_ResetIdleAndAccepting : ∃ s : State, s ≠ State.reset ∧ s.inputs = [] ∧ s.hidden = .idle :=
  ⟨latched, fun h => absurd (congrArg State.err h) (by decide), rfl, rfl⟩

theorem wit_ResetRegistersZeroMemoriesFree : ∃ (s : State) (rest : List Event),
    s.busy = true ∧ s.inputs = .reset :: rest :=
  ⟨{ State.reset.accept 1 with inputs := [.reset] }, [], rfl, rfl⟩

theorem wit_IgnoredIssue_busy : ∃ (s : State) (w : Word), s.busy = true ∨ (s.err = true ∧ w ≠ 0x00000005#32) :=
  ⟨State.reset.accept 1, 5, .inl rfl⟩

theorem wit_IgnoredIssue_latched : ∃ (s : State) (w : Word),
    s.busy = false ∧ (s.busy = true ∨ (s.err = true ∧ w ≠ 0x00000005#32)) :=
  ⟨latched, 4, rfl, .inr ⟨rfl, by decide⟩⟩

theorem wit_AcceptanceSetsBusy_legal : ∃ (s : State) (w : Word) (i : Instr),
    s.busy = false ∧ s.err = false ∧ w ≠ 0x00000000#32 ∧ w ≠ 0x00000005#32 ∧ decode w = .ok i :=
  ⟨State.reset, 4, .decode, by decide⟩

theorem wit_AcceptanceSetsBusy_illegal : ∃ (s : State) (w : Word),
    s.busy = false ∧ s.err = false ∧ w ≠ 0x00000000#32 ∧ w ≠ 0x00000005#32 ∧ decode w = .error .reservedBitSet :=
  ⟨State.reset, 0xFFFFFFFF, by decide⟩

theorem wit_EveryAcceptedCommandCompletes : ∀ i : Instr, ∃ s : State, s.busy = false ∧ (s.err = false ∨ i = .clrerr) :=
  fun _ => ⟨State.reset, rfl, .inl rfl⟩

theorem wit_EveryAcceptedCommandCompletes_latched : ∃ (i : Instr) (s : State),
    s.busy = false ∧ s.err = true ∧ (s.err = false ∨ i = .clrerr) :=
  ⟨.clrerr, latched, rfl, rfl, .inr rfl⟩

theorem wit_EveryAcceptedCommandCompletes_atOnce : (State.reset.busy = false ∧ State.reset.err = false) ∧
    latched.busy = false ∧ latched.err = true := by
  decide

theorem wit_IllegalWordRaises : ∃ (s : State) (w : Word), s.busy = false ∧ s.err = false ∧
    ¬(w.extractLsb' 4 28 = 0 ∧ (w.extractLsb' 0 4).toNat ≤ 5) :=
  ⟨State.reset, 6, by decide⟩

theorem wit_IllegalWordRaises_reserved : ∃ (s : State) (w : Word), s.busy = false ∧ s.err = false ∧
    ¬(w.extractLsb' 4 28 = 0 ∧ (w.extractLsb' 0 4).toNat ≤ 5) ∧ (w.extractLsb' 0 4).toNat ≤ 5 :=
  ⟨State.reset, 0x10, by decide⟩

theorem wit_LatchedErrorStays : ∃ (s : State) (e : Event) (rest : List Event), s.Inv ∧ s.err = true ∧ s.inputs = e :: rest ∧
    e ≠ .reset ∧ e ≠ .issue 0x00000005#32 ∧ e ≠ .host (.write .csr 0 0x00000005#32) :=
  ⟨{ latched with inputs := [.issue 4] }, .issue 4, [], { latched_inv with hidden := trivial }, rfl, rfl, by decide, by decide,
    by decide⟩

theorem wit_NopOnlyCompletes : (State.reset.busy = false ∧ State.reset.err = false) ∧
    ((State.reset.accept 1).busy = true ∨ (State.reset.accept 1).err = true) ∧ (latched.busy = true ∨ latched.err = true) := by
  decide

theorem wit_ClrerrReleasesTheLatch : (latched.busy = false ∧ latched.err = true ∧ latched.decState = .atRoot) ∧
    (State.reset.accept 1).busy = true ∧ (4 : Word) ≠ 0x00000005#32 := by
  decide

theorem wit_HostReadOnlyRecords_idle : ∃ (s : State) (sp : Space) (i : Nat) (rest : List Event),
    s.inputs = .host (.read sp i) :: rest ∧ i < sp.size ∧ (s.busy = false ∨ (sp = .csr ∧ i = 1)) :=
  ⟨{ State.reset with inputs := [.host (.read .na 511)] }, .na, 511, [], rfl, by decide, .inl rfl⟩

theorem wit_HostReadOnlyRecords_busy : ∃ (s : State) (sp : Space) (i : Nat) (rest : List Event),
    s.busy = true ∧ s.inputs = .host (.read sp i) :: rest ∧ i < sp.size ∧ (s.busy = false ∨ (sp = .csr ∧ i = 1)) :=
  ⟨{ State.reset.accept 1 with inputs := [.host (.read .csr 1)] }, .csr, 1, [], rfl, rfl, by decide, .inr ⟨rfl, rfl⟩⟩

theorem wit_HostWriteThenReadGivesIt : ∃ (s : State) (sp : Space) (i : Nat) (sp' : Space) (j : Nat),
    s.busy = false ∧ sp ≠ .csr ∧ i < sp.size ∧ j < sp'.size ∧ (sp' ≠ sp ∨ j ≠ i) :=
  ⟨State.reset, .bs, 65535, .bs, 0, by decide⟩

theorem wit_HostWriteAccessRights : (∃ i : Nat, i = 1 ∨ i = 2 ∨ i = 3 ∨ 7 ≤ i) ∧
    (∃ (s : State) (sp : Space) (i : Nat), s.busy = false ∧ (s.busy = true ∨ sp.size ≤ i)) ∧
    (∃ (s : State) (sp : Space) (i : Nat), i < sp.size ∧ (s.busy = true ∨ sp.size ≤ i)) ∧ (∃ s : State, s.busy = false) ∧
    ∃ (sp : Space) (i : Nat), ¬(sp = .csr ∧ i = 0) :=
  ⟨⟨7, by decide⟩, ⟨State.reset, .ct, 256, rfl, .inr (by decide)⟩, ⟨State.reset.accept 1, .csr, 4, by decide, .inl rfl⟩,
    ⟨State.reset, rfl⟩, ⟨.csr, 1, by decide⟩⟩

theorem wit_BuildEmptyTableRaises : ∃ s : State, s.ready ∧ ∀ v < Config.nsym, s.ftAt v = 0 :=
  ⟨withCounts [], by decide, fun v hv => ftAt_withCounts [] hv⟩

theorem wit_BuildSingleSymbolWraps : ∃ (s : State) (v : Nat), s.ready ∧ v < Config.nsym ∧ s.ftAt v ≠ 0 ∧
    ∀ w < Config.nsym, w ≠ v → s.ftAt w = 0 :=
  ⟨withCounts [(255, 0xFFFFFFFF)], 255, by decide, by decide, by rw [ftAt_withCounts _ (by decide)]; decide,
    fun w hw hne => by rw [ftAt_withCounts _ hw]; simp [countIn, hne]⟩

theorem wit_BuildMakesFullTree : ∃ (s : State) (n : Nat), s.ready ∧ (present s).length = n ∧ 2 ≤ n ∧ ftTotal s < 2 ^ 32 :=
  ⟨withCounts [(0, 0xFFFFFFFE), (1, 1)], 2, by decide, by rw [present_withCounts]; decide +kernel, by decide,
    by rw [ftTotal_withCounts]; decide +kernel⟩

theorem wit_BuildMakesFullTree_all : ∃ (s : State) (n : Nat), s.ready ∧ (present s).length = n ∧ 2 ≤ n ∧ ftTotal s < 2 ^ 32 :=
  ⟨allOnes, 256, by decide, by rw [present_allOnes, List.length_range], by decide, by rw [ftTotal_allOnes]; decide⟩

theorem wit_BuildOverflowRaises : ∃ (s : State) (n : Nat), s.ready ∧ (present s).length = n ∧ 2 ≤ n ∧ 2 ^ 32 ≤ ftTotal s :=
  ⟨withCounts [(0, 0xFFFFFFFF), (1, 1)], 2, by decide, by rw [present_withCounts]; decide +kernel, by decide,
    by rw [ftTotal_withCounts]; decide +kernel⟩

theorem wit_ExtractMinTakesLeastPair : ∃ pq : List Nat, pq ≠ [] ∧ pq.Nodup := ⟨[0, 511], by decide⟩

/-- What the premises of MergePutsLightestRight say of `s`, and the sum of the two weights. -/
def merges (s : State) (sum : Nat) : Prop :=
  ∃ (pq : List Nat) (n a b : Nat), s.hidden = .buildMerge pq n ∧ pq.Nodup ∧ a ∈ pq ∧ b ∈ pq ∧ a ≠ b ∧
    (∀ j ∈ pq, j ≠ a → pqBefore s a j = true) ∧ (∀ j ∈ pq, j ≠ a → j ≠ b → pqBefore s b j = true) ∧
    (weightOf (s.naAt a)).toNat + (weightOf (s.naAt b)).toNat = sum

/-- V6: equal weights whose sum fits. -/
theorem wit_MergePutsLightestRight : merges (beforeMerge 1 1) 2 :=
  ⟨[0, 1], 2, 0, 1, rfl, by decide, by decide, by decide, by decide, by decide +kernel, by decide +kernel, by decide +kernel⟩

/-- A sum of 2^32. -/
theorem wit_MergePutsLightestRight_overflow : merges (beforeMerge 0x80000000 0x80000000) (2 ^ 32) :=
  ⟨[0, 1], 2, 0, 1, rfl, by decide, by decide, by decide, by decide, by decide +kernel, by decide +kernel, by decide +kernel⟩

theorem wit_BuildDependsOnFtAlone : ∃ s s' t t' : State, s.ready ∧ s'.ready ∧ s ≠ s' ∧
    (∀ v < Config.nsym, s.ftAt v = s'.ftAt v) ∧ exec .build s = .next t ∧ exec .build s' = .next t' :=
  ⟨withCounts [], { withCounts [] with root := 1 }, _, _, by decide, by decide,
    fun h => absurd (congrArg State.root h) (by decide), fun _ _ => rfl, exec_run _ _, exec_run _ _⟩

theorem wit_BuiltCodeIsOptimal : ∃ (s b g : State) (len : Nat → Nat) (m : Nat), s.ready ∧ 2 ≤ (present s).length ∧
    ftTotal s < 2 ^ 32 ∧ exec .build s = .next b ∧ exec .gen b = .next g ∧
    (∀ v ∈ present s, 1 ≤ len v ∧ len v ≤ m) ∧ ((present s).map fun v => 2 ^ (m - len v)).sum ≤ 2 ^ m :=
  ⟨withCounts [(0x61, 4), (0x62, 1)], _, _, fun _ => 1, 1, by decide, by rw [present_withCounts]; decide +kernel,
    by rw [ftTotal_withCounts]; decide +kernel, exec_run _ _, exec_run _ _, fun _ _ => ⟨Nat.le_refl 1, Nat.le_refl 1⟩,
    by rw [present_withCounts]; decide +kernel⟩

/-- V21 (a), (b): a FREE root, a LEAF root; and a root of the reserved kind 3. -/
theorem wit_GenBadRootRaises : (∃ s : State, s.ready ∧ kindOf (s.node s.root) ≠ .internal ∧ s.node s.root = 0) ∧
    (∃ s : State, s.ready ∧ kindOf (s.node s.root) ≠ .internal ∧ s.node s.root = 0x411) ∧
    ∃ s : State, s.ready ∧ kindOf (s.node s.root) ≠ .internal ∧ s.node s.root = 3 :=
  ⟨⟨withTree [(0, 0)] 0, by decide +kernel⟩, ⟨withTree [(0, 0x411)] 0, by decide +kernel⟩,
    ⟨withTree [(0, 3)] 0, by decide +kernel⟩⟩

theorem wit_GenDegenerateTree : ∃ s : State, s.ready ∧ kindOf (s.node s.root) = .internal ∧ lvOf (s.node s.root) = true ∧
    rvOf (s.node s.root) = false ∧ kindOf (s.node (leftOf (s.node s.root))) = .leaf :=
  ⟨treeZ, by decide +kernel⟩

/-- What the premises of GenDegenerateTree's second clause say of `s`. -/
def oneSidedBad (s : State) : Prop :=
  s.ready ∧ kindOf (s.node s.root) = .internal ∧
    (lvOf (s.node s.root) = false ∨ (rvOf (s.node s.root) = false ∧ kindOf (s.node (leftOf (s.node s.root))) ≠ .leaf))

/-- V21 (c), (d), and a root whose only child, on the left, is no leaf. -/
theorem wit_GenDegenerateTree_malformed : oneSidedBad (withTree [(0, nodeElem 2 0 1 0 0 1 0), (1, 0x411)] 0) ∧
    oneSidedBad (withTree [(0, nodeElem 2 0 0 0 0 0 0)] 0) ∧ oneSidedBad (withTree [(0, nodeElem 2 1 0 0 0 0 0)] 0) := by
  unfold oneSidedBad
  decide +kernel

/-- V22 (e): both valid bits 1, the right child FREE. -/
theorem wit_GenDegenerateTree_freeRight : ∃ s : State, s.ready ∧ kindOf (s.node s.root) = .internal ∧
    lvOf (s.node s.root) = true ∧ rvOf (s.node s.root) = true ∧ kindOf (s.node (leftOf (s.node s.root))) = .leaf ∧
    kindOf (s.node (rightOf (s.node s.root))) = .free :=
  ⟨withTree [(0, nodeElem 2 1 1 0 1 5 0), (1, 0x411), (5, 0)] 0, by decide +kernel⟩

/-- A run that has gone on. -/
theorem ok_of_isOk {α : Type} {r : Run α} (h : r.isOk = true) : ∃ a, r = .ok a := by
  cases r with
  | error t => simp [Except.isOk, Except.toBool] at h
  | ok a => exact ⟨a, rfl⟩

theorem treeAB_proper : properTree treeAB := by
  have hw : (walk Config.codeLenMax treeAB.root [] (genClear treeAB)).isOk = true := by decide +kernel
  obtain ⟨t, ht⟩ := ok_of_isOk hw
  exact (properTree_iff_walkable _).2 ⟨by decide +kernel, (walk_ok (by decide) ht).1⟩

theorem wit_GenWritesPathsOfProperTree : ∃ (s : State) (v : Sym) (p : BitString), s.ready ∧ properTree s ∧
    leafSym s p = some v :=
  ⟨treeAB, 0x61, [false], by decide, treeAB_proper, by decide +kernel⟩

/-- V22 (d): the cycle. -/
theorem wit_GenFaultsOnImproperTree : ∃ s : State, s.ready ∧ ¬properTree s ∧
    (kindOf (s.node s.root) = .internal → isDegenerate s = false) := by
  have h : leafSym treeCycle [true] = some 0x41 ∧ leafSym treeCycle [false, true] = some 0x41 := by decide +kernel
  exact ⟨treeCycle, by decide, fun hp => absurd (hp.2.2 _ _ _ h.1 h.2) (by decide), by decide +kernel⟩

/-- V22 (a): a child missing below the root. -/
def treeMissing : State := withTree [(0, 0x40100E), (1, 0x611), (2, nodeElem 2 1 0 0 3 0 0), (3, 0x621)] 0

/-- V22 (a): the first malformed node is node 2, at path "1"; the leaf before it has symbol a. -/
theorem wit_GenFaultsOnImproperTree_missing : (treeMissing.ready ∧ ¬properTree treeMissing ∧
      (kindOf (treeMissing.node treeMissing.root) = .internal → isDegenerate treeMissing = false)) ∧
    descend treeMissing treeMissing.root [true] = some 2 ∧ malformedNode treeMissing [true] 2 ∧
    before [false] [true] = true ∧ leafSym treeMissing [false] = some 0x61 := by
  have h : descend treeMissing treeMissing.root [true] = some 2 ∧ kindOf (treeMissing.node 2) = .internal ∧
      rvOf (treeMissing.node 2) = false := by decide +kernel
  refine ⟨⟨by decide, fun hp => ?_, by decide +kernel⟩, h.1, by rw [malformedNode, h.2.1]; exact .inr (.inl h.2.2),
    by decide, by decide +kernel⟩
  rcases hp.2.1 _ _ h.1 with h' | h'
  · rw [h.2.1] at h'
    cases h'
  · rw [h.2.2] at h'
    exact absurd h'.2.2.1 (by decide)

/-- V21 (b): a LEAF root. -/
theorem wit_GenFaultsOnImproperTree_root : ∃ s : State, s.ready ∧ ¬properTree s ∧
    (kindOf (s.node s.root) = .internal → isDegenerate s = false) ∧ kindOf (s.node s.root) = .leaf := by
  have h : kindOf ((withTree [(0, 0x411)] 0).node (withTree [(0, 0x411)] 0).root) = .leaf := by decide +kernel
  exact ⟨withTree [(0, 0x411)] 0, by decide, fun hp => absurd (h.symm.trans hp.1) (by decide),
    fun hi => absurd (h.symm.trans hi) (by decide), h⟩

theorem wit_GeneratedCodesArePrefixFree : ∃ (s t : State) (v w : Sym), s.ready ∧ exec .gen s = .next t ∧ t.err = false ∧
    v ≠ w ∧ lenOf (t.codeElem v) ≠ 0 ∧ lenOf (t.codeElem w) ≠ 0 :=
  ⟨treeAB, run .gen treeAB, 0x61, 0x62, by decide, exec_run _ _, by decide +kernel⟩

theorem wit_GeneratedTableIsComplete : ∃ (s t : State) (bits : BitString), s.ready ∧ properTree s ∧ exec .gen s = .next t ∧
    bits.length = Config.codeLenMax :=
  ⟨treeAB, _, List.replicate 255 true, by decide, treeAB_proper, exec_run _ _, List.length_replicate⟩

/-- The counts of V3. -/
def countsZ : State := withCounts [(0x7A, 4)]

theorem countsZ_build : (run .build countsZ).err = false := by
  have hp : presentBelow (countsZ.accept 1) Config.nsym = [0x7A] := by
    show present (withCounts [(0x7A, 4)]) = [0x7A]
    rw [present_withCounts]
    decide +kernel
  have hn : (buildScan Config.nsym 0 (buildBegin (countsZ.accept 1))).n = 1 := by rw [(scanned _).n, hp]; rfl
  have he := congrArg State.err (scanned (countsZ.accept 1)).only
  rw [buildClear_err, State.accept_err] at he
  have hr : exec .build countsZ = .next (buildRun (countsZ.accept 1)).finish := exec_of_ready (by decide) .build
  rw [run, hr, after, buildRun, buildEdges, hn, if_neg (by decide), if_pos rfl, bind_error, Run.finish_error,
    State.complete_err, State.setNodeCount_err, State.setRoot_err, State.setNa_err, he]
  decide

theorem wit_GenAfterBuildSucceeds : ∃ s b : State, s.ready ∧ exec .build s = .next b ∧ b.err = false :=
  ⟨countsZ, _, by decide, exec_run _ _, countsZ_build⟩

theorem sameTree_refl (s : State) : sameTree s s := by simp [sameTree]

theorem wit_GenDependsOnTreeAlone : ∃ s s' t t' : State, s.ready ∧ s'.ready ∧ s ≠ s' ∧ sameTree s s' ∧ exec .gen s = .next t ∧
    exec .gen s' = .next t' :=
  ⟨treeAB, { treeAB with nodeCount := 1 }, _, _, by decide, by decide, fun h => absurd (congrArg State.nodeCount h) (by decide),
    sameTree_refl treeAB, exec_run _ _, exec_run _ _⟩

theorem wit_EncodeConcatenatesCodes : ∃ s : State, s.ready ∧ s.symLen.toNat ≤ Config.symCap ∧ s.symLen ≠ 0 ∧
    (∀ v ∈ sequence s, lenOf (s.codeElem v) ≠ 0) ∧
    ((sequence s).map fun v => lenOf (s.codeElem v)).sum ≤ 8 * Config.bsCap :=
  ⟨withSymbols [0x61, 0x62], by decide +kernel⟩

theorem wit_EncodeUnknownSymbolRaises : ∃ (s : State) (front rest : List Sym) (v : Sym), s.ready ∧
    s.symLen.toNat ≤ Config.symCap ∧ sequence s = front ++ v :: rest ∧ lenOf (s.codeElem v) = 0 ∧
    (∀ u ∈ front, lenOf (s.codeElem u) ≠ 0) ∧ (codesOf s front).length ≤ 8 * Config.bsCap :=
  ⟨withSymbols [0x61, 0x62, 0x78, 0x61], [0x61, 0x62], [0x61], 0x78, by decide +kernel⟩

theorem wit_EncodeTooLongRaises : ∃ s : State, s.ready ∧ Config.symCap < s.symLen.toNat :=
  ⟨{ State.reset with symLen := 65537 }, by decide⟩

/-- V26 (b): 2057 symbols, the code of each 255 bits long. -/
def longCodes : State :=
  { State.reset with sym := Memory.fill 2057 0, ct := [(0, BitVec.allOnes 263)], symLen := 2057 }

theorem longCodes_sequence : sequence longCodes = List.replicate 2057 0#8 := by
  rw [List.eq_replicate_iff]
  have hn : longCodes.symLen.toNat = 2057 := by decide
  have hm : longCodes.sym = Memory.fill 2057 0 := by rw [longCodes]
  refine ⟨by simp only [Machine.sequence, List.length_map, List.length_range, hn], fun v hv => ?_⟩
  obtain ⟨i, hi, rfl⟩ := List.mem_map.1 hv
  have hlt : i < 2057 := by rwa [hn, List.mem_range] at hi
  simp only [State.symAt, hm, Memory.get_fill, if_pos hlt, Option.getD_some]
  rfl

theorem longCodes_len : lenOf (longCodes.codeElem 0#8) = 255 := by decide +kernel

theorem longCodes_front : (codesOf longCodes (List.replicate 2056 0#8)).length = 524280 := by
  have hl : (codeAt longCodes 0#8).length = 255 := by rw [codeAt, length_codeOf, longCodes_len]
  have h : ∀ n : Nat, (codesOf longCodes (List.replicate n 0#8)).length = n * 255 := fun n => by
    induction n with
    | zero => rfl
    | succ n ih =>
      rw [List.replicate_succ, codesOf, List.flatMap_cons, List.length_append, hl]
      rw [codesOf] at ih
      omega
  rw [h]

theorem wit_EncodeStreamFullRaises : ∃ (s : State) (front rest : List Sym) (v : Sym), s.ready ∧
    s.symLen.toNat ≤ Config.symCap ∧ sequence s = front ++ v :: rest ∧ (∀ u ∈ front, lenOf (s.codeElem u) ≠ 0) ∧
    lenOf (s.codeElem v) ≠ 0 ∧ (codesOf s front).length ≤ 8 * Config.bsCap ∧
    8 * Config.bsCap < (codesOf s front).length + lenOf (s.codeElem v) :=
  ⟨longCodes, List.replicate 2056 0#8, [], 0#8, by decide, by decide,
    by rw [longCodes_sequence]; exact List.replicate_succ' (n := 2056),
    fun u hu => by rw [List.eq_of_mem_replicate hu, longCodes_len]; decide,
    by rw [longCodes_len]; decide, by rw [longCodes_front]; decide, by rw [longCodes_front, longCodes_len]; decide⟩

/-- `longCodes` behind one symbol whose code is one bit long: the codes that fit end inside the last byte of BS. -/
def longCodesInByte : State :=
  { longCodes with sym := Memory.set (Memory.fill 2058 0) 0 1, ct := [(0, BitVec.allOnes 263), (1, 0x1)], symLen := 2058 }

theorem longCodesInByte_sequence : sequence longCodesInByte = 1#8 :: List.replicate 2057 0#8 := by
  have hn : longCodesInByte.symLen.toNat = 2058 := by decide
  have hm : longCodesInByte.sym = Memory.set (Memory.fill 2058 0) 0 1 := by rw [longCodesInByte]
  have hs : ∀ i < 2058, longCodesInByte.symAt i = if i = 0 then 1#8 else 0#8 := fun i hi => by
    simp only [State.symAt, hm, Memory.get_set, Memory.get_fill, if_pos hi]
    split <;> rfl
  rw [Machine.sequence, hn, List.range_succ_eq_map, List.map_cons, hs 0 (by decide), List.map_map]
  refine congrArg _ (List.eq_replicate_iff.2 ⟨by rw [List.length_map, List.length_range], fun v hv => ?_⟩)
  obtain ⟨i, hi, rfl⟩ := List.mem_map.1 hv
  rw [List.mem_range] at hi
  rw [Function.comp_apply, hs _ (by omega), if_neg (Nat.succ_ne_zero i)]

theorem longCodesInByte_len : lenOf (longCodesInByte.codeElem 0#8) = 255 ∧ lenOf (longCodesInByte.codeElem 1#8) = 1 := by
  decide +kernel

theorem longCodesInByte_front : (codesOf longCodesInByte (1#8 :: List.replicate 2056 0#8)).length = 524281 := by
  have h0 : (codeAt longCodesInByte 0#8).length = 255 := by rw [codeAt, length_codeOf, longCodesInByte_len.1]
  have h1 : (codeAt longCodesInByte 1#8).length = 1 := by rw [codeAt, length_codeOf, longCodesInByte_len.2]
  rw [codesOf, List.flatMap_cons, List.length_append, h1, List.length_flatMap, List.map_replicate, h0, List.sum_replicate]
  decide

theorem wit_EncodeStreamFullRaises_inByte : ∃ (s : State) (front rest : List Sym) (v : Sym), s.ready ∧
    s.symLen.toNat ≤ Config.symCap ∧ sequence s = front ++ v :: rest ∧ (∀ u ∈ front, lenOf (s.codeElem u) ≠ 0) ∧
    lenOf (s.codeElem v) ≠ 0 ∧ (codesOf s front).length ≤ 8 * Config.bsCap ∧
    8 * Config.bsCap < (codesOf s front).length + lenOf (s.codeElem v) ∧ (codesOf s front).length % 8 = 1 :=
  ⟨longCodesInByte, 1#8 :: List.replicate 2056 0#8, [], 0#8, by decide, by decide,
    by rw [longCodesInByte_sequence, List.cons_append, ← List.replicate_succ' (n := 2056)],
    fun u hu => by
      rcases List.mem_cons.1 hu with rfl | hu
      · rw [longCodesInByte_len.2]; decide
      · rw [List.eq_of_mem_replicate hu, longCodesInByte_len.1]; decide,
    by rw [longCodesInByte_len.1]; decide, by rw [longCodesInByte_front]; decide,
    by rw [longCodesInByte_front, longCodesInByte_len.1]; decide, by rw [longCodesInByte_front]⟩

theorem wit_EncodeEmptySequence : ∃ s : State, s.ready ∧ s.symLen = 0 := ⟨State.reset, by decide⟩

theorem forall₂_one {s : State} {p : BitString} {v : Sym} (hp : p ≠ []) (h : leafSym s p = some v) :
    List.Forall₂ (fun p v => p ≠ [] ∧ leafSym s p = some v) [p] [v] := .cons ⟨hp, h⟩ .nil

theorem wit_DecodeEmitsLeafSymbols : ∃ (s : State) (ps : List BitString) (vs : List Sym), s.ready ∧
    s.bitLen.toNat ≤ 8 * Config.bsCap ∧ List.Forall₂ (fun p v => p ≠ [] ∧ leafSym s p = some v) ps vs ∧
    stream s = ps.flatten ∧ vs.length ≤ Config.symCap :=
  ⟨withStream treeAB [0x40] 2, [[false], [true]], [0x61, 0x62], by decide, by decide,
    .cons ⟨by decide, by decide +kernel⟩ (.cons ⟨by decide, by decide +kernel⟩ .nil), by decide +kernel, by decide⟩

theorem wit_DecodeSuccessIsWholeCodes : ∃ s t : State, s.ready ∧ exec .decode s = .next t ∧ t.err = false :=
  ⟨withStream treeAB [0x08] 5, run .decode (withStream treeAB [0x08] 5), by decide, exec_run _ _, by decide +kernel⟩

/-- V34: the stream 0001 of the cyclic tree, cut inside its second code. -/
theorem wit_DecodeTruncatedRaises : ∃ (s : State) (ps : List BitString) (vs : List Sym) (q : BitString) (k : NodeIdx), s.ready ∧
    s.bitLen.toNat ≤ 8 * Config.bsCap ∧ List.Forall₂ (fun p v => p ≠ [] ∧ leafSym s p = some v) ps vs ∧
    stream s = ps.flatten ++ q ∧ vs.length ≤ Config.symCap ∧ q ≠ [] ∧ descend s s.root q = some k ∧
    kindOf (s.node k) = .internal :=
  ⟨withStream treeCycle [0x10] 6, [[false, false, false, true]], [0x41], [false, false], 0, by decide, by decide,
    forall₂_one (by decide) (by decide +kernel), by decide +kernel⟩

/-- V32: the right child of the root is not valid. -/
theorem wit_DecodeCorruptTreeRaises_child : ∃ (s : State) (ps : List BitString) (vs : List Sym) (q rest : BitString) (b : Bool)
    (k : NodeIdx), s.ready ∧ s.bitLen.toNat ≤ 8 * Config.bsCap ∧
    List.Forall₂ (fun p v => p ≠ [] ∧ leafSym s p = some v) ps vs ∧ stream s = ps.flatten ++ (q ++ b :: rest) ∧
    vs.length ≤ Config.symCap ∧ descend s s.root q = some k ∧ (q ≠ [] → kindOf (s.node k) = .internal) ∧
    (kindOf (s.node k) ≠ .internal ∨ childValid (s.node k) b = false ∨ kindOf (s.node (childOf (s.node k) b)) = .free) :=
  ⟨withStream treeZ [0x40] 4, [[false]], [0x7A], [], [false, false], true, 1, by decide, by decide,
    forall₂_one (by decide) (by decide +kernel), by decide +kernel⟩

/-- V33 (a): the root is a leaf. -/
theorem wit_DecodeCorruptTreeRaises_root : ∃ (s : State) (ps : List BitString) (vs : List Sym) (q rest : BitString) (b : Bool)
    (k : NodeIdx), s.ready ∧ s.bitLen.toNat ≤ 8 * Config.bsCap ∧
    List.Forall₂ (fun p v => p ≠ [] ∧ leafSym s p = some v) ps vs ∧ stream s = ps.flatten ++ (q ++ b :: rest) ∧
    vs.length ≤ Config.symCap ∧ descend s s.root q = some k ∧ (q ≠ [] → kindOf (s.node k) = .internal) ∧
    (kindOf (s.node k) ≠ .internal ∨ childValid (s.node k) b = false ∨ kindOf (s.node (childOf (s.node k) b)) = .free) :=
  ⟨withStream (withTree [(0, 0x411)] 0) [0] 1, [], [], [], [], false, 0, by decide, by decide, .nil, by decide +kernel⟩

/-- V22 (e), V33 (c): inside a code, the child the bit names is FREE. -/
theorem wit_DecodeCorruptTreeRaises_free : ∃ (s : State) (ps : List BitString) (vs : List Sym) (q rest : BitString) (b : Bool)
    (k : NodeIdx), s.ready ∧ s.bitLen.toNat ≤ 8 * Config.bsCap ∧
    List.Forall₂ (fun p v => p ≠ [] ∧ leafSym s p = some v) ps vs ∧ stream s = ps.flatten ++ (q ++ b :: rest) ∧
    vs.length ≤ Config.symCap ∧ q ≠ [] ∧ descend s s.root q = some k ∧ (q ≠ [] → kindOf (s.node k) = .internal) ∧
    (kindOf (s.node k) ≠ .internal ∨ childValid (s.node k) b = false ∨ kindOf (s.node (childOf (s.node k) b)) = .free) :=
  ⟨withStream (withTree [(0, nodeElem 2 1 1 0 0 5 0), (5, 0)] 0) [0x40] 2, [], [], [false], [], true, 0, by decide, by decide,
    .nil, by decide +kernel⟩

theorem wit_DecodeTooLongRaises : ∃ s : State, s.ready ∧ 8 * Config.bsCap < s.bitLen.toNat :=
  ⟨{ State.reset with bitLen := 524289 }, by decide⟩

theorem wit_DecodeEmissionNeedsRoom : ∀ m ∈ [0, 65535, 65536], ∃ (s : State) (j : Nat) (cur : NodeIdx),
    s.hidden = .decodeAt j cur m ∧ j < s.bitLen.toNat ∧ kindOf (s.node cur) = .internal ∧
    childValid (s.node cur) (s.getBit j) = true ∧ kindOf (s.node (childOf (s.node cur) (s.getBit j))) = .leaf :=
  have h : (0 : Nat) < (withStream treeAB [0x40] 2).bitLen.toNat ∧
      kindOf ((withStream treeAB [0x40] 2).node 0) = .internal ∧
      childValid ((withStream treeAB [0x40] 2).node 0) ((withStream treeAB [0x40] 2).getBit 0) = true ∧
      kindOf ((withStream treeAB [0x40] 2).node
        (childOf ((withStream treeAB [0x40] 2).node 0) ((withStream treeAB [0x40] 2).getBit 0))) = .leaf := by decide +kernel
  fun m _ => ⟨(withStream treeAB [0x40] 2).setHidden (.decodeAt 0 0 m), 0, 0, rfl, h⟩

theorem wit_DecodeEmptyStream : ∃ s : State, s.ready ∧ s.bitLen = 0 := ⟨State.reset, by decide⟩

theorem wit_DecodeDependsOnTreeAndStream : ∃ s s' t t' : State, s.ready ∧ s'.ready ∧ s ≠ s' ∧ sameTree s s' ∧
    s.bitLen = s'.bitLen ∧ stream s = stream s' ∧ s.symLen = s'.symLen ∧ (∀ i < Config.symCap, s.symAt i = s'.symAt i) ∧
    exec .decode s = .next t ∧ exec .decode s' = .next t' :=
  ⟨withStream treeAB [0x08] 5, withStream treeAB [0x0F] 5, _, _, by decide, by decide,
    fun h => absurd (congrArg State.bs h) (by decide), sameTree_refl treeAB, rfl, by decide +kernel, rfl, fun _ _ => rfl,
    exec_run _ _, exec_run _ _⟩

theorem wit_CommandsWriteOnlyTheirOutputs : ∀ i : Instr, ∃ s t : State, exec i s = .next t ∧ s.ready :=
  fun i => ⟨State.reset, _, exec_run i _, by decide⟩

theorem wit_TicksReachTheAtomicState : ∀ i : Instr, ∃ s t : State, s.busy = false ∧ (s.err = false ∨ i = .clrerr) ∧
    exec i s = .next t :=
  fun i => ⟨State.reset, _, rfl, .inl rfl, exec_run i _⟩

theorem wit_StepKeepsInvariant : ∃ s t : State, s.Inv ∧ step s = .next t :=
  ⟨latched, _, latched_inv, rfl⟩

theorem wit_EncodeDecodeRoundTrip : ∃ s g e : State, s.ready ∧ exec .gen s = .next g ∧ g.err = false ∧ exec .encode g = .next e ∧
    e.err = false ∧ s.symLen ≠ 0 := by
  have h : (run .gen { treeAB with sym := [(0, 0x61), (1, 0x62)], symLen := 2 }).err = false ∧
      (run .encode (run .gen { treeAB with sym := [(0, 0x61), (1, 0x62)], symLen := 2 })).err = false := by decide +kernel
  exact ⟨{ treeAB with sym := [(0, 0x61), (1, 0x62)], symLen := 2 }, _, _, by decide, exec_run _ _, h.1, exec_run _ _, h.2,
    by decide⟩

/-- An idle block with the counts and the symbols given. -/
def loaded (counts : List (Nat × Weight)) (syms : List Sym) : State :=
  { withCounts counts with sym := syms.zipIdx.map fun c => (c.2, c.1), symLen := BitVec.ofNat 32 syms.length }

theorem ftAt_loaded (counts : List (Nat × Weight)) (syms : List Sym) {v : Nat} (hv : v < 256) :
    (loaded counts syms).ftAt v = countIn counts v :=
  (State.ftAt_congr (by rw [loaded]) (by rw [loaded]) v).trans (ftAt_withCounts counts hv)

theorem wit_BuildToDecodeRoundTrip : ∃ s : State, s.ready ∧ 1 ≤ s.symLen.toNat ∧ s.symLen.toNat ≤ Config.symCap ∧
    ∀ v < Config.nsym, (s.ftAt v).toNat = countOf (sequence s) v :=
  ⟨loaded [(0x61, 4), (0x62, 1)] [0x61, 0x61, 0x61, 0x61, 0x62], by decide, by decide, by decide, fun v hv => by
    rw [ftAt_loaded _ _ hv]
    revert v
    decide +kernel⟩

theorem wit_StreamLengthIsWeightedSum : ∃ s b g : State, s.ready ∧ 1 ≤ s.symLen.toNat ∧ s.symLen.toNat ≤ Config.symCap ∧
    (∀ v < Config.nsym, (s.ftAt v).toNat = countOf (sequence s) v) ∧ exec .build s = .next b ∧ exec .gen b = .next g := by
  obtain ⟨s, h1, h2, h3, h4⟩ := wit_BuildToDecodeRoundTrip
  exact ⟨s, _, _, h1, h2, h3, h4, exec_run _ _, exec_run _ _⟩

theorem wit_SingleSymbolSession : ∃ (s : State) (v : Sym) (n : Nat), s.ready ∧ 1 ≤ n ∧ n ≤ Config.symCap ∧
    sequence s = List.replicate n v ∧ ∀ u < Config.nsym, (s.ftAt u).toNat = if u = v.toNat then n else 0 :=
  ⟨loaded [(0x7A, 4)] [0x7A, 0x7A, 0x7A, 0x7A], 0x7A, 4, by decide, by decide, by decide, by decide +kernel, fun u hu => by
    rw [ftAt_loaded _ _ hu]
    revert u
    decide +kernel⟩

theorem wit_RebuiltTreeDecodesAlike : ∃ s b g : State, s.ready ∧ exec .build s = .next b ∧ b.err = false ∧
    exec .gen b = .next g :=
  ⟨countsZ, _, _, by decide, exec_run _ _, countsZ_build, exec_run _ _⟩

/-! ## The host's procedures (45_environment_contracts.md) -/

/-- V39: COUNT of "abracadabra". -/
theorem test_count : (countOf [0x61, 0x62, 0x72, 0x61, 0x63, 0x61, 0x64, 0x61, 0x62, 0x72, 0x61] 0x61 = 5) ∧
    countOf [0x61, 0x62, 0x72, 0x61, 0x63, 0x61, 0x64, 0x61, 0x62, 0x72, 0x61] 0x72 = 2 := by decide

/-- V40: REBUILD of {a:"0", b:"1"}. -/
theorem test_rebuild_two :
    (match rebuild (tableElem [([false], 0x61), ([true], 0x62)]) with
      | .ok na => (List.range 3).map (Memory.get na) == [some 0x40100E, some 0x611, some 0x621]
      | .error _ => false) = true := by decide +kernel

/-- V41: {a:"01", b:"0"} is ambiguous at b; the path of a, made before, stays in NA, and every other element is FREE. -/
theorem test_rebuild_ambiguous :
    (match rebuild (tableElem [([false, true], 0x61), ([false], 0x62)]) with
      | .ok _ => false
      | .error f => f.err == .ambiguousCode 0x62 &&
          (List.range 4).map (Memory.get f.written) == [some 0x1006, some 0x40000A, some 0x611, some 0]) = true := by
  decide +kernel

/-- V4: the Archive of the empty sequence, whatever the block holds, and the session that decompresses it. -/
theorem test_empty_archive (s : State) : archiveOfCompress [] s = ⟨[], 0, [], 0⟩ ∧
    decompress (archiveOfCompress [] s) = .ok [wr 5 0, cmd .decode, .wait] := ⟨rfl, rfl⟩

/-! ## A whole BUILD -/

/-- V1: the tree of {a:4, b:1}. -/
theorem test_build_two :
    let t := run .build (withCounts [(0x61, 4), (0x62, 1)])
    t.err = false ∧ t.naAt 0 = 0x0000000100000611 ∧ t.naAt 1 = 0x0000000040000621 ∧ t.naAt 2 = 0x000000014020000E ∧
    t.naAt 3 = 0 ∧ t.csrWord 6 = 2 ∧ t.csrWord 7 = 3 ∧ t.statusWord = 0x00000012 := by decide +kernel

theorem wit_HeavierSymbolsGetNoLongerCodes : ∃ (s b g : State) (v w : Sym), s.ready ∧ exec .build s = .next b ∧ b.err = false ∧
    exec .gen b = .next g ∧ s.ftAt w.toNat ≠ 0 ∧ (s.ftAt w.toNat).toNat < (s.ftAt v.toNat).toNat :=
  ⟨withCounts [(0x61, 4), (0x62, 1)], _, _, 0x61, 0x62, by decide, exec_run _ _, test_build_two.1, exec_run _ _,
    by rw [ftAt_withCounts _ (by decide)]; decide,
    by rw [ftAt_withCounts _ (by decide), ftAt_withCounts _ (by decide)]; decide⟩

end Sys2Proof.Tests
end

section
/-!
The running command, one loop iteration at a time, ends in the state of the atomic command (00_scope.md R17, 20_memory.md R70).
Every piece of a command's pseudocode is a `Run`; `State.EndsIn.bind` takes one piece off the front of both machines, and each
command's loop is an induction along the recursion of its atomic loop. GEN's recursion meets the explicit stack by passing on
what remains to be walked.
-/

namespace Sys2Proof.Machine

/-! ## Binds of pieces -/

theorem bind_bind_run {α β γ : Type} (r : Run α) (f : α → Run β) (g : β → Run γ) :
    Except.bind (Except.bind r f) g = Except.bind r fun a => Except.bind (f a) g := by
  cases r <;> rfl

theorem bind_map_run {α β γ : Type} (r : Run α) (f : α → β) (g : β → Run γ) :
    Except.bind (Except.map f r) g = Except.bind r fun a => g (f a) := by
  cases r <;> rfl

theorem map_bind_run {α β γ : Type} (r : Run α) (f : α → Run β) (g : β → γ) :
    Except.map g (Except.bind r f) = Except.bind r fun a => Except.map g (f a) := by
  cases r <;> rfl

theorem bind_pure_run {α : Type} (r : Run α) : Except.bind r .ok = r := by
  cases r <;> rfl

theorem goOn_map {α β : Type} (r : Run α) (g : α → β) (f : β → State) :
    Run.goOn (Except.map g r) f = Run.goOn r fun a => f (g a) := by
  cases r <;> rfl

/-! ## Ticking to the end -/

/-- Finitely many ticks from `s` reach `t`, with `BUSY = 1` before the last. -/
def State.EndsIn (s t : State) : Prop :=
  ∃ k, State.ticks k s = t ∧ ∀ j < k, (State.ticks j s).busy = true

theorem State.endsIn_self (t : State) : t.EndsIn t := ⟨0, rfl, fun _ hj => absurd hj (Nat.not_lt_zero _)⟩

theorem State.EndsIn.of_tick {s t : State} (hb : s.busy = true) (h : s.tick.EndsIn t) : s.EndsIn t := by
  obtain ⟨k, hk, hbusy⟩ := h
  refine ⟨k + 1, hk, fun j hj => ?_⟩
  cases j with
  | zero => exact hb
  | succ j => exact hbusy j (Nat.lt_of_succ_lt_succ hj)

/-- The command's last tick. -/
theorem State.EndsIn.last {s t : State} (hb : s.busy = true) (h : s.tick = t) : s.EndsIn t :=
  .of_tick hb (h ▸ State.endsIn_self _)

/-- The piece `r` taken in one tick: if it ends the command, both machines have ended alike; if it goes on, what follows must. -/
theorem State.EndsIn.bind {α : Type} {s : State} {r : Run α} {next : α → State} {f : α → Run State} (hb : s.busy = true)
    (ht : s.tick = r.goOn next) (hf : ∀ a, r = .ok a → (next a).EndsIn (f a).finish) :
    s.EndsIn (Run.finish (Except.bind r f)) := by
  cases r with
  | error t => exact .last hb ht
  | ok a => exact .of_tick hb (ht ▸ hf a rfl)

/-- The first tick after acceptance begins the command. -/
theorem tick_accept (s : State) (i : Instr) : (s.accept (encode i)).tick = (s.accept (encode i)).begin i := by
  have hw : decode (encode i) = .ok i := by cases i <;> decide
  simp only [State.tick, State.accept_hidden, State.beginWord, hw]

/-! ## BUILD (40_tree_builder.md R121) -/

theorem tick_buildMerge (f : Forest) :
    (f.st.setHidden (.buildMerge f.pq f.n)).tick =
      if 1 < f.pq.length then (buildMerge f).goOn fun g => g.st.setHidden (.buildMerge g.pq g.n)
      else (buildStore f).complete := by
  change tickMerge (f.beside _) = _
  simp only [tickMerge, Forest.beside_pq, buildMerge_beside, goOn_map, Forest.beside_st, Forest.beside_n,
    State.setHidden_setHidden]
  rfl

theorem tick_buildScan {v : Nat} (hv : v < Config.nsym) (f : Forest) :
    (f.st.setHidden (.buildScan v f.pq f.n)).tick =
      (buildLeaf v f).st.setHidden (.buildScan (v + 1) (buildLeaf v f).pq (buildLeaf v f).n) := by
  change tickScan v (f.beside _) = _
  simp only [tickScan, if_pos hv, buildLeaf_beside, Forest.beside_st, Forest.beside_pq, Forest.beside_n,
    State.setHidden_setHidden]

theorem tick_buildScan_end (f : Forest) :
    (f.st.setHidden (.buildScan Config.nsym f.pq f.n)).tick =
      (buildEdges f).goOn fun g => g.st.setHidden (.buildMerge g.pq g.n) := by
  change tickScan Config.nsym (f.beside _) = _
  simp only [tickScan, Nat.lt_irrefl, if_false, buildEdges_beside, goOn_map, Forest.beside_st, Forest.beside_pq,
    Forest.beside_n, State.setHidden_setHidden]

theorem buildLeaf_busy (v : Nat) (f : Forest) : (buildLeaf v f).st.busy = f.st.busy := by
  unfold buildLeaf
  split <;> rfl

theorem buildEdges_ok {f g : Forest} (h : buildEdges f = .ok g) : g = f := by
  unfold buildEdges at h
  split at h
  · cases h
  · split at h
    · cases h
    · exact (Except.ok.inj h).symm

theorem buildMerge_busy {f g : Forest} (hq : 1 < f.pq.length) (h : buildMerge f = .ok g) : g.st.busy = f.st.busy := by
  obtain ⟨a, b, rest, -, -, -, rfl⟩ := buildMerge_ok hq h
  rfl

/-- Phase 3 ticks as it runs; `|PQ|` is room enough (R132). -/
theorem endsIn_buildMerges {room : Nat} {f : Forest} (hb : f.st.busy = true) (hr : f.pq.length ≤ room + 1) :
    (f.st.setHidden (.buildMerge f.pq f.n)).EndsIn (Run.finish ((buildMerges room f).map buildStore)) := by
  induction room generalizing f with
  | zero => exact .last hb (by rw [tick_buildMerge, if_neg (by omega)]; rfl)
  | succ room ih =>
    by_cases hq : 1 < f.pq.length
    · rw [buildMerges, if_pos hq, map_bind_run]
      refine .bind hb (by rw [tick_buildMerge, if_pos hq]) fun g hg => ih ?_ ?_
      · rw [buildMerge_busy hq hg, hb]
      · have := length_buildMerge hq hg
        omega
    · rw [buildMerges, if_neg hq]
      exact .last hb (by rw [tick_buildMerge, if_neg hq]; rfl)

/-- Phases 1 to 3 tick as they run, from symbol `v` on. -/
theorem endsIn_buildScan {left v : Nat} {f : Forest} (hb : f.st.busy = true) (hv : v + left = Config.nsym) :
    (f.st.setHidden (.buildScan v f.pq f.n)).EndsIn
      (Run.finish ((buildEdges (buildScan left v f)).bind fun g => (buildMerges g.pq.length g).map buildStore)) := by
  induction left generalizing v f with
  | zero =>
    obtain rfl : v = Config.nsym := hv
    refine .bind hb (tick_buildScan_end f) fun g hg => ?_
    obtain rfl := buildEdges_ok hg
    exact endsIn_buildMerges hb (Nat.le_succ _)
  | succ left ih =>
    refine .of_tick hb ?_
    rw [tick_buildScan (by omega)]
    exact ih ((buildLeaf_busy v f).trans hb) (by omega)

theorem endsIn_build (s : State) :
    (s.accept (encode .build)).EndsIn (buildRun (s.accept (encode .build))).finish := by
  refine .of_tick rfl ?_
  rw [tick_accept]
  exact endsIn_buildScan (f := buildBegin _) rfl (Nat.zero_add _)

/-! ## GEN (41_code_table_generator.md R141) -/

/-- The stack after the visit of a node entered with `path`: its children, if it gave any, left before right (R144). -/
def stackAfter (path : BitString) (rest : List (NodeIdx × BitString)) :
    Option (NodeIdx × NodeIdx) → List (NodeIdx × BitString)
  | none => rest
  | some (l, rt) => (l, path ++ [false]) :: (rt, path ++ [true]) :: rest

theorem tick_genWalk_nil (s : State) : (s.setHidden (.genWalk [])).tick = s.complete := rfl

theorem tick_genWalk_cons (k : NodeIdx) (path : BitString) (rest : List (NodeIdx × BitString)) (s : State) :
    (s.setHidden (.genWalk ((k, path) :: rest))).tick =
      (genVisit k path s).goOn fun r => r.2.setHidden (.genWalk (stackAfter path rest r.1)) := by
  simp only [State.tick, State.setHidden_hidden, tickWalk, genVisit_setHidden, goOn_map]
  congr 1
  funext ⟨children, u⟩
  cases children <;> rfl

theorem genStart_ok {s u : State} (h : genStart s = .ok u) : u = genClear s := by
  unfold genStart at h
  simp only at h
  split at h
  · split at h
    · cases h
    · exact (Except.ok.inj h).symm
  · cases h

theorem genVisit_busy {k : NodeIdx} {path : BitString} {s : State} {r : Option (NodeIdx × NodeIdx) × State}
    (h : genVisit k path s = .ok r) : r.2.busy = s.busy := by
  obtain ⟨-, -, rfl⟩ | ⟨-, -, -, -, rfl⟩ := genVisit_ok h <;> rfl

/-- The walk below the node on top of the stack ticks as it runs, if what follows it, `f`, ticks with the rest of the stack. -/
theorem endsIn_walk {room : Nat} {k : NodeIdx} {path : BitString} {rest : List (NodeIdx × BitString)} {s : State}
    {f : State → Run State} (hb : s.busy = true) (hr : path.length + room = Config.codeLenMax)
    (hf : ∀ u : State, u.busy = true → (u.setHidden (.genWalk rest)).EndsIn (f u).finish) :
    (s.setHidden (.genWalk ((k, path) :: rest))).EndsIn (Run.finish ((walk room k path s).bind f)) := by
  induction room generalizing k path rest s f with
  | zero =>
    rw [walk, bind_map_run]
    refine .bind hb (tick_genWalk_cons ..) fun r hv => ?_
    obtain ⟨-, -, rfl⟩ | ⟨-, -, -, hp, -⟩ := genVisit_ok hv
    · exact hf _ hb
    · exact absurd hr hp
  | succ room ih =>
    rw [walk, bind_bind_run]
    refine .bind hb (tick_genWalk_cons ..) fun r hv => ?_
    have hu : r.2.busy = true := (genVisit_busy hv).trans hb
    obtain ⟨children, u⟩ := r
    cases children with
    | none => exact hf u hu
    | some c =>
      have hlen : ∀ b : Bool, (path ++ [b]).length + room = Config.codeLenMax := fun b => by
        rw [List.length_append, List.length_singleton]
        omega
      simp only [bind_bind_run]
      exact ih hu (hlen false) fun w hw => ih hw (hlen true) hf

theorem endsIn_gen (s : State) : (s.accept (encode .gen)).EndsIn (genRun (s.accept (encode .gen))).finish := by
  refine .bind rfl (tick_accept s .gen) fun u hu => ?_
  have hb : u.busy = true := by
    rw [genStart_ok hu]
    rfl
  rw [← bind_pure_run (walk _ _ _ _)]
  exact endsIn_walk hb (Nat.zero_add _) fun w hw => .last hw (tick_genWalk_nil w)

/-! ## ENCODE (42_encoder.md R162) -/

theorem tick_encodeAt (i bitpos : Nat) (s : State) :
    (s.setHidden (.encodeAt i bitpos)).tick =
      if i < s.symLen.toNat then (encodeSymbol i bitpos s).goOn fun r => r.2.setHidden (.encodeAt (i + 1) r.1)
      else (encodeStore bitpos s).complete := by
  simp only [State.tick, State.setHidden_hidden, tickEncode, encodeSymbol_setHidden, goOn_map, State.setHidden_setHidden]
  rfl

theorem encodeStart_ok {s u : State} (h : encodeStart s = .ok u) : u = s := by
  unfold encodeStart at h
  split at h
  · cases h
  · exact (Except.ok.inj h).symm

/-- A symbol encoded: BS alone is written. -/
theorem encodeSymbol_only {i bitpos : Nat} {s : State} {r : Nat × State} (h : encodeSymbol i bitpos s = .ok r) :
    r.2 = { s with bs := r.2.bs } := by
  unfold encodeSymbol at h
  simp only at h
  split at h
  · cases h
  · split at h
    · cases h
    · obtain rfl := Except.ok.inj h
      exact putBits_eq ..

/-- The loop ticks as it runs, from position `i` on. -/
theorem endsIn_encodeLoop {left i bitpos : Nat} {s : State} (hb : s.busy = true) (hi : i + left = s.symLen.toNat) :
    (s.setHidden (.encodeAt i bitpos)).EndsIn
      (Run.finish ((encodeLoop left i bitpos s).map fun r => encodeStore r.1 r.2)) := by
  induction left generalizing i bitpos s with
  | zero => exact .last hb (by rw [tick_encodeAt, if_neg (by omega)]; rfl)
  | succ left ih =>
    rw [encodeLoop, map_bind_run]
    refine .bind hb (by rw [tick_encodeAt, if_pos (by omega)]) fun r hr => ih ?_ ?_
    · rw [encodeSymbol_only hr]
      exact hb
    · rw [encodeSymbol_only hr]
      change i + 1 + left = s.symLen.toNat
      omega

theorem endsIn_encode (s : State) :
    (s.accept (encode .encode)).EndsIn (encodeRun (s.accept (encode .encode))).finish := by
  refine .bind rfl (tick_accept s .encode) fun u hu => ?_
  obtain rfl := encodeStart_ok hu
  exact endsIn_encodeLoop rfl (Nat.zero_add _)

/-! ## DECODE (43_decoder.md R181) -/

theorem tick_decodeAt (j : Nat) (c : Cursor) :
    (c.st.setHidden (.decodeAt j c.cur c.m)).tick =
      if j < c.st.bitLen.toNat then (decodeBit j c).goOn fun d => d.st.setHidden (.decodeAt (j + 1) d.cur d.m)
      else (decodeEnd c).finish := by
  change tickDecode j (c.beside _) = _
  simp only [tickDecode, Cursor.beside_st, State.setHidden_bitLen, decodeBit_beside, decodeEnd_beside, goOn_map,
    Cursor.beside_cur, Cursor.beside_m, State.setHidden_setHidden]
  split
  · rfl
  · cases decodeEnd c <;> rfl

theorem decodeStart_ok {s : State} {c : Cursor} (h : decodeStart s = .ok c) :
    c = { cur := s.root, m := 0, st := s.setDecState .atRoot } := by
  unfold decodeStart at h
  split at h
  · cases h
  · exact (Except.ok.inj h).symm

/-- Arriving at a node, when it goes on: SYM and `DEC_STATE` alone are written. -/
theorem decodeArrive_only {j : Nat} {nxt : NodeIdx} {c d : Cursor} (h : decodeArrive j nxt c = .ok d) :
    d.st = { c.st with sym := d.st.sym, decState := d.st.decState } := by
  unfold decodeArrive at h
  split at h
  · split at h
    · cases h
    · obtain rfl := Except.ok.inj h
      rfl
  · obtain rfl := Except.ok.inj h
    rfl
  · cases h

/-- A bit decoded: SYM and `DEC_STATE` alone are written. -/
theorem decodeBit_only {j : Nat} {c d : Cursor} (h : decodeBit j c = .ok d) :
    d.st = { c.st with sym := d.st.sym, decState := d.st.decState } := by
  unfold decodeBit at h
  simp only at h
  split at h
  · split at h
    · exact decodeArrive_only h
    · cases h
  · cases h

/-- The loop ticks as it runs, from bit `j` on. -/
theorem endsIn_decodeLoop {left j : Nat} {c : Cursor} (hb : c.st.busy = true) (hj : j + left = c.st.bitLen.toNat) :
    (c.st.setHidden (.decodeAt j c.cur c.m)).EndsIn (Run.finish ((decodeLoop left j c).bind decodeEnd)) := by
  induction left generalizing j c with
  | zero => exact .last hb (by rw [tick_decodeAt, if_neg (by omega)]; rfl)
  | succ left ih =>
    rw [decodeLoop, bind_bind_run]
    refine .bind hb (by rw [tick_decodeAt, if_pos (by omega)]) fun d hd => ih ?_ ?_
    · rw [decodeBit_only hd]
      exact hb
    · rw [decodeBit_only hd]
      change j + 1 + left = c.st.bitLen.toNat
      omega

theorem endsIn_decode (s : State) :
    (s.accept (encode .decode)).EndsIn (decodeRun (s.accept (encode .decode))).finish := by
  refine .bind rfl (tick_accept s .decode) fun c hc => ?_
  obtain rfl := decodeStart_ok hc
  exact endsIn_decodeLoop rfl (Nat.zero_add _)

/-! ## Every command -/

/-- An accepted command, taken one iteration at a time, ends where its pseudocode ends. -/
theorem endsIn_runOf (i : Instr) (s : State) :
    (s.accept (encode i)).EndsIn (runOf i (s.accept (encode i))).finish := by
  cases i with
  | nop => exact .last rfl (tick_accept s .nop)
  | build => exact endsIn_build s
  | gen => exact endsIn_gen s
  | encode => exact endsIn_encode s
  | decode => exact endsIn_decode s
  | clrerr => exact .last rfl (tick_accept s .clrerr)

theorem ignores_encode {i : Instr} {s : State} (hb : s.busy = false) (he : s.err = false ∨ i = .clrerr) :
    s.ignores (encode i) = false := by
  obtain he | rfl := he
  · exact State.ignores_of_ready ⟨hb, he⟩ _
  · simp [State.ignores, hb, show encode .clrerr = clrerrWord by decide]

/-- Settles O49: an accepted command's ticks follow its pseudocode piece by piece, so they end where `exec` ends. -/
theorem ticksReachTheAtomicState : Obligations.TicksReachTheAtomicState := by
  unfold Obligations.TicksReachTheAtomicState
  intro i s t hb he h
  rw [exec_accepted (ignores_encode hb he)] at h
  obtain rfl := Host.Outcome.next.inj h
  exact endsIn_runOf i s

end Sys2Proof.Machine
end

section
/-!
The host's port: what a host read of an idle block returns, what a host write may change (10_state.md R43, 20_memory.md R62, R63,
R66), the words the CSR port gives after reset (10_state.md R44), and the fields of STATUS (R23).
-/

namespace Sys2Proof.Machine

/-! ## Host reads and writes -/

/-- In an idle block a host read in range returns the element (20_memory.md R62). -/
theorem hostReadValue_of_idle {s : State} (hb : s.busy = false) {sp : Space} {i : Nat} (hi : i < sp.size) :
    s.hostReadValue sp i = s.element sp i := by
  simp [State.hostReadValue, State.readSpecified, hb, hi]

/-- A host write of a busy block or out of range has no effect (20_memory.md R63, R66). -/
theorem hostWrite_no_effect {s : State} {sp : Space} {i : Nat} (h : s.busy = true ∨ sp.size ≤ i) (v : BitVec sp.width) :
    s.hostWrite sp i v = s := by
  unfold State.hostWrite
  exact if_pos (by simpa using h)

/-- A host write in range to a register of an idle block is the register's write. -/
theorem hostWrite_csr {s : State} (hb : s.busy = false) {i : Nat} (hi : i < 8) (v : Word) :
    s.hostWrite .csr i v = s.csrWrite i v := by
  unfold State.hostWrite
  refine if_neg ?_
  rw [hb, Bool.false_or, decide_eq_true_eq]
  exact Nat.not_le.2 hi

theorem csrWrite_readOnly (s : State) {i : Nat} (h4 : i ≠ 4) (h5 : i ≠ 5) (h6 : i ≠ 6) (v : Word) :
    s.csrWrite i v = s := by
  unfold State.csrWrite
  split
  · exact absurd rfl h4
  · exact absurd rfl h5
  · exact absurd rfl h6
  · rfl

theorem csrWrite_only (s : State) (i : Nat) (v : Word) :
    s.csrWrite i v =
      { s with symLen := (s.csrWrite i v).symLen, bitLen := (s.csrWrite i v).bitLen, root := (s.csrWrite i v).root } := by
  unfold State.csrWrite
  split <;> rfl

/-- A host write writes one of SYM_LEN, BIT_LEN, ROOT or one element of a memory, and nothing else. -/
theorem hostWrite_only (s : State) (sp : Space) (i : Nat) (v : BitVec sp.width) :
    s.hostWrite sp i v =
      { s with symLen := (s.hostWrite sp i v).symLen, bitLen := (s.hostWrite sp i v).bitLen,
               root := (s.hostWrite sp i v).root, ft := (s.hostWrite sp i v).ft, na := (s.hostWrite sp i v).na,
               ct := (s.hostWrite sp i v).ct, sym := (s.hostWrite sp i v).sym, bs := (s.hostWrite sp i v).bs } := by
  unfold State.hostWrite
  split
  · rfl
  · cases sp with
    | csr =>
      simp only
      rw [csrWrite_only]
    | ft => rfl
    | na => rfl
    | ct => rfl
    | sym => rfl
    | bs => rfl

/-- A host transaction that writes anything but CMD is a host write. -/
theorem runHostTx_write {sp : Space} {i : Nat} (h : ¬(sp = .csr ∧ i = 0)) (v : BitVec sp.width) (s : State) :
    runHostTx (.write sp i v) s = .next (s.hostWrite sp i v) := by
  cases sp with
  | csr =>
    cases i with
    | zero => exact absurd ⟨rfl, rfl⟩ h
    | succ i => rfl
  | ft => rfl
  | na => rfl
  | ct => rfl
  | sym => rfl
  | bs => rfl

/-- A busy block ignores every command word, legal or not (30_encoding.md R93). -/
theorem issueWord_of_busy {s : State} (hb : s.busy = true) (w : Word) : issueWord w s = .next s := by
  unfold issueWord
  split
  · exact exec_ignored (State.ignores_of_busy hb _)
  · rw [State.issueIllegal, State.issue_ignored (State.ignores_of_busy hb _)]

/-- A host write transaction to a busy block, CMD included, or out of range has no effect. -/
theorem runHostTx_write_no_effect {s : State} {sp : Space} {i : Nat} (h : s.busy = true ∨ sp.size ≤ i)
    (v : BitVec sp.width) : runHostTx (.write sp i v) s = .next s := by
  by_cases hc : sp = .csr ∧ i = 0
  · obtain ⟨rfl, rfl⟩ := hc
    exact issueWord_of_busy (h.resolve_right (by decide)) v
  · rw [runHostTx_write hc, hostWrite_no_effect h]

/-- ROOT reads back the low nine bits written (10_state.md R29). -/
theorem setWidth_low_nine (v : Word) : (v.setWidth 9).setWidth 32 = v &&& 0x1FF#32 := by
  apply BitVec.eq_of_toNat_eq
  have hmask : v.toNat &&& 511 = v.toNat % 2 ^ 9 := Nat.and_two_pow_sub_one_eq_mod _ 9
  simp only [BitVec.toNat_setWidth, BitVec.toNat_and, BitVec.toNat_ofNat, Nat.reducePow, Nat.reduceMod, hmask]
  omega

/-- Settles O16: a host write is the write of one register or element, or has no effect, and leaves the latch out. -/
theorem hostWriteAccessRights : Obligations.HostWriteAccessRights := by
  unfold Obligations.HostWriteAccessRights
  refine ⟨fun s i v hi => ?_, fun s sp i v h => ⟨hostWrite_no_effect h v, runHostTx_write_no_effect h v⟩,
    fun s v hb => ?_, fun s sp i v hc => ?_, fun s sp i => ⟨_, rfl, rfl, rfl, rfl⟩⟩
  · by_cases h : s.busy = true ∨ Space.csr.size ≤ i
    · exact hostWrite_no_effect h v
    · simp only [not_or, Bool.not_eq_true, Nat.not_le] at h
      rw [hostWrite_csr h.1 h.2, csrWrite_readOnly s (by omega) (by omega) (by omega)]
  · rw [hostWrite_csr hb (by decide), hostWrite_csr hb (by decide), hostWrite_csr hb (by decide)]
    exact ⟨rfl, rfl, rfl, setWidth_low_nine v⟩
  · rw [runHostTx_write hc, hostWrite_only]
    exact ⟨_, rfl, rfl, rfl, rfl⟩

/-! ## Reset -/

theorem csrWord_applyReset (s : State) (i : Nat) : s.applyReset.csrWord i = 0 := by
  unfold State.csrWord
  split
  · change (0#24 ++ 0#4 ++ 0#1 ++ 0#1 ++ 0#1 ++ 0#1 : BitVec 32) = 0
    decide
  all_goals rfl

/-- Settles O5: after reset every register's word is 0 and no element is written, so each holds its free value. -/
theorem resetRegistersZeroMemoriesFree : Obligations.ResetRegistersZeroMemoriesFree := by
  unfold Obligations.ResetRegistersZeroMemoriesFree
  intro s rest hin
  refine ⟨_, step_cons hin, rfl, rfl, fun i hi => ?_, fun _ _ => ⟨rfl, rfl⟩, fun _ _ => rfl, fun _ _ => rfl, fun _ _ => rfl⟩
  rw [hostReadValue_of_idle rfl hi]
  exact csrWord_applyReset _ i

/-! ## STATUS -/

/-- Settles O17: STATUS is the concatenation of its fields, read back one by one. -/
theorem statusWordFields : Obligations.StatusWordFields := by
  unfold Obligations.StatusWordFields
  intro s
  unfold State.statusWord bit
  simp only [BitVec.getLsbD_append]
  refine ⟨by simp, by simp, by simp, ?_, ?_, ?_⟩
  · cases s.decState <;> simp [DecState.bit]
  · iterate 4 refine (BitVec.extractLsb'_append_eq_of_le (by decide)).trans ?_
    exact BitVec.extractLsb'_append_eq_right
  · iterate 5 refine (BitVec.extractLsb'_append_eq_of_le (by decide)).trans ?_
    decide

end Sys2Proof.Machine
end

section
/-!
Every step keeps the invariant (10_state.md R20 to R25, R37 to R41), from reset on. An idle block's invariant is a matter of its
memories and its flags. Of a running command it is that its memories and flags are those of `Running`, which its loop bodies keep,
and that its cursors are in their ranges. A command run as one atomic step ends where its ticks end, so it keeps what they keep.
-/

namespace Sys2Proof.Machine

/-! ## Idle states, and what the invariant does not speak of -/

theorem hiddenOk_of_idle {s : State} (h : s.hidden = .idle) : hiddenOk s := by
  simp only [hiddenOk, h]

/-- An idle block without an error meets the invariant if its memories are canonical. -/
theorem MemoriesWf.inv_idle {s : State} (h : MemoriesWf s) (hb : s.busy = false) (hh : s.hidden = .idle)
    (he : s.err = false) (hc : s.errCode = 0) (hi : s.errInfo = 0) : s.Inv where
  ftWf := h.ft
  naWf := h.na
  ctWf := h.ct
  symWf := h.sym
  bsWf := h.bs
  busyDone hb' := by simp [hb] at hb'
  errIdle he' := by simp [he] at he'
  errCode := by simp [he, hc]
  errInfo _ := hi
  errRange := by simp [hc]
  busyHidden := by simp [hb, hh]
  hidden := hiddenOk_of_idle hh

/-- The model's own record of the host's side is not in the invariant (log 3, log 5). -/
theorem State.Inv.record {s : State} (h : s.Inv) (inputs : List Event) (replies : List Reply) (draws : Nat) :
    State.Inv { s with inputs := inputs, replies := replies, draws := draws } := { h with }

theorem State.Inv.hidden_of_not_busy {s : State} (h : s.Inv) (hb : s.busy = false) : s.hidden = .idle := by
  by_contra hh
  simp [h.busyHidden.2 hh] at hb

theorem State.Inv.errCode_eq_zero {s : State} (h : s.Inv) (he : s.err = false) : s.errCode = 0 := by
  by_contra hc
  simp [h.errCode.1 hc] at he

theorem State.setHidden_self {s : State} {h : Hidden} (hh : s.hidden = h) : s.setHidden h = s := by
  subst hh
  rfl

/-! ## A running command -/

/-- What the memories and flags of a state are while a command runs (10_state.md R23 to R25). -/
structure Running (s : State) : Prop extends MemoriesWf s where
  busy : s.busy = true
  done : s.done = false
  err : s.err = false
  code : s.errCode = 0
  info : s.errInfo = 0

theorem State.Inv.running {s : State} (h : s.Inv) (hb : s.busy = true) : Running s := by
  have he : s.err = false := by
    by_contra he
    simp [(h.errIdle (by simpa using he)).1] at hb
  exact { h.memories with busy := hb, done := h.busyDone hb, err := he, code := h.errCode_eq_zero he, info := h.errInfo he }

/-- The command goes on: the invariant is then that the next iteration's cursors are in their ranges. -/
theorem Running.inv_setHidden {s : State} (h : Running s) {x : Hidden} (hx : x ≠ .idle) (hok : hiddenOk (s.setHidden x)) :
    (s.setHidden x).Inv where
  ftWf := h.ft
  naWf := h.na
  ctWf := h.ct
  symWf := h.sym
  bsWf := h.bs
  busyDone _ := h.done
  errIdle he := by simp [h.err] at he
  errCode := by simp [h.err, h.code]
  errInfo _ := h.info
  errRange := by simp [h.code]
  busyHidden := by simp [h.busy, hx]
  hidden := hok

theorem Running.inv_complete {s : State} (h : Running s) : s.complete.Inv :=
  h.toMemoriesWf.inv_complete h.err h.code h.info

theorem Running.setNa {s : State} (h : Running s) {i : Nat} (hi : i < Config.nodeCap) (v : NodeElem) :
    Running (s.setNa i v) := { h with toMemoriesWf := h.toMemoriesWf.setNa hi v }

theorem Running.setCt {s : State} (h : Running s) (v : Sym) (e : CodeElem) : Running (s.setCt v.toNat e) :=
  { h with toMemoriesWf := h.toMemoriesWf.setCt v.isLt e }

theorem Running.setSym {s : State} (h : Running s) {i : Nat} (hi : i < Config.symCap) (v : Sym) :
    Running (s.setSym i v) := { h with toMemoriesWf := h.toMemoriesWf.setSym hi v }

theorem Running.setDecState {s : State} (h : Running s) (d : DecState) : Running (s.setDecState d) := { h with }

theorem Running.buildClear {s : State} (h : Running s) : Running (buildClear s) :=
  { h with toMemoriesWf := h.toMemoriesWf.buildClear }

theorem Running.genClear {s : State} (h : Running s) : Running (genClear s) :=
  { h with toMemoriesWf := h.toMemoriesWf.genClear }

theorem Running.putBits {s : State} (h : Running s) {j : Nat} {p : BitString}
    (hj : j + p.length ≤ 8 * Config.bsCap) : Running (putBits j p s) := by
  have hm := h.toMemoriesWf.putBits hj
  rw [putBits_eq] at hm ⊢
  exact { h with toMemoriesWf := hm }

/-! ## BUILD (10_state.md R37, R38) -/

/-- The end of an ascending queue of indices below `n` takes `n`. -/
theorem ascending_append {pq : List Nat} {n : Nat} (hs : pq.Pairwise (· < ·)) (hn : ∀ k ∈ pq, k < n) :
    (pq ++ [n]).Pairwise (· < ·) ∧ ∀ k ∈ pq ++ [n], k < n + 1 := by
  constructor
  · simpa [List.pairwise_append] using ⟨hs, hn⟩
  · simp only [List.mem_append, List.mem_singleton]
    rintro k (hk | rfl)
    · exact Nat.lt_succ_of_lt (hn k hk)
    · exact Nat.lt_succ_self k

theorem inv_buildLeaf {v : Nat} {f : Forest} (hr : Running f.st) (hv : v < Config.nsym)
    (h : hiddenOk (f.st.setHidden (.buildScan v f.pq f.n))) :
    ((buildLeaf v f).st.setHidden (.buildScan (v + 1) (buildLeaf v f).pq (buildLeaf v f).n)).Inv := by
  obtain ⟨-, hn, hl, hs, hb⟩ := h
  unfold buildLeaf
  split
  · exact hr.inv_setHidden (by simp) ⟨hv, Nat.le_succ_of_le hn, hl, hs, hb⟩
  · obtain ⟨hs', hb'⟩ := ascending_append hs hb
    have hcap : f.n < Config.nodeCap := by
      simp only [Config.nsym, Config.nodeCap] at *
      omega
    exact (hr.setNa hcap _).inv_setHidden (by simp) ⟨hv, Nat.succ_le_succ hn, by simp [hl], hs', hb'⟩

theorem inv_buildEdges {f : Forest} (hr : Running f.st)
    (h : hiddenOk (f.st.setHidden (.buildScan Config.nsym f.pq f.n))) :
    ((buildEdges f).goOn fun g => g.st.setHidden (.buildMerge g.pq g.n)).Inv := by
  obtain ⟨-, hn, hl, hs, hb⟩ := h
  unfold buildEdges
  split
  · exact hr.inv_raise _ _
  · split
    · exact Running.inv_complete { hr.setNa (show 1 < Config.nodeCap by decide) _ with }
    · have hcap : f.n + f.pq.length ≤ Config.nodeCap := by
        simp only [Config.nsym, Config.nodeCap] at *
        omega
      exact hr.inv_setHidden (by simp) ⟨by omega, hcap, hs, hb⟩

theorem inv_tick_buildScan {v : Nat} {f : Forest} (hr : Running f.st)
    (h : hiddenOk (f.st.setHidden (.buildScan v f.pq f.n))) : (f.st.setHidden (.buildScan v f.pq f.n)).tick.Inv := by
  rcases Nat.lt_or_eq_of_le h.1 with hv | rfl
  · rw [tick_buildScan hv]
    exact inv_buildLeaf hr hv h
  · rw [tick_buildScan_end]
    exact inv_buildEdges hr h

theorem inv_buildMerge {f : Forest} (hr : Running f.st) (hq : 1 < f.pq.length)
    (h : hiddenOk (f.st.setHidden (.buildMerge f.pq f.n))) :
    ((buildMerge f).goOn fun g => g.st.setHidden (.buildMerge g.pq g.n)).Inv := by
  obtain ⟨-, hcap, hs, hb⟩ := h
  cases hm : buildMerge f with
  | error t =>
    rw [buildMerge_error hm]
    exact hr.inv_raise _ _
  | ok g =>
    have hlen := length_buildMerge hq hm
    obtain ⟨a, b, rest, -, hsub, -, rfl⟩ := buildMerge_ok hq hm
    obtain ⟨hs', hb'⟩ := ascending_append (hs.sublist hsub) fun k hk => hb k (hsub.subset hk)
    refine (hr.setNa (by omega) _).inv_setHidden (by simp) ⟨by simp, ?_, hs', hb'⟩
    simp only at hlen ⊢
    omega

theorem inv_tick_buildMerge {f : Forest} (hr : Running f.st) (h : hiddenOk (f.st.setHidden (.buildMerge f.pq f.n))) :
    (f.st.setHidden (.buildMerge f.pq f.n)).tick.Inv := by
  rw [tick_buildMerge]
  split
  · next hq => exact inv_buildMerge hr hq h
  · exact Running.inv_complete { hr with }

/-! ## GEN (10_state.md R39) -/

/-- A stack of strictly shorter and shorter paths, none empty, is no longer than its longest path may be. -/
theorem length_le_of_descending {l : List (NodeIdx × BitString)} {m : Nat}
    (hd : l.Pairwise fun a b => b.2.length < a.2.length) (hm : ∀ e ∈ l, 1 ≤ e.2.length ∧ e.2.length ≤ m) :
    l.length ≤ m := by
  induction l generalizing m with
  | nil => exact Nat.zero_le m
  | cons a l ih =>
    rw [List.pairwise_cons] at hd
    obtain ⟨ha1, ham⟩ := hm a List.mem_cons_self
    have hl : l.length ≤ a.2.length - 1 := ih hd.2 fun e he =>
      ⟨(hm e (List.mem_cons_of_mem _ he)).1, Nat.le_sub_one_of_lt (hd.1 e he)⟩
    rw [List.length_cons]
    omega

/-- What remains of the walk below a node's stack entry. -/
theorem hiddenOk_genWalk_rest {s t : State} {k : NodeIdx} {path : BitString} {rest : List (NodeIdx × BitString)}
    (h : hiddenOk (s.setHidden (.genWalk ((k, path) :: rest)))) : hiddenOk (t.setHidden (.genWalk rest)) := by
  obtain ⟨hlen, hp, hrest, hd⟩ := h
  refine ⟨Nat.le_of_succ_le hlen, ?_⟩
  cases rest with
  | nil => trivial
  | cons a rest =>
    rw [List.pairwise_cons] at hd
    exact ⟨(hrest a List.mem_cons_self).2.trans hp, fun e he =>
      ⟨(hrest e (List.mem_cons_of_mem _ he)).1, Nat.le_of_lt (hd.1 e he)⟩, hd.2⟩

/-- The children of a node with room below it take its place on the stack. -/
theorem hiddenOk_genWalk_children {s t : State} {k l r : NodeIdx} {path : BitString} {rest : List (NodeIdx × BitString)}
    (h : hiddenOk (s.setHidden (.genWalk ((k, path) :: rest)))) (hroom : path.length ≠ Config.codeLenMax) :
    hiddenOk (t.setHidden (.genWalk ((l, path ++ [false]) :: (r, path ++ [true]) :: rest))) := by
  obtain ⟨-, hp, hrest, hd⟩ := h
  have hlen := length_le_of_descending hd hrest
  refine ⟨?_, ?_, ?_, ?_⟩
  · simp only [List.length_cons]
    omega
  · simp only [List.length_append, List.length_singleton]
    omega
  · simp only [List.mem_cons, List.length_append, List.length_singleton]
    rintro e (rfl | he)
    · simp
    · exact ⟨(hrest e he).1, Nat.le_succ_of_le (hrest e he).2⟩
  · refine List.pairwise_cons.2 ⟨fun e he => ?_, hd⟩
    simpa using Nat.lt_succ_of_le (hrest e he).2

theorem inv_tick_genWalk {stack : List (NodeIdx × BitString)} {s : State} (hr : Running s)
    (h : hiddenOk (s.setHidden (.genWalk stack))) : (s.setHidden (.genWalk stack)).tick.Inv := by
  match stack with
  | [] =>
    rw [tick_genWalk_nil]
    exact hr.inv_complete
  | (k, path) :: rest =>
    rw [tick_genWalk_cons]
    cases hv : genVisit k path s with
    | error t =>
      rw [genVisit_error hv]
      exact hr.inv_raise _ _
    | ok r =>
      obtain ⟨-, -, rfl⟩ | ⟨-, -, -, hroom, rfl⟩ := genVisit_ok hv
      · exact (hr.setCt _ _).inv_setHidden (by simp) (hiddenOk_genWalk_rest h)
      · exact hr.inv_setHidden (by simp) (hiddenOk_genWalk_children h hroom)

/-! ## ENCODE (10_state.md R40) -/

theorem putBits_symLen (j : Nat) (p : BitString) (s : State) : (putBits j p s).symLen = s.symLen := by
  rw [putBits_eq]

theorem inv_tick_encodeAt {i bitpos : Nat} {s : State} (hr : Running s)
    (h : hiddenOk (s.setHidden (.encodeAt i bitpos))) : (s.setHidden (.encodeAt i bitpos)).tick.Inv := by
  obtain ⟨hcap, -, -⟩ := h
  rw [tick_encodeAt]
  split
  · next hi =>
    unfold encodeSymbol
    simp only
    split
    · exact hr.inv_raise _ _
    · split
      · exact hr.inv_raise _ _
      · next hfit =>
        have hfit := Nat.le_of_not_lt hfit
        refine (hr.putBits (by rwa [length_codeOf])).inv_setHidden (by simp) ?_
        simp only [hiddenOk, State.setHidden_hidden, State.setHidden_symLen, putBits_symLen]
        exact ⟨hcap, hi, hfit⟩
  · exact Running.inv_complete { hr with }

/-! ## DECODE (10_state.md R41) -/

theorem inv_decodeArrive {j : Nat} {nxt : NodeIdx} {c : Cursor} (hr : Running c.st) (hj : j < c.st.bitLen.toNat)
    (h : hiddenOk (c.st.setHidden (.decodeAt j c.cur c.m))) :
    ((decodeArrive j nxt c).goOn fun d => d.st.setHidden (.decodeAt (j + 1) d.cur d.m)).Inv := by
  obtain ⟨hcap, -, hm, hmj, -, -⟩ := h
  unfold decodeArrive
  split
  · split
    · exact hr.inv_raise _ _
    · next hfull =>
      have hroom : c.m < Config.symCap := Nat.lt_of_le_of_ne hm hfull
      exact ((hr.setSym hroom _).setDecState _).inv_setHidden (by simp)
        ⟨hcap, hj, hroom, Nat.succ_le_succ hmj, fun _ => rfl, nofun⟩
  · next hk =>
    exact (hr.setDecState _).inv_setHidden (by simp) ⟨hcap, hj, hm, Nat.le_succ_of_le hmj, nofun, fun _ => hk⟩
  · exact hr.inv_raise _ _

theorem inv_decodeEnd {c : Cursor} (hr : Running c.st) : (decodeEnd c).finish.Inv := by
  unfold decodeEnd
  split
  · exact Running.inv_complete { hr with }
  · exact hr.inv_raise _ _

theorem inv_tick_decodeAt {j : Nat} {c : Cursor} (hr : Running c.st)
    (h : hiddenOk (c.st.setHidden (.decodeAt j c.cur c.m))) : (c.st.setHidden (.decodeAt j c.cur c.m)).tick.Inv := by
  rw [tick_decodeAt]
  split
  · next hj =>
    unfold decodeBit
    simp only
    split
    · split
      · exact inv_decodeArrive hr hj h
      · exact hr.inv_raise _ _
    · exact hr.inv_raise _ _
  · exact inv_decodeEnd hr

/-! ## The first iteration of a command -/

theorem inv_genStart {s : State} (hr : Running s) :
    ((genStart s).goOn fun u => u.setHidden (.genWalk [(u.root, [])])).Inv := by
  unfold genStart
  simp only
  split
  · split
    · exact (hr.genClear.setCt _ _).inv_complete
    · exact hr.genClear.inv_setHidden (by simp) ⟨by simp, by simp⟩
  · exact hr.genClear.inv_raise _ _

theorem inv_encodeStart {s : State} (hr : Running s) :
    ((encodeStart s).goOn fun u => u.setHidden (.encodeAt 0 0)).Inv := by
  unfold encodeStart
  split
  · exact hr.inv_raise _ _
  · next hfit => exact hr.inv_setHidden (by simp) ⟨Nat.le_of_not_lt hfit, Nat.zero_le _, Nat.zero_le _⟩

theorem inv_decodeStart {s : State} (hr : Running s) :
    ((decodeStart s).goOn fun c => c.st.setHidden (.decodeAt 0 c.cur c.m)).Inv := by
  unfold decodeStart
  split
  · exact hr.inv_raise _ _
  · next hfit =>
    exact (hr.setDecState _).inv_setHidden (by simp)
      ⟨Nat.le_of_not_lt hfit, Nat.zero_le _, Nat.zero_le _, Nat.le_refl _, fun _ => rfl, nofun⟩

/-- CLRERR leaves no error, whatever was latched (44_system_commands.md R201). -/
theorem MemoriesWf.inv_clrerr {s : State} (h : MemoriesWf s) : (clrerrRun s).finish.Inv :=
  MemoriesWf.inv_complete (s := s.clearErr) { h with } rfl rfl rfl

theorem inv_begin (i : Instr) {s : State} (hr : Running s) : (s.begin i).Inv := by
  cases i with
  | nop => exact hr.inv_complete
  | build => exact hr.buildClear.inv_setHidden (by simp) ⟨by simp, by simp, by simp, by simp, by simp⟩
  | gen => exact inv_genStart hr
  | encode => exact inv_encodeStart hr
  | decode => exact inv_decodeStart hr
  | clrerr => exact hr.inv_clrerr

theorem inv_beginWord (w : Word) {s : State} (hr : Running s) : (s.beginWord w).Inv := by
  unfold State.beginWord
  split
  · exact inv_begin _ hr
  · exact hr.inv_raise _ _

/-! ## Ticks -/

/-- One iteration of the running command keeps the invariant. -/
theorem State.Inv.tick {s : State} (h : s.Inv) : s.tick.Inv := by
  have hr (hh : s.hidden ≠ .idle) : Running s := h.running (h.busyHidden.2 hh)
  have hok := h.hidden
  have hself := State.setHidden_self (s := s) rfl
  rw [← hself] at hok ⊢
  cases hh : s.hidden with
  | idle => rwa [← hh, hself, State.tick, hh]
  | accepted w => exact inv_beginWord w { hr (by simp [hh]) with }
  | buildScan v pq n => exact inv_tick_buildScan (f := ⟨pq, n, s⟩) (hr (by simp [hh])) (hh ▸ hok)
  | buildMerge pq n => exact inv_tick_buildMerge (f := ⟨pq, n, s⟩) (hr (by simp [hh])) (hh ▸ hok)
  | genWalk stack => exact inv_tick_genWalk (hr (by simp [hh])) (hh ▸ hok)
  | encodeAt i bitpos => exact inv_tick_encodeAt (hr (by simp [hh])) (hh ▸ hok)
  | decodeAt j cur m => exact inv_tick_decodeAt (c := ⟨cur, m, s⟩) (hr (by simp [hh])) (hh ▸ hok)

theorem State.Inv.ticks {s : State} (h : s.Inv) (k : Nat) : (State.ticks k s).Inv := by
  induction k generalizing s with
  | zero => exact h
  | succ k ih => exact ih h.tick

/-! ## Commands issued -/

theorem ready_of_accepted {s : State} {w : Word} (h : s.ignores w = false) (hw : w ≠ clrerrWord) : s.ready := by
  simpa [State.ignores, hw] using h

theorem State.Inv.memories_accept {s : State} (h : s.Inv) (w : Word) : MemoriesWf (s.accept w) := { h.memories with }

/-- Acceptance of a word with no error latched keeps the invariant (30_encoding.md R94). -/
theorem State.Inv.accept {s : State} (h : s.Inv) (he : s.err = false) (w : Word) : (s.accept w).Inv := by
  have hr : Running (s.accept w) :=
    { h.memories_accept w with busy := rfl, done := rfl, err := he, code := h.errCode_eq_zero he, info := h.errInfo he }
  exact hr.inv_setHidden (x := .accepted w) (by simp) rfl

theorem State.Inv.issueIllegal {s : State} (h : s.Inv) (w : Word) : (s.issueIllegal w).Inv := by
  unfold State.issueIllegal State.issue
  split
  · exact h
  · exact (h.memories_accept w).inv_raise _ _

/-- A command run as one atomic step ends where its ticks end. -/
theorem State.Inv.exec {s t : State} (h : s.Inv) {i : Instr} (ht : exec i s = .next t) : t.Inv := by
  cases hw : s.ignores (encode i) with
  | true =>
    rw [exec_ignored hw] at ht
    obtain rfl := Host.Outcome.next.inj ht
    exact h
  | false =>
    rw [exec_accepted hw] at ht
    obtain rfl := Host.Outcome.next.inj ht
    by_cases hc : encode i = clrerrWord
    · obtain rfl : i = .clrerr := by
        revert hc
        cases i <;> decide
      exact (h.memories_accept _).inv_clrerr
    · obtain ⟨k, hk, -⟩ := endsIn_runOf i s
      exact hk ▸ (h.accept (ready_of_accepted hw hc).2 _).ticks k

theorem State.Inv.issueWord {s t : State} (h : s.Inv) {w : Word} (ht : issueWord w s = .next t) : t.Inv := by
  unfold Machine.issueWord at ht
  split at ht
  · exact h.exec ht
  · obtain rfl := Host.Outcome.next.inj ht
    exact h.issueIllegal w

/-- An acceptance alone keeps the invariant; of NOP and CLRERR, which complete with it, the first iteration does (log 12). -/
theorem State.Inv.issueOnly {s : State} (h : s.Inv) (w : Word) : (s.issueOnly w).Inv := by
  unfold State.issueOnly
  cases hi : s.ignores w with
  | true => exact h
  | false =>
    by_cases hw : w = clrerrWord
    · subst hw
      exact (h.memories_accept _).inv_clrerr
    · have ha := h.accept (ready_of_accepted hi hw).2 w
      simp only [Bool.false_eq_true, if_false]
      split
      · exact ha.tick
      · exact ha

/-! ## The boundary -/

theorem State.Inv.hostRead {s : State} (h : s.Inv) (sp : Space) (i : Nat) : (s.hostRead sp i).Inv := h.record ..

theorem State.Inv.hostWrite {s : State} (h : s.Inv) (sp : Space) (i : Nat) (v : BitVec sp.width) :
    (s.hostWrite sp i v).Inv := by
  cases hb : s.busy with
  | true => rwa [hostWrite_no_effect (.inl hb)]
  | false =>
    have hm := h.memories.hostWrite sp i v
    have hh : (s.hostWrite sp i v).hidden = .idle := by
      rw [hostWrite_only]
      exact h.hidden_of_not_busy hb
    have hok := hiddenOk_of_idle hh
    rw [hostWrite_only] at hm hok ⊢
    exact { h with ftWf := hm.ft, naWf := hm.na, ctWf := hm.ct, symWf := hm.sym, bsWf := hm.bs, hidden := hok }

theorem State.Inv.runHostTx {s t : State} (h : s.Inv) {x : HostTx} (ht : runHostTx x s = .next t) : t.Inv := by
  cases x with
  | read sp i =>
    obtain rfl := Host.Outcome.next.inj ht
    exact h.hostRead sp i
  | write sp i v =>
    by_cases hc : sp = .csr ∧ i = 0
    · obtain ⟨rfl, rfl⟩ := hc
      exact h.issueWord ht
    · rw [runHostTx_write hc] at ht
      obtain rfl := Host.Outcome.next.inj ht
      exact h.hostWrite sp i v

theorem State.Inv.poll {s : State} (h : s.Inv) : s.poll.Inv := by
  unfold State.poll
  split
  · exact (h.hostRead .csr 1).tick.record ..
  · exact h.hostRead .csr 1

/-- The state after reset meets the invariant (10_state.md R44). -/
theorem State.inv_reset : State.reset.Inv :=
  MemoriesWf.inv_idle ⟨Memory.wf_nil _, Memory.wf_nil _, Memory.wf_nil _, Memory.wf_nil _, Memory.wf_nil _⟩
    rfl rfl rfl rfl rfl

/-- Reset, in any state: no command runs, so the epoch of the free values is not in the invariant. -/
theorem State.inv_applyReset (s : State) : s.applyReset.Inv :=
  MemoriesWf.inv_idle { State.inv_reset.memories with } rfl rfl rfl rfl rfl

/-- One event of the boundary keeps the invariant. -/
theorem State.Inv.runEvent {s t : State} (h : s.Inv) {e : Event} (ht : runEvent e s = .next t) : t.Inv := by
  cases e with
  | host x => exact h.runHostTx ht
  | issue w => exact Host.Outcome.next.inj ht ▸ h.issueOnly w
  | tick => exact Host.Outcome.next.inj ht ▸ h.tick
  | wait => exact Host.Outcome.next.inj ht ▸ h.poll
  | reset => exact Host.Outcome.next.inj ht ▸ s.inv_applyReset

/-- Settles O51: a step is one event of the boundary or one iteration of the running command, and each keeps the invariant. -/
theorem stepKeepsInvariant : Obligations.StepKeepsInvariant := by
  unfold Obligations.StepKeepsInvariant
  intro s t h ht
  cases hin : s.inputs with
  | nil =>
    rw [step_nil hin] at ht
    exact Host.Outcome.next.inj ht ▸ h.tick
  | cons e rest =>
    rw [step_cons hin] at ht
    exact State.Inv.runEvent (h.record rest _ _) ht

/-- Settles O52: an idle block without an error, and no element written. -/
theorem resetMeetsInvariant : Obligations.ResetMeetsInvariant := State.inv_reset

end Sys2Proof.Machine
end

section
/-!
What the host's port reads and writes (20_memory.md R62 to R64, R69), and what a command leaves alone (R76). The frame of a command is
the state with the command's outputs, the flags, the error latch and the hidden state blanked out: every piece of the command's
pseudocode, whether it goes on or ends the command, leaves that frame as it found it.
-/

namespace Sys2Proof.Machine

/-! ## Host reads (20_memory.md R62) -/

/-- Where R62 specifies a host read's value, it is the element. -/
theorem hostReadValue_of_specified {s : State} {sp : Space} {i : Nat} (hi : i < sp.size)
    (h : s.busy = false ∨ (sp = .csr ∧ i = 1)) : s.hostReadValue sp i = s.element sp i := by
  unfold State.hostReadValue
  exact if_pos (by simpa [State.readSpecified, hi] using h)

/-- Settles O14: a host read records its reply, which is the element where the value is specified. -/
theorem hostReadOnlyRecords : Obligations.HostReadOnlyRecords := by
  unfold Obligations.HostReadOnlyRecords
  intro s sp i rest hin
  refine ⟨_, State.hostReadValue { s with inputs := rest } sp i, step_cons hin, rfl, fun hi h => ?_⟩
  exact hostReadValue_of_specified (s := { s with inputs := rest }) hi h

/-! ## Host writes to a memory (20_memory.md R63, R64) -/

/-- A host write does not touch BUSY. -/
theorem hostWrite_busy (s : State) (sp : Space) (i : Nat) (v : BitVec sp.width) : (s.hostWrite sp i v).busy = s.busy := by
  rw [hostWrite_only]

/-- A host write in range to a memory of an idle block writes that one element of the memory. -/
theorem element_hostWrite {s : State} (hb : s.busy = false) {sp : Space} (hsp : sp ≠ .csr) {i : Nat} (hi : i < sp.size)
    (v : BitVec sp.width) (j : Nat) :
    (s.hostWrite sp i v).element sp j = if j = i then v else s.element sp j := by
  unfold State.hostWrite
  rw [if_neg (by simpa [hb] using hi)]
  cases sp with
  | csr => exact absurd rfl hsp
  | ft => exact s.ftAt_setFt i v j
  | na => exact s.naAt_setNa i v j
  | ct => exact s.ctAt_setCt i v j
  | sym => exact s.symAt_setSym i v j
  | bs => exact s.bsAt_setBs i v j

/-- A host write to a memory leaves every other space alone. -/
theorem element_hostWrite_other (s : State) {sp sp' : Space} (hsp : sp ≠ .csr) (h : sp' ≠ sp) (i : Nat) (v : BitVec sp.width)
    (j : Nat) : (s.hostWrite sp i v).element sp' j = s.element sp' j := by
  unfold State.hostWrite
  split
  · rfl
  · cases sp with
    | csr => exact absurd rfl hsp
    | ft => cases sp' with
      | ft => exact absurd rfl h
      | _ => rfl
    | na => cases sp' with
      | na => exact absurd rfl h
      | _ => rfl
    | ct => cases sp' with
      | ct => exact absurd rfl h
      | _ => rfl
    | sym => cases sp' with
      | sym => exact absurd rfl h
      | _ => rfl
    | bs => cases sp' with
      | bs => exact absurd rfl h
      | _ => rfl

/-- Settles O15: the block stays idle, so a host read returns the element, and a host write writes one element. -/
theorem hostWriteThenReadGivesIt : Obligations.HostWriteThenReadGivesIt := by
  unfold Obligations.HostWriteThenReadGivesIt
  intro s sp i v hb hsp hi
  have hb' : (s.hostWrite sp i v).busy = false := (hostWrite_busy s sp i v).trans hb
  refine ⟨?_, fun sp' j hj hother => ?_⟩
  · rw [hostReadValue_of_idle hb' hi, element_hostWrite hb hsp hi, if_pos rfl]
  · rw [hostReadValue_of_idle hb' hj, hostReadValue_of_idle hb hj]
    by_cases h : sp' = sp
    · subst h
      rw [element_hostWrite hb hsp hi, if_neg (hother.resolve_left (fun hne => hne rfl))]
    · exact element_hostWrite_other s hsp h i v j

/-! ## What a command leaves alone (20_memory.md R76) -/

/-- The frame of command `i`: the state without the outputs of `i` and without what any command may write, the flags, the error
latch and the hidden state. -/
def State.frame (i : Instr) (s : State) : State where
  busy := false
  done := false
  err := false
  decState := if i = .decode then .atRoot else s.decState
  lastOp := 0
  errCode := 0
  errInfo := 0
  symLen := if i = .decode then 0 else s.symLen
  bitLen := if i = .encode then 0 else s.bitLen
  root := if i = .build then 0 else s.root
  nodeCount := if i = .build then 0 else s.nodeCount
  ft := s.ft
  na := if i = .build then [] else s.na
  ct := if i = .gen then [] else s.ct
  sym := if i = .decode then [] else s.sym
  bs := if i = .encode then [] else s.bs
  hidden := .idle
  inputs := s.inputs
  replies := s.replies
  epoch := s.epoch
  draws := s.draws

/-- A bind that goes on in state `g b` goes on with each of its pieces. -/
theorem goOn_bind {α β : Type} (r : Run α) (f : α → Run β) (g : β → State) :
    Run.goOn (Except.bind r f) g = r.goOn fun a => (f a).goOn g := by
  cases r <;> rfl

/-- A command that ends with the piece `f a` ends where that piece ends. -/
theorem finish_bind {α : Type} (r : Run α) (f : α → Run State) :
    Run.finish (Except.bind r f) = r.goOn fun a => (f a).finish := by
  cases r <;> rfl

theorem finish_map {α : Type} (r : Run α) (f : α → State) : Run.finish (Except.map f r) = r.goOn fun a => (f a).complete := by
  cases r <;> rfl

/-- What follows the piece `r` keeps the frame, if it does so from wherever `r` goes on. -/
theorem frame_goOn {i : Instr} {α : Type} {r : Run α} {f st : α → State} (h : ∀ a, (f a).frame i = (st a).frame i) :
    (r.goOn f).frame i = (r.goOn st).frame i := by
  cases r with
  | error t => rfl
  | ok a => exact h a

/-- Completion keeps the frame. -/
theorem frame_finish (i : Instr) (r : Run State) : r.finish.frame i = (r.goOn id).frame i := by
  cases r <;> rfl

/-! ### BUILD -/

theorem frame_buildClear (s : State) : (buildClear s).frame .build = s.frame .build := by
  simp [State.frame]

theorem frame_buildLeaf (v : Nat) (f : Forest) : (buildLeaf v f).st.frame .build = f.st.frame .build := by
  unfold buildLeaf
  split <;> rfl

theorem frame_buildScan (left v : Nat) (f : Forest) : (buildScan left v f).st.frame .build = f.st.frame .build := by
  induction left generalizing v f with
  | zero => rfl
  | succ left ih => exact (ih (v + 1) (buildLeaf v f)).trans (frame_buildLeaf v f)

theorem frame_buildEdges (f : Forest) : ((buildEdges f).goOn Forest.st).frame .build = f.st.frame .build := by
  unfold buildEdges
  split
  · rfl
  · split <;> rfl

theorem frame_buildMerge (f : Forest) : ((buildMerge f).goOn Forest.st).frame .build = f.st.frame .build := by
  unfold buildMerge
  simp only
  split <;> rfl

theorem frame_buildMerges (room : Nat) (f : Forest) :
    ((buildMerges room f).goOn Forest.st).frame .build = f.st.frame .build := by
  induction room generalizing f with
  | zero => rfl
  | succ room ih =>
    unfold buildMerges
    split
    · rw [goOn_bind]
      exact (frame_goOn ih).trans (frame_buildMerge f)
    · rfl

theorem frame_buildRun (s : State) : (buildRun s).finish.frame .build = s.frame .build := by
  have hmerges (f : Forest) :
      (Run.finish ((buildMerges f.pq.length f).map buildStore)).frame .build = f.st.frame .build := by
    rw [finish_map, ← frame_buildMerges f.pq.length f]
    exact frame_goOn fun _ => rfl
  rw [buildRun, finish_bind]
  calc _ = ((buildEdges (buildScan Config.nsym 0 (buildBegin s))).goOn Forest.st).frame .build := frame_goOn hmerges
    _ = (buildScan Config.nsym 0 (buildBegin s)).st.frame .build := frame_buildEdges _
    _ = (buildBegin s).st.frame .build := frame_buildScan ..
    _ = s.frame .build := by rw [buildBegin_st, frame_buildClear]

/-! ### GEN -/

theorem frame_genStart (s : State) : ((genStart s).goOn id).frame .gen = s.frame .gen := by
  unfold genStart
  simp only
  split
  · split <;> rfl
  · rfl

theorem frame_genVisit (k : NodeIdx) (path : BitString) (s : State) :
    ((genVisit k path s).goOn (·.2)).frame .gen = s.frame .gen := by
  cases h : genVisit k path s with
  | error t =>
    rw [genVisit_error h]
    rfl
  | ok r => obtain ⟨-, -, rfl⟩ | ⟨-, -, -, -, rfl⟩ := genVisit_ok h <;> rfl

theorem frame_walk (room : Nat) (k : NodeIdx) (path : BitString) (s : State) :
    ((walk room k path s).goOn id).frame .gen = s.frame .gen := by
  induction room generalizing k path s with
  | zero =>
    rw [walk, goOn_map]
    exact frame_genVisit k path s
  | succ room ih =>
    rw [walk, goOn_bind]
    refine (frame_goOn fun r => ?_).trans (frame_genVisit k path s)
    obtain ⟨children, u⟩ := r
    cases children with
    | none => rfl
    | some c =>
      simp only [goOn_bind]
      exact (frame_goOn fun u' => ih ..).trans (ih ..)

theorem frame_genRun (s : State) : (genRun s).finish.frame .gen = s.frame .gen := by
  rw [genRun, finish_bind]
  refine (frame_goOn fun u => ?_).trans (frame_genStart s)
  exact (frame_finish .gen _).trans (frame_walk Config.codeLenMax u.root [] u)

/-! ### ENCODE -/

theorem frame_encodeStart (s : State) : ((encodeStart s).goOn id).frame .encode = s.frame .encode := by
  unfold encodeStart
  split <;> rfl

theorem frame_encodeSymbol (i bitpos : Nat) (s : State) :
    ((encodeSymbol i bitpos s).goOn (·.2)).frame .encode = s.frame .encode := by
  unfold encodeSymbol
  simp only
  split
  · rfl
  · split
    · rfl
    · rw [Run.goOn_ok, putBits_eq]
      rfl

theorem frame_encodeLoop (left i bitpos : Nat) (s : State) :
    ((encodeLoop left i bitpos s).goOn (·.2)).frame .encode = s.frame .encode := by
  induction left generalizing i bitpos s with
  | zero => rfl
  | succ left ih =>
    rw [encodeLoop, goOn_bind]
    exact (frame_goOn fun r : Nat × State => ih (i + 1) r.1 r.2).trans (frame_encodeSymbol i bitpos s)

theorem frame_encodeRun (s : State) : (encodeRun s).finish.frame .encode = s.frame .encode := by
  rw [encodeRun, finish_bind]
  refine (frame_goOn fun u => ?_).trans (frame_encodeStart s)
  rw [finish_map, id, ← frame_encodeLoop u.symLen.toNat 0 0 u]
  exact frame_goOn fun _ => rfl

/-! ### DECODE -/

theorem frame_decodeStart (s : State) : ((decodeStart s).goOn Cursor.st).frame .decode = s.frame .decode := by
  unfold decodeStart
  split <;> rfl

theorem frame_decodeArrive (j : Nat) (nxt : NodeIdx) (c : Cursor) :
    ((decodeArrive j nxt c).goOn Cursor.st).frame .decode = c.st.frame .decode := by
  unfold decodeArrive
  split
  · split <;> rfl
  · rfl
  · rfl

theorem frame_decodeBit (j : Nat) (c : Cursor) : ((decodeBit j c).goOn Cursor.st).frame .decode = c.st.frame .decode := by
  unfold decodeBit
  simp only
  split
  · split
    · exact frame_decodeArrive ..
    · rfl
  · rfl

theorem frame_decodeLoop (left j : Nat) (c : Cursor) :
    ((decodeLoop left j c).goOn Cursor.st).frame .decode = c.st.frame .decode := by
  induction left generalizing j c with
  | zero => rfl
  | succ left ih =>
    rw [decodeLoop, goOn_bind]
    exact (frame_goOn (ih (j + 1))).trans (frame_decodeBit j c)

theorem frame_decodeEnd (c : Cursor) : (decodeEnd c).finish.frame .decode = c.st.frame .decode := by
  unfold decodeEnd
  split <;> rfl

theorem frame_decodeRun (s : State) : (decodeRun s).finish.frame .decode = s.frame .decode := by
  rw [decodeRun, finish_bind]
  refine (frame_goOn fun c => ?_).trans (frame_decodeStart s)
  rw [finish_bind]
  exact (frame_goOn frame_decodeEnd).trans (frame_decodeLoop c.st.bitLen.toNat 0 c)

/-! ### Every command -/

/-- A command's pseudocode keeps its frame, whether it completes or raises. -/
theorem frame_runOf (i : Instr) (s : State) : (runOf i s).finish.frame i = s.frame i := by
  cases i with
  | nop => rfl
  | build => exact frame_buildRun s
  | gen => exact frame_genRun s
  | encode => exact frame_encodeRun s
  | decode => exact frame_decodeRun s
  | clrerr => rfl

/-- A command keeps its frame, also when it is ignored. -/
theorem frame_exec {i : Instr} {s t : State} (h : exec i s = .next t) : t.frame i = s.frame i := by
  cases hg : s.ignores (encode i) with
  | true =>
    rw [exec_ignored hg] at h
    obtain rfl := Host.Outcome.next.inj h
    rfl
  | false =>
    rw [exec_accepted hg] at h
    obtain rfl := Host.Outcome.next.inj h
    exact frame_runOf i _

/-- Settles O48: a command keeps its frame, and everything but the command's outputs can be read off the frame. -/
theorem commandsWriteOnlyTheirOutputs : Obligations.CommandsWriteOnlyTheirOutputs := by
  unfold Obligations.CommandsWriteOnlyTheirOutputs
  intro i s t ht
  have h := frame_exec ht
  simp only [State.frame, State.mk.injEq, true_and] at h
  obtain ⟨hdec, hsymLen, hbitLen, hroot, hcount, hft, hna, hct, hsym, hbs, hin, hrep, hepoch, hdraws⟩ := h
  refine ⟨fun hi => ?_, fun hi => ?_, fun hi => ?_, fun hi => ?_, hft, hin, hrep, hepoch, hdraws⟩
  · simp only [if_neg hi] at hna hroot hcount
    exact ⟨hna, hroot, hcount⟩
  · simpa only [if_neg hi] using hct
  · simp only [if_neg hi] at hbs hbitLen
    exact ⟨hbs, hbitLen⟩
  · simp only [if_neg hi] at hsym hsymLen hdec
    exact ⟨hsym, hsymLen, hdec⟩

end Sys2Proof.Machine
end

section
/-!
Command words: the decoder inverts the encoder, since a word is its RSVZ field above its OP field and the opcode map inverts the
opcodes (30_encoding.md R90, R91, R96); and what the issue of a word to CMD does: it is ignored, accepted and illegal, or accepted
and executed (R92 to R96).
-/

namespace Sys2Proof

/-! ## The fields of a command word (30_encoding.md R90, R91) -/

/-- A word is its RSVZ field above its OP field. -/
theorem rsvzField_append_opField (w : Word) : (rsvzField w ++ opField w : BitVec 32) = w :=
  (BitVec.extractLsb'_append_extractLsb'_eq_extractLsb' (by decide)).trans BitVec.extractLsb'_eq_self

@[simp] theorem rsvzField_encode (i : Instr) : rsvzField (encode i) = 0 := by cases i <;> decide

@[simp] theorem opField_encode (i : Instr) : opField (encode i) = opcodeOf i := by cases i <;> decide

/-- The opcode map takes an opcode to the one command whose opcode it is. -/
theorem opcodeMap_eq_some_iff (op : BitVec 4) (i : Instr) : opcodeMap op = some i ↔ op = opcodeOf i := by
  revert op
  cases i <;> decide

/-- Exactly the opcodes up to 5 are assigned. -/
theorem opcodeMap_isSome_iff (op : BitVec 4) : (opcodeMap op).isSome = true ↔ op.toNat ≤ 5 := by
  revert op
  decide

/-! ## Decoding -/

theorem decode_eq_ok_iff_fields (w : Word) (i : Instr) :
    decode w = .ok i ↔ rsvzField w = 0 ∧ opcodeMap (opField w) = some i := by
  have hz : rsvzIsZero w = true ↔ rsvzField w = 0 := beq_iff_eq
  rw [← hz]
  unfold decode
  split
  · cases opcodeMap (opField w) <;> simp [*]
  · simp [*]

/-- A word decodes to a command exactly if it is the command's word. -/
theorem decode_eq_ok_iff (w : Word) (i : Instr) : decode w = .ok i ↔ encode i = w := by
  rw [decode_eq_ok_iff_fields, opcodeMap_eq_some_iff]
  constructor
  · rintro ⟨hrsvz, hop⟩
    calc encode i = (rsvzField w ++ opField w : BitVec 32) := by rw [hrsvz, hop]; rfl
      _ = w := rsvzField_append_opField w
  · rintro rfl
    exact ⟨rsvzField_encode i, opField_encode i⟩

theorem decode_encode_eq (i : Instr) : decode (encode i) = .ok i := (decode_eq_ok_iff _ i).2 rfl

/-- A word decodes exactly if it is legal (30_encoding.md R96). -/
theorem exists_decode_eq_ok_iff (w : Word) :
    (∃ i, decode w = .ok i) ↔ rsvzField w = 0 ∧ (opField w).toNat ≤ 5 := by
  simp only [decode_eq_ok_iff_fields, exists_and_left, ← opcodeMap_isSome_iff, Option.isSome_iff_exists]

/-- A word that is not legal is rejected. -/
theorem exists_decode_eq_error {w : Word} (h : ¬(rsvzField w = 0 ∧ (opField w).toNat ≤ 5)) :
    ∃ e, decode w = .error e := by
  cases hd : decode w with
  | ok i => exact absurd ((exists_decode_eq_ok_iff w).1 ⟨i, hd⟩) h
  | error e => exact ⟨e, rfl⟩

/-- Settles O2: a word decodes to a command exactly if it is the command's word, and decodes at all exactly if it is legal. -/
theorem decodeAndEncodeAgree : Obligations.DecodeAndEncodeAgree := by
  unfold Obligations.DecodeAndEncodeAgree
  exact ⟨decode_encode_eq, fun w => ⟨(exists_decode_eq_ok_iff w).symm, fun i => (decode_eq_ok_iff w i).1⟩⟩

/-- Settles O1: the six words written out, the ten reserved opcodes, and a low and the highest bit of RSVZ. -/
theorem opcodeMapWordsDecode : Obligations.OpcodeMapWordsDecode := by
  unfold Obligations.OpcodeMapWordsDecode
  exact ⟨decode_nop, decode_build, decode_gen, decode_encode, decode_decode, decode_clrerr, by decide, by decide, by decide⟩

end Sys2Proof

namespace Sys2Proof.Machine

/-! ## Issue (30_encoding.md R92, R93) -/

/-- The issue of a legal word is its command. -/
theorem issueWord_of_decode_ok {w : Word} {i : Instr} (h : decode w = .ok i) (s : State) : issueWord w s = exec i s := by
  simp only [issueWord, h]

/-- The issue of a word that does not decode is that of an illegal command (30_encoding.md R96). -/
theorem issueWord_of_decode_error {w : Word} {e : DecodeError} (h : decode w = .error e) (s : State) :
    issueWord w s = .next (s.issueIllegal w) := by
  simp only [issueWord, h]

theorem issueWord_ignored {s : State} {w : Word} (h : s.ignores w = true) : issueWord w s = .next s := by
  cases hd : decode w with
  | ok i =>
    obtain rfl := (decode_eq_ok_iff w i).1 hd
    rw [issueWord_of_decode_ok hd, exec_ignored h]
  | error e => rw [issueWord_of_decode_error hd, State.issueIllegal, State.issue_ignored h]

theorem State.issueOnly_ignored {s : State} {w : Word} (h : s.ignores w = true) : s.issueOnly w = s := if_pos h

/-- A word of neither NOP nor CLRERR is accepted by a ready block, and nothing more (30_encoding.md R94, log 12). -/
theorem State.issueOnly_of_ready {s : State} (h : s.ready) {w : Word} (hnop : w ≠ encode .nop) (hclr : w ≠ encode .clrerr) :
    s.issueOnly w = s.accept w := by
  simp [State.issueOnly, State.ignores_of_ready h, completesAtOnce, hnop, hclr]

/-- Settles O6: the gate decides before the word is looked at, in an atomic step and in an acceptance alike. -/
theorem ignoredIssueChangesNothing : Obligations.IgnoredIssueChangesNothing := by
  unfold Obligations.IgnoredIssueChangesNothing
  intro s w h
  have hi : s.ignores w = true := (s.ignores_iff w).2 h
  exact ⟨issueWord_ignored hi, State.issueOnly_ignored hi⟩

/-- Settles O7: the issue is the acceptance alone, and the first tick after it begins the command whose word it is. -/
theorem acceptanceSetsBusy : Obligations.AcceptanceSetsBusy := by
  unfold Obligations.AcceptanceSetsBusy
  intro s w hb he hnop hclr
  have ha : s.issueOnly w = s.accept w := State.issueOnly_of_ready ⟨hb, he⟩ hnop hclr
  rw [ha]
  refine ⟨rfl, fun i hi => ?_⟩
  obtain rfl := (decode_eq_ok_iff w i).1 hi
  exact tick_accept s i

/-- Settles O9: the word does not decode, so once accepted it raises and ends. -/
theorem illegalWordRaises : Obligations.IllegalWordRaises := by
  unfold Obligations.IllegalWordRaises
  intro s w hb he hw
  obtain ⟨e, hd⟩ := exists_decode_eq_error hw
  calc runHostTx (.write .csr 0 w) s = .next (s.issueIllegal w) := issueWord_of_decode_error hd s
    _ = .next (s.raised w .illegalCommand w) :=
      congrArg _ (State.issue_accepted (State.ignores_of_ready ⟨hb, he⟩ w) (illegalRun w))

/-! ## A step that issues a command (20_memory.md R63) -/

theorem fetchWord_toNat (w : Word) : fetchWord 32 w.toNat = w := by
  simp [fetchWord, Nat.mod_eq_of_lt w.isLt]

/-- Settles O3: the step takes the CMD write, whose issue is the command of its word. -/
theorem stepRunsDecodedCommand : Obligations.StepRunsDecodedCommand := by
  unfold Obligations.StepRunsDecodedCommand
  intro s w i hd
  have hstep (u : State) (rest : List Event) (hin : u.inputs = .host (.write .csr 0 w) :: rest) :
      step u = exec i { u with inputs := rest } :=
    (step_cons hin).trans (issueWord_of_decode_ok hd _)
  refine ⟨hstep s, ?_⟩
  rw [State.withFetchWord, fetchWord_toNat]
  exact hstep (s.hostIssues w) s.inputs rfl

end Sys2Proof.Machine
end

section
/-!
BUILD (40_tree_builder.md): `extract_min` against the order of R122; one merge of phase 3 (R123, R126); and the forest between
two merges, `Merged`, from which the full tree (R124, R128) and the overflow (R126) are read off at the end.
-/

namespace Sys2Proof.Machine

/-! ## `extract_min` (40_tree_builder.md R122) -/

theorem pqBefore_iff {s : State} {a b : Nat} :
    pqBefore s a b = true ↔
      (weightOf (s.naAt a)).toNat < (weightOf (s.naAt b)).toNat ∨
        ((weightOf (s.naAt a)).toNat = (weightOf (s.naAt b)).toNat ∧ a < b) := by
  simp [pqBefore]

theorem pqBefore_asymm {s : State} {a b : Nat} (h : pqBefore s a b = true) : ¬pqBefore s b a = true := by
  rw [pqBefore_iff] at h ⊢
  omega

/-- Of two different indices one leaves PQ first. -/
theorem pqBefore_of_not {s : State} {a b : Nat} (hne : a ≠ b) (h : ¬pqBefore s b a = true) : pqBefore s a b = true := by
  rw [pqBefore_iff] at h ⊢
  omega

theorem not_pqBefore_trans {s : State} {a b c : Nat} (h : ¬pqBefore s a b = true) (h' : ¬pqBefore s b c = true) :
    ¬pqBefore s a c = true := by
  rw [pqBefore_iff] at h h' ⊢
  omega

/-- No index leaves PQ before the one `pqLeast` picks. -/
theorem not_pqBefore_pqLeast (s : State) (k : Nat) (ks : List Nat) :
    ∀ j ∈ k :: ks, ¬pqBefore s j (pqLeast s k ks) = true := by
  induction ks generalizing k with
  | nil =>
    intro j hj
    obtain rfl := List.mem_singleton.1 hj
    exact fun h => pqBefore_asymm h h
  | cons i is ih =>
    have hleast (x : Nat) : ¬pqBefore s x (pqLeast s x is) = true := ih x x List.mem_cons_self
    intro j hj
    simp only [pqLeast]
    rcases List.mem_cons.1 hj with rfl | hj
    · split
      next hi => exact not_pqBefore_trans (pqBefore_asymm hi) (hleast i)
      next => exact hleast j
    · rcases List.mem_cons.1 hj with rfl | hj
      · split
        next => exact hleast j
        next hi => exact not_pqBefore_trans hi (hleast k)
      · exact ih _ j (List.mem_cons_of_mem _ hj)

theorem extractMin_fst_mem {s : State} {pq : List Nat} (h : pq ≠ []) : (extractMin s pq).1 ∈ pq :=
  (extractMin_perm h).subset List.mem_cons_self

/-- The extracted index leaves before every other. -/
theorem pqBefore_extractMin {s : State} {pq : List Nat} {j : Nat} (hj : j ∈ pq) (hne : j ≠ (extractMin s pq).1) :
    pqBefore s (extractMin s pq).1 j = true := by
  cases pq with
  | nil => exact absurd hj List.not_mem_nil
  | cons k ks => exact pqBefore_of_not hne.symm (not_pqBefore_pqLeast s k ks j hj)

theorem extractMin_snd {s : State} {pq : List Nat} (hn : pq.Nodup) :
    (extractMin s pq).2 = pq.filter (fun j => j ≠ (extractMin s pq).1) := by
  cases pq with
  | nil => rfl
  | cons k ks =>
    rw [extractMin, hn.erase_eq_filter]
    exact List.filter_congr fun j _ => by simp only [bne, Bool.beq_eq_decide_eq, ne_eq, decide_not]

/-- Settles O22: `pqLeast` keeps the least index met so far, and erasing it from a queue without repeats leaves the others. -/
theorem extractMinTakesLeastPair : Obligations.ExtractMinTakesLeastPair := by
  unfold Obligations.ExtractMinTakesLeastPair
  intro s pq hpq hn
  exact ⟨extractMin_fst_mem hpq, extractMin_snd hn, fun j hj hne => pqBefore_iff.1 (pqBefore_extractMin hj hne)⟩

/-- The index that leaves before every other is the extracted one. -/
theorem extractMin_eq {s : State} {pq : List Nat} {a : Nat} (hn : pq.Nodup) (ha : a ∈ pq)
    (hleast : ∀ j ∈ pq, j ≠ a → pqBefore s a j = true) : extractMin s pq = (a, pq.filter (fun j => j ≠ a)) := by
  have hfst : (extractMin s pq).1 = a := by
    by_contra hne
    exact pqBefore_asymm (pqBefore_extractMin ha (Ne.symm hne))
      (hleast _ (extractMin_fst_mem (List.ne_nil_of_mem ha)) hne)
  exact Prod.ext hfst (hfst ▸ extractMin_snd hn)

/-! ## One merge (40_tree_builder.md R121 phase 3) -/

/-- The forest after a merge of `a` (extracted first) and `b` (second), `rest` left in PQ: `b` left, `a` right (R123). -/
def Forest.merge (f : Forest) (a b : Nat) (rest : List Nat) : Forest where
  pq := rest ++ [f.n]
  n := f.n + 1
  st := f.st.setNa f.n (intNode (BitVec.ofNat 9 b) (BitVec.ofNat 9 a) (weightOf (f.st.naAt a) + weightOf (f.st.naAt b)))

/-- What a merge does with the two indices it extracts (R123, R126). -/
theorem buildMerge_eq {f : Forest} {a b : Nat} {q rest : List Nat} (ha : extractMin f.st f.pq = (a, q))
    (hb : extractMin f.st q = (b, rest)) :
    buildMerge f =
      if (weightOf (f.st.naAt a)).toNat + (weightOf (f.st.naAt b)).toNat < 2 ^ 32 then .ok (f.merge a b rest)
      else .error (f.st.raise .weightOverflow (BitVec.ofNat 32 f.n)) := by
  simp only [buildMerge, ha, hb]
  by_cases hw : (weightOf (f.st.naAt a)).toNat + (weightOf (f.st.naAt b)).toNat < 2 ^ 32
  · rw [if_neg (Nat.not_le.2 hw), if_pos hw, Forest.merge, BitVec.ofNat_add, BitVec.ofNat_toNat, BitVec.ofNat_toNat,
      BitVec.setWidth_eq, BitVec.setWidth_eq]
  · rw [if_pos (Nat.le_of_not_lt hw), if_neg hw]

/-- A queue of two or more gives up two indices. -/
theorem exists_extractMin_pair (s : State) {pq : List Nat} (hq : 1 < pq.length) :
    ∃ a b q rest, extractMin s pq = (a, q) ∧ extractMin s q = (b, rest) ∧ (a :: b :: rest).Perm pq := by
  have hne : pq ≠ [] := List.ne_nil_of_length_pos (by omega)
  have hl := length_extractMin (s := s) hne
  have hne' : (extractMin s pq).2 ≠ [] := List.ne_nil_of_length_pos (by omega)
  exact ⟨_, _, _, _, rfl, rfl, ((extractMin_perm hne').cons _).trans (extractMin_perm hne)⟩

/-- Settles O23: `a` and `b` are the two indices extracted, so the tick is the merge of the two. -/
theorem mergePutsLightestRight : Obligations.MergePutsLightestRight := by
  unfold Obligations.MergePutsLightestRight
  intro s pq n a b hh hn ha hb hab hfirst hsecond
  have hq : 1 < pq.length :=
    (List.subperm_of_subset (l₁ := [a, b]) (by simpa using hab) (by simp [ha, hb])).length_le
  have hea := extractMin_eq hn ha hfirst
  have heb : extractMin s (pq.filter fun j => j ≠ a) = (b, pq.filter fun j => j ≠ a ∧ j ≠ b) := by
    rw [extractMin_eq (a := b) (hn.filter _) (by simp [hb, hab.symm]) (by simpa using hsecond), List.filter_filter]
    simp only [Bool.decide_and, Bool.and_comm]
  have htick := tick_buildMerge { pq := pq, n := n, st := s }
  rw [State.setHidden_self hh, if_pos hq, buildMerge_eq hea heb] at htick
  rw [htick]
  split <;> rfl

/-! ## The present symbols and their counts (10_state.md R31) -/

theorem length_present_le (s : State) : (present s).length ≤ Config.nsym := length_presentBelow_le s _

theorem sum_presentBelow (s : State) (v : Nat) :
    ((presentBelow s v).map fun w => (s.ftAt w).toNat).sum = ((List.range v).map fun w => (s.ftAt w).toNat).sum := by
  induction v with
  | zero => rfl
  | succ v ih =>
    rw [presentBelow_succ, List.range_succ, List.map_append, List.sum_append]
    split
    next h0 => simp [ih, h0]
    next => simp [ih]

/-- The symbols that are absent count nothing. -/
theorem sum_present (s : State) : ((present s).map fun v => (s.ftAt v).toNat).sum = ftTotal s := sum_presentBelow s _

theorem present_eq_singleton {s : State} {v : Nat} (hv : v < Config.nsym) (hpos : s.ftAt v ≠ 0)
    (hzero : ∀ w < Config.nsym, w ≠ v → s.ftAt w = 0) : present s = [v] := by
  refine List.perm_singleton.1 ((List.perm_ext_iff_of_nodup (List.nodup_range.filter _) (List.nodup_singleton v)).2
    fun w => ?_)
  simp only [List.mem_filter, List.mem_range, decide_eq_true_eq, List.mem_singleton]
  constructor
  · rintro ⟨hw, hne⟩
    by_contra hwv
    exact hne (hzero w hw hwv)
  · rintro rfl
    exact ⟨hv, hpos⟩

/-! ## The ends of BUILD -/

/-- BUILD of a ready block is its pseudocode, accepted and run to its end. -/
theorem exec_build_of_ready {s : State} (h : s.ready) :
    exec .build s = .next (buildRun (s.accept 0x00000001)).finish :=
  exec_of_ready h .build

/-- A node written after phase 0 leaves all but NA as phase 0 left it. -/
theorem only_setNa {s t : State} (h : t = { buildClear s with na := t.na }) (i : Nat) (v : NodeElem) :
    t.setNa i v = { buildClear s with na := (t.setNa i v).na } := by
  rw [h]
  rfl

/-- Where NA alone has been written since phase 0, storing ROOT and NODE_COUNT completes the command. -/
theorem complete_of_only {s t : State} {w : Word} (h : t = { buildClear (s.accept w) with na := t.na }) (r : NodeIdx)
    (c : BitVec 10) :
    ((t.setRoot r).setNodeCount c).complete = { s.completed w with na := t.na, root := r, nodeCount := c } := by
  rw [h]
  rfl

/-- Where NA alone has been written since phase 0, an error leaves ROOT and NODE_COUNT cleared. -/
theorem raise_of_only {s t : State} {w : Word} (h : t = { buildClear (s.accept w) with na := t.na }) (e : Err)
    (info : Word) : t.raise e info = { s.raised w e info with na := t.na, root := 0, nodeCount := 0 } := by
  rw [h]
  rfl

/-! ## The degenerate tree (40_tree_builder.md R125) -/

/-- Phase 2 of one symbol: the node above its leaf. -/
theorem buildEdges_of_one {f : Forest} (h : f.n = 1) :
    buildEdges f =
      .error (((f.st.setNa 1 (wrapperNode (weightOf (f.st.naAt 0)))).setRoot 1).setNodeCount 2).complete := by
  rw [buildEdges, if_neg (by omega), if_pos h]

theorem buildEdges_of_two {f : Forest} (h : 2 ≤ f.n) : buildEdges f = .ok f := by
  rw [buildEdges, if_neg (by omega), if_neg (by omega)]

/-- BUILD of the one symbol `v`: what NA then holds. -/
theorem buildRun_of_one {s : State} {v : Nat} (h : present s = [v]) :
    ∃ t : State, (buildRun s).finish = ((t.setRoot 1).setNodeCount 2).complete ∧
      t = { buildClear s with na := t.na } ∧ t.naAt 0 = leafNode (BitVec.ofNat 8 v) (s.ftAt v) ∧
      t.naAt 1 = wrapperNode (s.ftAt v) ∧ ∀ k < Config.nodeCap, 2 ≤ k → t.naAt k = 0 := by
  have hs := scanned s
  rw [buildRun]
  generalize buildScan Config.nsym 0 (buildBegin s) = f at hs ⊢
  have hn : f.n = 1 := by rw [hs.n, ← present_eq_presentBelow, h, List.length_singleton]
  have hleaf : f.st.naAt 0 = leafNode (BitVec.ofNat 8 v) (s.ftAt v) :=
    hs.leaves 0 v (by rw [← present_eq_presentBelow, h]; rfl)
  refine ⟨f.st.setNa 1 (wrapperNode (weightOf (f.st.naAt 0))), by rw [buildEdges_of_one hn]; rfl,
    only_setNa hs.only _ _, ?_, ?_, fun k hk h2 => ?_⟩
  · rw [State.naAt_setNa, if_neg (by decide), hleaf]
  · rw [State.naAt_setNa, if_pos rfl, hleaf, weightOf_leafNode]
  · rw [State.naAt_setNa, if_neg (by omega), hs.free k hk (by omega)]

/-- Settles O19: the forest of one leaf gets the degenerate root. -/
theorem buildSingleSymbolWraps : Obligations.BuildSingleSymbolWraps := by
  unfold Obligations.BuildSingleSymbolWraps
  intro s v hready hv hpos hzero
  obtain ⟨t, hrun, honly, hleaf, hroot, hfree⟩ :=
    buildRun_of_one (s := s.accept 0x00000001) (present_eq_singleton hv hpos hzero)
  refine ⟨_, exec_build_of_ready hready, ?_⟩
  rw [hrun]
  exact ⟨complete_of_only honly 1 2, hleaf, hroot, hfree⟩

/-! ## Between two merges (40_tree_builder.md R124, R128) -/

/-- Node `k` is an internal node made from the `N` leaves so far, and node `j` is a child of it. -/
def Forest.IsParent (N : Nat) (f : Forest) (k j : Nat) : Prop :=
  N ≤ k ∧ k < f.n ∧ ((leftOf (f.st.naAt k)).toNat = j ∨ (rightOf (f.st.naAt k)).toNat = j)

/-- The sum of the weights of the nodes in PQ. -/
def Forest.pqWeight (f : Forest) : Nat := (f.pq.map fun k => (weightOf (f.st.naAt k)).toNat).sum

/-- Every node from `N` on has two children, both made before it, and weighs what they weigh. -/
def Forest.InternalOk (N : Nat) (f : Forest) : Prop :=
  ∀ k, N ≤ k → k < f.n →
    ∃ l r : Nat, l < k ∧ r < k ∧ l ≠ r ∧ ∃ w : Weight,
      f.st.naAt k = intNode (BitVec.ofNat 9 l) (BitVec.ofNat 9 r) w ∧
      w.toNat = (weightOf (f.st.naAt l)).toNat + (weightOf (f.st.naAt r)).toNat

/-- PQ lists nodes made so far, without repeats, and exactly the nodes that have left it have a parent, just one, which was made
later. -/
structure Forest.Linked (N : Nat) (f : Forest) : Prop where
  leaves_le : N ≤ f.n
  nodup : f.pq.Nodup
  lt_n : ∀ k ∈ f.pq, k < f.n
  below : ∀ k j, f.IsParent N k j → j < k ∧ j ∉ f.pq
  parent : ∀ j < f.n, j ∉ f.pq → ∃ k, f.IsParent N k j
  unique : ∀ k k' j, f.IsParent N k j → f.IsParent N k' j → k' = k

/-- The forest between two merges of phase 3: NA alone is written since phase 0; the leaves stand first, the internal nodes after
them, the rest is FREE; PQ holds the nodes without a parent, the newest among them, and weighs what all counts sum to. -/
structure Merged (s : State) (f : Forest) : Prop extends Forest.Linked (present s).length f where
  only : f.st = { buildClear s with na := f.st.na }
  count : f.n + f.pq.length = 2 * (present s).length
  newest : f.n - 1 ∈ f.pq
  leaves : ∀ i v, (present s)[i]? = some v → f.st.naAt i = leafNode (BitVec.ofNat 8 v) (s.ftAt v)
  internal : f.InternalOk (present s).length
  weight : f.pqWeight = ftTotal s
  free : ∀ k < Config.nodeCap, f.n ≤ k → f.st.naAt k = 0

/-- Phase 3 begins with the leaves, all of them in PQ. -/
theorem Scanned.merged {s : State} {f : Forest} (h : Scanned s Config.nsym f) (hpos : 0 < f.n) : Merged s f := by
  have hn : f.n = (present s).length := h.n
  have hparent (k j : Nat) : ¬f.IsParent (present s).length k j := fun ⟨h1, h2, _⟩ => by omega
  have hweights : (f.pq.map fun k => (weightOf (f.st.naAt k)).toNat) =
      (present s).map fun v => (s.ftAt v).toNat := by
    refine List.ext_getElem (by simp [h.pq, hn]) fun i h1 h2 => ?_
    have hi : i < (present s).length := by simpa using h2
    simp [h.pq, h.leaves i _ (List.getElem?_eq_getElem hi)]
  exact {
    only := h.only
    count := by rw [h.pq, List.length_range, hn]; omega
    leaves_le := hn.ge
    nodup := h.pq ▸ List.nodup_range
    lt_n := fun k hk => List.mem_range.1 (h.pq ▸ hk)
    newest := by rw [h.pq, List.mem_range]; omega
    leaves := h.leaves
    internal := fun k h1 h2 => by omega
    below := fun k j hk => absurd hk (hparent k j)
    parent := fun j hj hpq => absurd (h.pq ▸ List.mem_range.2 hj) hpq
    unique := fun k _ j hk => absurd hk (hparent k j)
    weight := by rw [Forest.pqWeight, hweights, sum_present]
    free := h.free }

theorem Merged.n_lt {s : State} {f : Forest} (h : Merged s f) : f.n < Config.nodeCap := by
  have hcount := h.count
  have hle : (present s).length ≤ 256 := length_present_le s
  have hpos := List.length_pos_of_mem h.newest
  change f.n < 512
  omega

/-! ### What a merge changes -/

theorem merge_naAt_new (f : Forest) (a b : Nat) (rest : List Nat) :
    (f.merge a b rest).st.naAt f.n =
      intNode (BitVec.ofNat 9 b) (BitVec.ofNat 9 a) (weightOf (f.st.naAt a) + weightOf (f.st.naAt b)) := by
  rw [Forest.merge, State.naAt_setNa, if_pos rfl]

theorem merge_naAt_other {f : Forest} {k : Nat} (h : k ≠ f.n) (a b : Nat) (rest : List Nat) :
    (f.merge a b rest).st.naAt k = f.st.naAt k := by
  rw [Forest.merge, State.naAt_setNa, if_neg h]

section
variable {f : Forest} {a b : Nat} {rest : List Nat}

/-- A merge makes the new node the parent of the two extracted, and no other parent. -/
theorem isParent_merge {N : Nat} (hN : N ≤ f.n) (ha : a < Config.nodeCap) (hb : b < Config.nodeCap) (k j : Nat) :
    (f.merge a b rest).IsParent N k j ↔ f.IsParent N k j ∨ (k = f.n ∧ (j = a ∨ j = b)) := by
  have hidx {i : Nat} (hi : i < Config.nodeCap) : (BitVec.ofNat 9 i).toNat = i := Nat.mod_eq_of_lt hi
  simp only [Forest.IsParent]
  by_cases hk : k = f.n
  · subst hk
    rw [merge_naAt_new, leftOf_intNode, rightOf_intNode, hidx ha, hidx hb]
    simp [Forest.merge, hN, or_comm, eq_comm]
  · rw [merge_naAt_other hk]
    simp only [Forest.merge, hk, false_and, or_false]
    omega

theorem toNat_add_weight {v w : Weight} (h : v.toNat + w.toNat < 2 ^ 32) : (v + w).toNat = v.toNat + w.toNat := by
  rw [BitVec.toNat_add, Nat.mod_eq_of_lt h]

/-- The weight of the two extracted is part of the weight of PQ. -/
theorem pqWeight_of_perm (h : (a :: b :: rest).Perm f.pq) :
    f.pqWeight = (weightOf (f.st.naAt a)).toNat + (weightOf (f.st.naAt b)).toNat +
      (rest.map fun k => (weightOf (f.st.naAt k)).toNat).sum := by
  rw [Forest.pqWeight, ← (h.map _).sum_eq, List.map_cons, List.map_cons, List.sum_cons, List.sum_cons, Nat.add_assoc]

/-- A merge keeps the weight of PQ. -/
theorem pqWeight_merge (h : (a :: b :: rest).Perm f.pq) (hlt : ∀ k ∈ f.pq, k < f.n)
    (hw : (weightOf (f.st.naAt a)).toNat + (weightOf (f.st.naAt b)).toNat < 2 ^ 32) :
    (f.merge a b rest).pqWeight = f.pqWeight := by
  have hrest : (rest.map fun k => (weightOf ((f.merge a b rest).st.naAt k)).toNat) =
      rest.map fun k => (weightOf (f.st.naAt k)).toNat :=
    List.map_congr_left fun k hk => by
      have := hlt k (h.subset (by simp [hk]))
      rw [merge_naAt_other (by omega)]
  rw [pqWeight_of_perm h, Forest.pqWeight, show (f.merge a b rest).pq = rest ++ [f.n] from rfl, List.map_append,
    List.sum_append, hrest, List.map_singleton, List.sum_singleton, merge_naAt_new, weightOf_intNode,
    toNat_add_weight hw, Nat.add_comm]

/-- A merge links the two extracted to the new node, which takes their place in PQ. -/
theorem Forest.Linked.merge {N : Nat} (h : f.Linked N) (hcap : f.n < Config.nodeCap) (hp : (a :: b :: rest).Perm f.pq) :
    (f.merge a b rest).Linked N := by
  have hmem (j : Nat) : j ∈ f.pq ↔ (j = a ∨ j = b) ∨ j ∈ rest := by
    rw [← hp.mem_iff, List.mem_cons, List.mem_cons, or_assoc]
  have hpq (j : Nat) : j ∈ (f.merge a b rest).pq ↔ j ∈ rest ∨ j = f.n := by simp [Forest.merge]
  have hnodup := hp.nodup_iff.2 h.nodup
  simp only [List.nodup_cons, List.mem_cons, not_or] at hnodup
  obtain ⟨⟨-, har⟩, hbr, hrest⟩ := hnodup
  have ha : a < f.n := h.lt_n a ((hmem a).2 (.inl (.inl rfl)))
  have hb : b < f.n := h.lt_n b ((hmem b).2 (.inl (.inr rfl)))
  have hlt : ∀ j ∈ rest, j < f.n := fun j hj => h.lt_n j ((hmem j).2 (.inr hj))
  have hparent := isParent_merge (rest := rest) h.leaves_le (ha.trans hcap) (hb.trans hcap)
  have hn : (f.merge a b rest).n = f.n + 1 := rfl
  have hold (k j : Nat) (hk : f.IsParent N k j) : ¬(j = a ∨ j = b) := fun hj => (h.below k j hk).2 ((hmem j).2 (.inl hj))
  refine ⟨Nat.le_succ_of_le h.leaves_le, ?_, fun k hk => ?_, fun k j hk => ?_, fun j hj hout => ?_,
    fun k k' j hk hk' => ?_⟩
  · exact List.nodup_append.2 ⟨hrest, List.nodup_singleton _, fun x hx y hy =>
      (List.mem_singleton.1 hy ▸ (hlt x hx).ne)⟩
  · rcases (hpq k).1 hk with hk | rfl
    · exact (hlt k hk).trans (Nat.lt_succ_self _)
    · exact Nat.lt_succ_self _
  · rw [hpq]
    rcases (hparent k j).1 hk with hk | ⟨rfl, rfl | rfl⟩
    · obtain ⟨hj, hout⟩ := h.below k j hk
      rw [hmem, not_or] at hout
      exact ⟨hj, not_or.2 ⟨hout.2, (hj.trans hk.2.1).ne⟩⟩
    · exact ⟨ha, not_or.2 ⟨har, ha.ne⟩⟩
    · exact ⟨hb, not_or.2 ⟨hbr, hb.ne⟩⟩
  · rw [hpq, not_or] at hout
    by_cases hin : j ∈ f.pq
    · exact ⟨f.n, (hparent _ _).2 (.inr ⟨rfl, ((hmem j).1 hin).resolve_right hout.1⟩)⟩
    · obtain ⟨k, hk⟩ := h.parent j (by omega) hin
      exact ⟨k, (hparent _ _).2 (.inl hk)⟩
  · rcases (hparent k j).1 hk with hk | ⟨rfl, hj⟩
    · exact h.unique k k' j hk (((hparent k' j).1 hk').resolve_right fun hj => hold k j hk hj.2)
    · exact (((hparent k' j).1 hk').resolve_left fun hk' => hold k' j hk' hj).1

/-- The internal nodes after a merge: those before it, and the new one. -/
theorem internal_merge {N : Nat} (ha : a < f.n) (hb : b < f.n) (hab : a ≠ b)
    (hw : (weightOf (f.st.naAt a)).toNat + (weightOf (f.st.naAt b)).toNat < 2 ^ 32) (h : f.InternalOk N) :
    (f.merge a b rest).InternalOk N := by
  intro k h1 h2
  change k < f.n + 1 at h2
  by_cases hk : k = f.n
  · subst hk
    refine ⟨b, a, hb, ha, hab.symm, _, merge_naAt_new .., ?_⟩
    rw [merge_naAt_other hb.ne, merge_naAt_other ha.ne, toNat_add_weight hw, Nat.add_comm]
  · obtain ⟨l, r, hl, hr, hlr, w, hnode, hsum⟩ := h k h1 (by omega)
    refine ⟨l, r, hl, hr, hlr, w, (merge_naAt_other hk ..).trans hnode, ?_⟩
    rw [merge_naAt_other (by omega), merge_naAt_other (by omega), hsum]

/-- A merge whose sum fits keeps the forest a forest. -/
theorem Merged.merge {s : State} (h : Merged s f) (hp : (a :: b :: rest).Perm f.pq)
    (hw : (weightOf (f.st.naAt a)).toNat + (weightOf (f.st.naAt b)).toNat < 2 ^ 32) : Merged s (f.merge a b rest) where
  toLinked := h.toLinked.merge h.n_lt hp
  only := only_setNa h.only _ _
  count := by
    have hcount := h.count
    rw [← hp.length_eq] at hcount
    simp only [Forest.merge, List.length_append, List.length_cons, List.length_nil] at hcount ⊢
    omega
  newest := by simp [Forest.merge]
  leaves i v hi := by
    have hlt := (List.getElem?_eq_some_iff.1 hi).1.trans_le h.leaves_le
    rw [merge_naAt_other hlt.ne, h.leaves i v hi]
  internal :=
    internal_merge (h.lt_n a (hp.subset (by simp))) (h.lt_n b (hp.subset (by simp)))
      (fun hab => (List.nodup_cons.1 (hp.nodup_iff.2 h.nodup)).1 (hab ▸ List.mem_cons_self)) hw h.internal
  weight := (pqWeight_merge hp h.lt_n hw).trans h.weight
  free k hk hle := by rw [merge_naAt_other (Nat.ne_of_gt hle), h.free k hk (Nat.le_of_succ_le hle)]

end

/-! ### Phase 3 as a whole -/

/-- A merge that goes on keeps the forest a forest. -/
theorem Merged.buildMerge_ok {s : State} {f g : Forest} (h : Merged s f) (hq : 1 < f.pq.length)
    (hg : buildMerge f = .ok g) : Merged s g := by
  obtain ⟨a, b, q, rest, ha, hb, hp⟩ := exists_extractMin_pair f.st hq
  rw [buildMerge_eq ha hb] at hg
  split at hg
  next hw =>
    obtain rfl := Except.ok.inj hg
    exact h.merge hp hw
  next => cases hg

/-- If all counts fit together, so do the weights of any two nodes in PQ. -/
theorem Merged.exists_buildMerge {s : State} {f : Forest} (h : Merged s f) (hfit : ftTotal s < 2 ^ 32)
    (hq : 1 < f.pq.length) : ∃ g, buildMerge f = .ok g := by
  obtain ⟨a, b, q, rest, ha, hb, hp⟩ := exists_extractMin_pair f.st hq
  have hsum := pqWeight_of_perm hp
  rw [h.weight] at hsum
  exact ⟨_, (buildMerge_eq ha hb).trans (if_pos (by omega))⟩

theorem Merged.exists_buildMerges {s : State} {f : Forest} (h : Merged s f) (hfit : ftTotal s < 2 ^ 32) (room : Nat) :
    ∃ g, buildMerges room f = .ok g := by
  induction room generalizing f with
  | zero => exact ⟨f, rfl⟩
  | succ room ih =>
    rw [buildMerges]
    split
    next hq =>
      obtain ⟨g, hg⟩ := h.exists_buildMerge hfit hq
      rw [hg]
      exact ih (h.buildMerge_ok hq hg)
    next => exact ⟨f, rfl⟩

/-- With one index left in PQ it is the root, the last node made, and weighs what all counts sum to. -/
theorem Merged.root {s : State} {g : Forest} (h : Merged s g) (hq : g.pq.length ≤ 1) :
    g.n = 2 * (present s).length - 1 ∧ g.pq = [2 * (present s).length - 2] ∧
      (weightOf (g.st.naAt (2 * (present s).length - 2))).toNat = ftTotal s := by
  have hcount := h.count
  have hnew := h.newest
  have hpos := List.length_pos_of_mem hnew
  have hn : g.n = 2 * (present s).length - 1 := by omega
  have hpq : g.pq = [2 * (present s).length - 2] := by
    obtain ⟨k, hk⟩ := List.length_eq_one_iff.1 (show g.pq.length = 1 by omega)
    rw [hk, List.mem_singleton] at hnew
    rw [hk, ← hnew, hn]
    rfl
  refine ⟨hn, hpq, ?_⟩
  rw [← h.weight, Forest.pqWeight, hpq, List.map_singleton, List.sum_singleton]

/-- BUILD of two or more symbols is phase 3 on a forest of leaves. -/
theorem buildRun_of_two {s : State} (h2 : 2 ≤ (present s).length) :
    ∃ f, Merged s f ∧ (buildRun s).finish = (buildMerges f.pq.length f).goOn fun g => (buildStore g).complete := by
  have hs := scanned s
  rw [buildRun]
  generalize buildScan Config.nsym 0 (buildBegin s) = f at hs ⊢
  have hn : 2 ≤ f.n := hs.n ▸ h2
  exact ⟨f, hs.merged (by omega), by rw [buildEdges_of_two hn, bind_ok, finish_map]⟩

/-- BUILD of two or more symbols whose counts fit merges until PQ holds the root alone. -/
theorem buildRun_of_fits {s : State} (h2 : 2 ≤ (present s).length) (hfit : ftTotal s < 2 ^ 32) :
    ∃ g, Merged s g ∧ g.pq.length ≤ 1 ∧ (buildRun s).finish = (buildStore g).complete := by
  obtain ⟨f, hf, hrun⟩ := buildRun_of_two h2
  obtain ⟨g, hg⟩ := hf.exists_buildMerges hfit f.pq.length
  obtain ⟨hmerged, hq⟩ := buildMerges_ok (fun _ _ h hq => h.buildMerge_ok hq) hf (Nat.le_succ _) hg
  exact ⟨g, hmerged, hq, by rw [hrun, hg, Run.goOn_ok]⟩

/-- BUILD of two or more symbols whose counts do not fit raises in a merge: a root would weigh their sum. -/
theorem buildRun_of_overflow {s : State} (h2 : 2 ≤ (present s).length) (hover : 2 ^ 32 ≤ ftTotal s) :
    ∃ g, Merged s g ∧ 1 < g.pq.length ∧
      (buildRun s).finish = g.st.raise .weightOverflow (BitVec.ofNat 32 g.n) := by
  obtain ⟨f, hf, hrun⟩ := buildRun_of_two h2
  cases hm : buildMerges f.pq.length f with
  | ok g =>
    obtain ⟨hmerged, hq⟩ := buildMerges_ok (fun _ _ h hq => h.buildMerge_ok hq) hf (Nat.le_succ _) hm
    obtain ⟨-, -, hroot⟩ := hmerged.root hq
    have := (weightOf (g.st.naAt (2 * (present s).length - 2))).isLt
    omega
  | error t =>
    obtain ⟨g, hmerged, hq, rfl⟩ := buildMerges_error (fun _ _ h hq => h.buildMerge_ok hq) hf hm
    exact ⟨g, hmerged, hq, by rw [hrun, hm, Run.goOn_error]⟩

/-- The leaves in the order of their symbols (R124). -/
theorem Merged.leaf_of_lt {s : State} {f : Forest} (h : Merged s f) {i : Nat} (hi : i < (present s).length) :
    ∃ v, (present s)[i]? = some v ∧ f.st.naAt i = leafNode (BitVec.ofNat 8 v) (s.ftAt v) :=
  ⟨_, List.getElem?_eq_getElem hi, h.leaves i _ (List.getElem?_eq_getElem hi)⟩

/-- Settles O20: the forest with one index left in PQ is the full tree. -/
theorem buildMakesFullTree : Obligations.BuildMakesFullTree := by
  unfold Obligations.BuildMakesFullTree
  rintro s _ hready rfl h2 hfit
  obtain ⟨g, hg, hq, hrun⟩ := buildRun_of_fits (s := s.accept 0x00000001) h2 hfit
  obtain ⟨hn, hpq, hroot⟩ := hg.root hq
  change g.n = 2 * (present s).length - 1 at hn
  change g.pq = [2 * (present s).length - 2] at hpq
  refine ⟨_, exec_build_of_ready hready, ?_⟩
  rw [hrun]
  refine ⟨?_, fun i hi => hg.leaf_of_lt hi, fun k h1 h2 => hg.internal k h1 (by omega), fun j hj => ?_, hroot,
    fun k hk hle => hg.free k hk (by omega)⟩
  · rw [buildStore, hn]
    exact complete_of_only hg.only _ _
  · obtain ⟨k, hk⟩ := hg.parent j (by omega) (by rw [hpq, List.mem_singleton]; omega)
    obtain ⟨hle, hlt, hchild⟩ := hk
    exact ⟨k, ⟨hle, by omega, hchild⟩, fun k' h1 h2 h3 => hg.unique k k' j ⟨hle, hlt, hchild⟩ ⟨h1, by omega, h3⟩⟩

/-- Settles O21: the forest of the merge that raised, its index `n` the one the new node would have had. -/
theorem buildOverflowRaises : Obligations.BuildOverflowRaises := by
  unfold Obligations.BuildOverflowRaises
  rintro s _ hready rfl h2 hover
  obtain ⟨g, hg, hq, hrun⟩ := buildRun_of_overflow (s := s.accept 0x00000001) h2 hover
  have hcount : g.n + g.pq.length = 2 * (present s).length := hg.count
  refine ⟨_, g.n, exec_build_of_ready hready, hg.leaves_le, by omega, ?_⟩
  rw [hrun]
  refine ⟨raise_of_only hg.only _ _, fun i hi => hg.leaf_of_lt hi, fun j h1 h2 => ?_, hg.free⟩
  obtain ⟨l, r, -, -, -, w, hnode, -⟩ := hg.internal j h1 h2
  exact (congrArg kindOf hnode).trans (kindOf_intNode _ _ _)

end Sys2Proof.Machine
end

section
/-!
GEN (41_code_table_generator.md): how the command ends from each root (R143, R148), and the walk read at the level of the whole
command: `properTree` decides whether it ends well (R145 to R147).
-/

namespace Sys2Proof.Machine

/-! ## The machine when GEN looks at the root -/

/-- The machine after acceptance of GEN and phase 0, CT cleared (41_code_table_generator.md R141). -/
def State.cleared (s : State) : State := genClear (s.accept 0x00000002)

@[simp] theorem cleared_root (s : State) : s.cleared.root = s.root := rfl
@[simp] theorem cleared_err (s : State) : s.cleared.err = s.err := rfl
@[simp] theorem node_cleared (s : State) : s.cleared.node = s.node := rfl

theorem na_cleared (s : State) : s.cleared.na = s.na := rfl
theorem epoch_cleared (s : State) : s.cleared.epoch = s.epoch := rfl

@[simp] theorem ctAt_cleared (s : State) {v : Nat} (hv : v < Config.nsym) : s.cleared.ctAt v = 0 := ctAt_genClear _ hv
@[simp] theorem codeElem_cleared (s : State) (v : Sym) : s.cleared.codeElem v = 0 := codeElem_genClear _ v

@[simp] theorem descend_cleared (s : State) (k : NodeIdx) (p : BitString) : descend s.cleared k p = descend s k p :=
  descend_congr (na_cleared s) (epoch_cleared s) k p

@[simp] theorem leafFrom_cleared (s : State) (k : NodeIdx) (p : BitString) : leafFrom s.cleared k p = leafFrom s k p :=
  leafFrom_congr (na_cleared s) (epoch_cleared s) k p

/-- Whether the tree is proper is a matter of ROOT, NA and the reset epoch. -/
theorem properTree_congr {s t : State} (hr : s.root = t.root) (h : s.na = t.na) (he : s.epoch = t.epoch) :
    properTree s ↔ properTree t := by
  simp only [properTree, leafSym_eq_leafFrom, descend_congr h he, leafFrom_congr h he, State.node_congr h he, hr]

theorem properTree_iff_walkable_cleared (s : State) :
    properTree s ↔ kindOf (s.node s.root) = .internal ∧ Walkable s.cleared s.root [] :=
  (properTree_congr (s := s) (t := s.accept 0x00000002) rfl rfl rfl).trans (properTree_iff_walkable (s.accept 0x00000002))

/-- Where CT alone has been written since phase 0, GEN completes with CT alone written. -/
theorem complete_of_cleared {s t : State} (h : t = { s.cleared with ct := t.ct }) :
    t.complete = { s.completed 0x00000002 with ct := t.complete.ct } := by
  rw [h]
  rfl

/-- Where CT alone has been written since phase 0, GEN raises with CT alone written. -/
theorem malformedAt_of_cleared {s t : State} (h : t = { s.cleared with ct := t.ct }) (k : NodeIdx) :
    malformedAt t k =
      { s.raised 0x00000002 .malformedTree (k.setWidth 32) with ct := (malformedAt t k).ct } := by
  rw [h]
  rfl

@[simp] theorem codeElem_complete (s : State) (v : Sym) : s.complete.codeElem v = s.codeElem v := rfl
@[simp] theorem codeElem_malformedAt (s : State) (k : NodeIdx) (v : Sym) :
    (malformedAt s k).codeElem v = s.codeElem v := rfl

/-! ## How GEN ends, by its root (41_code_table_generator.md R141 phases 1 to 3) -/

theorem exec_gen_of_ready {s : State} (h : s.ready) :
    exec .gen s = .next (genRun (s.accept 0x00000002)).finish :=
  exec_of_ready h .gen

theorem isDegenerate_iff (s : State) :
    isDegenerate s = true ↔ lvOf (s.node s.root) = true ∧ rvOf (s.node s.root) = false ∧
      kindOf (s.node (leftOf (s.node s.root))) = .leaf := by
  simp [isDegenerate, and_assoc]

/-- Phases 0 to 2 of GEN, once accepted. -/
theorem genStart_accept (s : State) :
    genStart (s.accept 0x00000002) =
      if kindOf (s.node s.root) = .internal then
        if isDegenerate s then
          .error (s.cleared.setCt (symOf (s.node (leftOf (s.node s.root)))).toNat (entry [false])).complete
        else .ok s.cleared
      else .error (malformedAt s.cleared s.root) := rfl

/-- A root that is not INTERNAL (R148). -/
theorem exec_gen_of_badRoot {s : State} (h : s.ready) (hk : kindOf (s.node s.root) ≠ .internal) :
    exec .gen s = .next (malformedAt s.cleared s.root) := by
  rw [exec_gen_of_ready h, genRun, genStart_accept, if_neg hk, bind_error, Run.finish_error]

/-- The degenerate tree (R143). -/
theorem exec_gen_of_degenerate {s : State} (h : s.ready) (hk : kindOf (s.node s.root) = .internal)
    (hd : isDegenerate s = true) :
    exec .gen s =
      .next (s.cleared.setCt (symOf (s.node (leftOf (s.node s.root)))).toNat (entry [false])).complete := by
  rw [exec_gen_of_ready h, genRun, genStart_accept, if_pos hk, if_pos hd, bind_error, Run.finish_error]

/-- Every other tree is walked (R144). -/
theorem exec_gen_of_walk {s : State} (h : s.ready) (hk : kindOf (s.node s.root) = .internal)
    (hd : isDegenerate s = false) :
    exec .gen s = .next (walk Config.codeLenMax s.root [] s.cleared).finish := by
  rw [exec_gen_of_ready h, genRun, genStart_accept, if_pos hk, if_neg (ne_true_of_eq_false hd), bind_ok,
    cleared_root]

/-- Settles O27: phase 1 raises, with CT as phase 0 left it. -/
theorem genBadRootRaises : Obligations.GenBadRootRaises := by
  unfold Obligations.GenBadRootRaises
  intro s hready hk
  exact ⟨_, exec_gen_of_badRoot hready hk, malformedAt_of_cleared rfl s.root, fun v hv => ctAt_cleared s hv⟩

/-! ## The degenerate tree and its neighbours (41_code_table_generator.md R143) -/

theorem entry_false : entry [false] = 0x1#263 := by decide +kernel

/-- A walk whose first visit raises has raised. -/
theorem walk_of_genVisit_error {room : Nat} {k : NodeIdx} {path : BitString} {s t : State}
    (h : genVisit k path s = .error t) : walk room k path s = .error t := by
  cases room <;> rw [walk, h] <;> rfl

/-- A walk that begins at a leaf whose symbol has no code is its visit. -/
theorem walk_leaf {room : Nat} {k : NodeIdx} {path : BitString} {s : State} (hk : kindOf (s.node k) = .leaf)
    (h0 : lenOf (s.codeElem (symOf (s.node k))) = 0) :
    walk room k path s = .ok (s.setCt (symOf (s.node k)).toNat (entry path)) := by
  cases room <;> rw [walk, genVisit_leaf path hk h0] <;> rfl

theorem genVisit_free {k : NodeIdx} {s : State} (path : BitString) (hk : kindOf (s.node k) = .free) :
    genVisit k path s = .error (malformedAt s k) := by
  simp [genVisit, hk]

/-- An INTERNAL node without both children (R145 (a)). -/
theorem genVisit_oneSided {k : NodeIdx} {s : State} (path : BitString) (hk : kindOf (s.node k) = .internal)
    (hv : lvOf (s.node k) = false ∨ rvOf (s.node k) = false) : genVisit k path s = .error (malformedAt s k) := by
  rcases hv with hv | hv <;> simp [genVisit, hk, hv]

/-- The walk below a full INTERNAL node with room is the walk left and then the walk right (R144). -/
theorem walk_internal {room : Nat} {k : NodeIdx} {path : BitString} {s : State} (hk : kindOf (s.node k) = .internal)
    (hl : lvOf (s.node k) = true) (hr : rvOf (s.node k) = true) (hp : path.length < Config.codeLenMax) :
    walk (room + 1) k path s =
      (walk room (leftOf (s.node k)) (path ++ [false]) s).bind (walk room (rightOf (s.node k)) (path ++ [true])) := by
  rw [walk, genVisit_internal hk hl hr hp]
  rfl

/-- GEN of the degenerate tree: the one code "0", no error. -/
theorem gen_degenerate {s : State} (hready : s.ready) (hk : kindOf (s.node s.root) = .internal)
    (hd : isDegenerate s = true) :
    ∃ t, exec .gen s = .next t ∧ t = { s.completed 0x00000002 with ct := t.ct } ∧
      ∀ v : Sym, t.codeElem v = if v = symOf (s.node (leftOf (s.node s.root))) then 0x1#263 else 0 := by
  refine ⟨_, exec_gen_of_degenerate hready hk hd, complete_of_cleared rfl, fun v => ?_⟩
  rw [codeElem_complete, codeElem_setCt, codeElem_cleared, entry_false]

/-- GEN of a one-sided root that is not the degenerate tree's: it is malformed, with CT cleared. -/
theorem gen_oneSided {s : State} (hready : s.ready) (hk : kindOf (s.node s.root) = .internal)
    (hv : lvOf (s.node s.root) = false ∨ rvOf (s.node s.root) = false) (hd : isDegenerate s = false) :
    exec .gen s = .next (malformedAt s.cleared s.root) := by
  rw [exec_gen_of_walk hready hk hd, walk_of_genVisit_error (genVisit_oneSided (s := s.cleared) [] hk hv), Run.finish_error]

/-- GEN of a root with a leaf left and no node right: the leaf has its code when the walk meets the missing node. -/
theorem gen_freeRight {s : State} (hready : s.ready) (hk : kindOf (s.node s.root) = .internal)
    (hl : lvOf (s.node s.root) = true) (hr : rvOf (s.node s.root) = true)
    (hleft : kindOf (s.node (leftOf (s.node s.root))) = .leaf)
    (hright : kindOf (s.node (rightOf (s.node s.root))) = .free) :
    exec .gen s =
      .next (malformedAt (s.cleared.setCt (symOf (s.node (leftOf (s.node s.root)))).toNat (entry [false]))
        (rightOf (s.node s.root))) := by
  have hd : isDegenerate s = false := by simp [isDegenerate, hr]
  have hfresh : lenOf (s.cleared.codeElem (symOf (s.node (leftOf (s.node s.root))))) = 0 := by
    rw [codeElem_cleared]
    exact lenOf_noEntry
  rw [exec_gen_of_walk hready hk hd, walk_internal (s := s.cleared) hk hl hr (by decide),
    node_cleared, walk_leaf (s := s.cleared) hleft hfresh, bind_ok,
    walk_of_genVisit_error (genVisit_free (s := s.cleared.setCt _ _) _ hright), Run.finish_error, node_cleared,
    List.nil_append]

/-- Settles O28: phase 2 tells the degenerate root from a one-sided root, which the walk's first visit rejects, and from a
two-sided one, whose left leaf the walk visits before the missing right child. -/
theorem genDegenerateTree : Obligations.GenDegenerateTree := by
  unfold Obligations.GenDegenerateTree
  refine ⟨fun s hready hk hl hr hleft => ?_, fun s hready hk hv => ?_, fun s hready hk hl hr hleft hright => ?_⟩
  · exact gen_degenerate hready hk ((isDegenerate_iff s).2 ⟨hl, hr, hleft⟩)
  · have hd : isDegenerate s = false := by
      rw [← Bool.not_eq_true, isDegenerate_iff]
      rintro ⟨hl, -, hleft⟩
      rcases hv with hl' | ⟨-, hleft'⟩
      · exact absurd hl (ne_true_of_eq_false hl')
      · exact hleft' hleft
    exact ⟨_, gen_oneSided hready hk (hv.imp_right And.left) hd, malformedAt_of_cleared rfl s.root,
      fun v hv => ctAt_cleared s hv⟩
  · refine ⟨_, gen_freeRight hready hk hl hr hleft hright, malformedAt_of_cleared rfl _, fun v => ?_⟩
    rw [codeElem_malformedAt, codeElem_setCt, codeElem_cleared, entry_false]

/-! ## Proper trees (41_code_table_generator.md R147) -/

theorem descend_nil (s : State) (k : NodeIdx) : descend s k [] = some k := rfl

/-- The root of a proper tree has both children. -/
theorem properTree.root_full {s : State} (h : properTree s) :
    lvOf (s.node s.root) = true ∧ rvOf (s.node s.root) = true := by
  obtain ⟨hk, hnodes, -⟩ := h
  rcases hnodes [] s.root rfl with hleaf | ⟨-, hl, hr, -⟩
  · rw [hk] at hleaf
    cases hleaf
  · exact ⟨hl, hr⟩

/-- GEN of a proper tree walks it to the end. -/
theorem gen_proper {s : State} (hready : s.ready) (h : properTree s) :
    ∃ t, exec .gen s = .next t.complete ∧ Walked s.cleared s.root [] t := by
  have hd : isDegenerate s = false := by simp [isDegenerate, h.root_full]
  obtain ⟨hk, hw⟩ := (properTree_iff_walkable_cleared s).1 h
  obtain ⟨t, ht⟩ := walk_complete (Nat.zero_add Config.codeLenMax) hw
  exact ⟨t, by rw [exec_gen_of_walk hready hk hd, ht, Run.finish_ok], (walk_ok (Nat.zero_add _) ht).2⟩

/-- Settles O29: what the walk has done when it ends well. -/
theorem genWritesPathsOfProperTree : Obligations.GenWritesPathsOfProperTree := by
  unfold Obligations.GenWritesPathsOfProperTree
  intro s hready h
  obtain ⟨t, ht, hw⟩ := gen_proper hready h
  refine ⟨_, ht, complete_of_cleared hw.only, fun v => ⟨fun p hp => ?_, fun hnone => ?_⟩⟩
  · exact hw.codes p v ((leafFrom_cleared s s.root p).trans hp)
  · rw [codeElem_complete, hw.others v fun q => (leafFrom_cleared s s.root q).symm ▸ hnone q, codeElem_cleared]

/-! ## Improper trees (41_code_table_generator.md R144 to R146) -/

/-- GEN of an INTERNAL root that is neither a proper tree's nor the degenerate tree's stops in the walk. -/
theorem gen_improper {s : State} (hready : s.ready) (hk : kindOf (s.node s.root) = .internal) (h : ¬properTree s)
    (hd : isDegenerate s = false) :
    ∃ p m u, Stopped s.cleared s.root [] p m u ∧ exec .gen s = .next (malformedAt u m) := by
  have hrun := exec_gen_of_walk hready hk hd
  cases hw : walk Config.codeLenMax s.root [] s.cleared with
  | ok t => exact absurd ((properTree_iff_walkable_cleared s).2 ⟨hk, (walk_ok (Nat.zero_add _) hw).1⟩) h
  | error t =>
    obtain ⟨p, m, u, hstop, rfl⟩ := walk_error (Nat.zero_add _) hw
    exact ⟨p, m, u, hstop, by rw [hrun, hw, Run.finish_error]⟩

section
variable {s u : State} {p : BitString} {m : NodeIdx}

/-- The node at which the walk stopped is malformed: a leaf visited in vain found its symbol's code there, and only a leaf met
before can have put it there. -/
theorem Stopped.malformed (h : Stopped s.cleared s.root [] p m u) : malformedNode s p m := by
  have hnode : u.node m = s.node m := by
    rw [h.only]
    rfl
  have hraises := genVisit_raises h.raises
  rw [hnode, List.nil_append] at hraises
  unfold malformedNode
  rcases hraises with hk | ⟨hk, hlen⟩ | ⟨hk, hv⟩ <;> rw [hk]
  · trivial
  · refine .inr ?_
    by_contra hnone
    refine hlen ?_
    rw [h.others _ fun q hq hv => hnone ⟨q, hq, (leafFrom_cleared s s.root q).symm.trans hv⟩, codeElem_cleared]
    exact lenOf_noEntry
  · exact hv

/-- No node met before the walk stopped is malformed. -/
theorem Stopped.not_malformed_before (h : Stopped s.cleared s.root [] p m u)
    (hk : kindOf (s.node s.root) = .internal) {q : BitString} {n : NodeIdx} (hq : before q p = true)
    (hn : descend s s.root q = some n) : ¬malformedNode s q n := by
  have hleafFrom (q : BitString) (v : Sym) (hv : leafSym s q = some v) : leafFrom s.cleared s.root q = some v :=
    (leafFrom_cleared s s.root q).trans hv
  unfold malformedNode
  rcases h.nodes q n hq ((descend_cleared s s.root q).trans hn) with hleaf | ⟨hint, hl, hr, hroom⟩
  · rw [node_cleared] at hleaf
    rw [hleaf]
    rintro (rfl | ⟨q', hq', hsym⟩)
    · obtain rfl := Option.some.inj hn
      rw [hk] at hleaf
      cases hleaf
    · have hsame : leafSym s q = some (symOf (s.node n)) := by simp [leafSym, hn, hleaf]
      obtain rfl := h.once q q' _ hq (before_trans hq' hq) (hleafFrom q _ hsame) (hleafFrom q' _ hsym)
      simp at hq'
  · rw [node_cleared] at hint hl hr
    rw [hint, hl, hr]
    rw [List.length_nil, Nat.zero_add] at hroom
    simp [hroom.ne]

end

/-- A root that is not INTERNAL is malformed (R145 (b), (e)). -/
theorem malformedNode_root {s : State} (hk : kindOf (s.node s.root) ≠ .internal) : malformedNode s [] s.root := by
  unfold malformedNode
  cases hroot : kindOf (s.node s.root) with
  | free => trivial
  | leaf => exact .inl rfl
  | internal => exact absurd hroot hk

/-- Settles O30: a root that is not INTERNAL is itself the first malformed node; else the walk has stopped at it. -/
theorem genFaultsOnImproperTree : Obligations.GenFaultsOnImproperTree := by
  unfold Obligations.GenFaultsOnImproperTree
  intro s hready himproper hd
  by_cases hk : kindOf (s.node s.root) = .internal
  · obtain ⟨p, m, u, h, hrun⟩ := gen_improper hready hk himproper (hd hk)
    refine ⟨_, p, m, hrun, malformedAt_of_cleared h.only m, (descend_cleared s s.root p).symm.trans h.reached, h.malformed,
      fun q n hq hn => h.not_malformed_before hk hq hn, fun v => ⟨fun q hq hv => ?_, fun hnone => ?_⟩⟩
    · exact h.codes q v hq ((leafFrom_cleared s s.root q).trans hv)
    · rw [codeElem_malformedAt, h.others v fun q hq => (leafFrom_cleared s s.root q).symm ▸ hnone q hq, codeElem_cleared]
  · refine ⟨_, [], s.root, exec_gen_of_badRoot hready hk, malformedAt_of_cleared rfl s.root, rfl,
      malformedNode_root hk, fun q m hq => ?_, fun v => ⟨fun q hq => ?_, fun _ => codeElem_cleared s v⟩⟩
    · simp at hq
    · simp at hq

/-! ## Completeness (41_code_table_generator.md R147 (d)) -/

/-- From a node of a proper tree any bits that fill up the greatest depth lead through a leaf. -/
theorem properTree.exists_leaf {s : State} (h : properTree s) {bits p : BitString} {k : NodeIdx}
    (hd : descend s s.root p = some k) (hlen : p.length + bits.length = Config.codeLenMax) :
    ∃ q v, q <+: bits ∧ leafFrom s k q = some v := by
  obtain ⟨-, hnodes, -⟩ := h
  induction bits generalizing p k with
  | nil =>
    rcases hnodes p k hd with hleaf | ⟨-, -, -, hroom⟩
    · exact ⟨[], _, List.prefix_refl _, by rw [leafFrom_nil, if_pos hleaf]⟩
    · exact absurd hlen hroom.ne
  | cons b bits ih =>
    rcases hnodes p k hd with hleaf | ⟨hint, hl, hr, -⟩
    · exact ⟨[], _, List.nil_prefix, by rw [leafFrom_nil, if_pos hleaf]⟩
    · have hchild : descend s s.root (p ++ [b]) = some (childOf (s.node k) b) := by
        rw [descend_append, hd, Option.bind_some, descend_full_cons hint hl hr, descend_nil]
      obtain ⟨q, v, hq, hv⟩ := ih hchild (by
        rw [List.length_append, List.length_singleton]
        rw [List.length_cons] at hlen
        omega)
      exact ⟨b :: q, v, (List.prefix_cons_inj b).2 hq, by rw [leafFrom_full_cons hint hl hr, hv]⟩

/-- No leaf of a proper tree is deeper than a code is long. -/
theorem properTree.length_le {s : State} (h : properTree s) {p : BitString} {v : Sym} (hp : leafSym s p = some v) :
    p.length ≤ Config.codeLenMax := by
  obtain ⟨-, hw⟩ := (properTree_iff_walkable_cleared s).1 h
  simpa using hw.length_le (Nat.zero_le _) ((leafFrom_cleared s s.root p).trans hp)

/-- No leaf of a proper tree is its root. -/
theorem properTree.path_ne_nil {s : State} (h : properTree s) {p : BitString} {v : Sym} (hp : leafSym s p = some v) :
    p ≠ [] := by
  rintro rfl
  rw [leafSym_eq_leafFrom, leafFrom_nil, h.1] at hp
  cases hp

/-- Settles O32: the bits lead from the root to a leaf, whose path is its symbol's code. -/
theorem generatedTableIsComplete : Obligations.GeneratedTableIsComplete := by
  unfold Obligations.GeneratedTableIsComplete
  intro s t hready h ht bits hbits
  obtain ⟨t', ht', -, hcodes⟩ := genWritesPathsOfProperTree s hready h
  obtain rfl := Host.Outcome.next.inj (ht.symm.trans ht')
  obtain ⟨q, v, hq, hv⟩ := h.exists_leaf (bits := bits) (descend_nil s s.root) (by rw [List.length_nil, Nat.zero_add, hbits])
  have hlen := h.length_le hv
  have hcode := (hcodes v).1 q hv
  refine ⟨v, ?_, ?_⟩
  · rw [hcode, lenOf_entry hlen, Ne, List.length_eq_zero_iff]
    exact h.path_ne_nil hv
  · rw [codeAt, hcode, codeOf_entry hlen]
    exact hq

end Sys2Proof.Machine
end

section
/-!
GEN is a function of the tree alone (41_code_table_generator.md R149): from machines that hold the same tree its pieces do the
same, `Alike` for the machines and `Run.Alike` for what a piece of pseudocode gives.
-/

namespace Sys2Proof.Machine

/-- Two machines that GEN does not tell apart: the same tree, the same codes, the same latched error. -/
structure Alike (s t : State) : Prop where
  tree : sameTree s t
  codes : ∀ v : Sym, s.codeElem v = t.codeElem v
  err : s.err = t.err
  latch : s.err = true → s.errCode = t.errCode ∧ s.errInfo = t.errInfo

/-- Two pieces that both go on, with results in relation `R`, or have both ended, in machines that are alike. -/
inductive Run.Alike {α : Type} (R : α → α → Prop) : Run α → Run α → Prop
  | ok {a b : α} (h : R a b) : Run.Alike R (.ok a) (.ok b)
  | error {s t : State} (h : Machine.Alike s t) : Run.Alike R (.error s) (.error t)

theorem Run.Alike.bind {α β : Type} {R : α → α → Prop} {S : β → β → Prop} {r r' : Run α} {f f' : α → Run β}
    (h : Run.Alike R r r') (hf : ∀ a b, R a b → Run.Alike S (f a) (f' b)) :
    Run.Alike S (Except.bind r f) (Except.bind r' f') := by
  cases h with
  | ok h => exact hf _ _ h
  | error h => exact .error h

section
variable {s t : State} (h : Alike s t)
include h

theorem Alike.complete : Alike s.complete t.complete where
  tree := h.tree
  codes := h.codes
  err := h.err
  latch := h.latch

theorem Alike.malformedAt (k : NodeIdx) : Alike (malformedAt s k) (malformedAt t k) where
  tree := h.tree
  codes := h.codes
  err := rfl
  latch _ := ⟨rfl, rfl⟩

theorem Alike.setCt (v : Sym) (e : CodeElem) : Alike (s.setCt v.toNat e) (t.setCt v.toNat e) where
  tree := h.tree
  codes w := by rw [codeElem_setCt, codeElem_setCt, h.codes]
  err := h.err
  latch := h.latch

/-- One visit: of a node it reads the kind, and then only what has a meaning for the kind. -/
theorem Alike.genVisit (k : NodeIdx) (path : BitString) :
    Run.Alike (fun a b => a.1 = b.1 ∧ Alike a.2 b.2) (genVisit k path s) (genVisit k path t) := by
  obtain ⟨hkind, hsym, hchild⟩ := h.tree.2 k
  unfold Machine.genVisit
  rw [← hkind]
  cases hk : kindOf (s.node k) with
  | free => exact .error (h.malformedAt k)
  | leaf =>
    simp only [← hsym hk, ← h.codes]
    split
    · exact .ok ⟨rfl, h.setCt _ _⟩
    · exact .error (h.malformedAt k)
  | internal =>
    obtain ⟨hl, hleft⟩ := hchild hk false
    obtain ⟨hr, hright⟩ := hchild hk true
    rw [childValid_false, childValid_false] at hl
    rw [childValid_true, childValid_true] at hr
    simp only [← hl, ← hr]
    split
    next hv =>
      rw [Bool.and_eq_true] at hv
      have hchildren : (leftOf (s.node k), rightOf (s.node k)) = (leftOf (t.node k), rightOf (t.node k)) :=
        Prod.ext (hleft hv.1) (hright hv.2)
      split
      · exact .error (h.malformedAt k)
      · exact .ok ⟨congrArg some hchildren, h⟩
    next => exact .error (h.malformedAt k)

end

theorem Alike.walk {s t : State} (h : Alike s t) (room : Nat) (k : NodeIdx) (path : BitString) :
    Run.Alike Alike (walk room k path s) (walk room k path t) := by
  induction room generalizing k path s t with
  | zero =>
    have hv := h.genVisit k path
    rw [Machine.walk, Machine.walk]
    generalize Machine.genVisit k path s = r at hv ⊢
    generalize Machine.genVisit k path t = r' at hv ⊢
    cases hv with
    | ok hab => exact .ok hab.2
    | error hend => exact .error hend
  | succ room ih =>
    rw [Machine.walk, Machine.walk]
    refine (h.genVisit k path).bind fun ⟨children, u⟩ ⟨children', u'⟩ ⟨hc, hu⟩ => ?_
    obtain rfl : children = children' := hc
    cases children with
    | none => exact .ok hu
    | some c => exact (ih hu _ _).bind fun _ _ hw => ih hw _ _

/-- The test for the degenerate tree reads the left child's kind only where there is a left child. -/
theorem sameTree.isDegenerate {s t : State} (h : sameTree s t) (hk : kindOf (s.node s.root) = .internal) :
    isDegenerate s = isDegenerate t := by
  obtain ⟨hroot, hnodes⟩ := h
  obtain ⟨-, -, hchild⟩ := hnodes s.root
  obtain ⟨hl, hleft⟩ := hchild hk false
  have hr := (hchild hk true).1
  rw [childValid_false, childValid_false] at hl
  rw [childValid_true, childValid_true] at hr
  rw [Bool.eq_iff_iff, isDegenerate_iff, isDegenerate_iff, ← hroot, ← hl, ← hr]
  refine and_congr_right fun hlv => and_congr_right fun _ => ?_
  rw [← childOf_false (s.node s.root), ← childOf_false (t.node s.root), ← hleft hlv, (hnodes _).1]

/-- Phase 0 leaves machines that hold the same tree alike. -/
theorem sameTree.cleared {s t : State} (h : sameTree s t) (hs : s.ready) (ht : t.ready) : Alike s.cleared t.cleared where
  tree := h
  codes v := by rw [codeElem_cleared, codeElem_cleared]
  err := hs.2.trans ht.2.symm
  latch he := by
    rw [cleared_err, hs.2] at he
    cases he

theorem genStart_alike {s t : State} (h : sameTree s t) (hs : s.ready) (ht : t.ready) :
    Run.Alike Alike (genStart (s.accept 0x00000002)) (genStart (t.accept 0x00000002)) := by
  have hcleared := h.cleared hs ht
  obtain ⟨hroot, hnodes⟩ := h
  rw [genStart_accept, genStart_accept, ← hroot, ← (hnodes s.root).1]
  split
  next hk =>
    rw [← sameTree.isDegenerate ⟨hroot, hnodes⟩ hk]
    split
    next hd =>
      obtain ⟨hl, -, hleaf⟩ := (isDegenerate_iff s).1 hd
      have hleft : leftOf (s.node s.root) = leftOf (t.node s.root) := ((hnodes s.root).2.2 hk false).2 hl
      rw [← hleft, ← (hnodes _).2.1 hleaf]
      exact .error (hcleared.setCt _ _).complete
    next => exact .ok hcleared
  next => exact .error (hcleared.malformedAt s.root)

/-- From the same tree GEN ends in machines that are alike. -/
theorem gen_alike {s t : State} (h : sameTree s t) (hs : s.ready) (ht : t.ready) :
    Alike (genRun (s.accept 0x00000002)).finish (genRun (t.accept 0x00000002)).finish := by
  have hrun : Run.Alike Alike (genRun (s.accept 0x00000002)) (genRun (t.accept 0x00000002)) := by
    refine (genStart_alike h hs ht).bind fun u u' hu => ?_
    rw [← hu.tree.1]
    exact hu.walk _ _ _
  generalize genRun (s.accept 0x00000002) = r at hrun ⊢
  generalize genRun (t.accept 0x00000002) = r' at hrun ⊢
  cases hrun with
  | ok hu => exact hu.complete
  | error hu => exact hu

/-- Settles O34: GEN's pieces do the same on the same tree, one after the other. -/
theorem genDependsOnTreeAlone : Obligations.GenDependsOnTreeAlone := by
  unfold Obligations.GenDependsOnTreeAlone
  intro s s' t t' hs hs' htree ht ht'
  rw [exec_gen_of_ready hs] at ht
  rw [exec_gen_of_ready hs'] at ht'
  have h := gen_alike htree hs hs'
  rw [Host.Outcome.next.inj ht, Host.Outcome.next.inj ht'] at h
  exact ⟨fun v hv => by simpa [State.codeElem, Nat.mod_eq_of_lt hv] using h.codes (BitVec.ofNat 8 v), h.err, h.latch⟩

end Sys2Proof.Machine
end

section
/-!
The tree BUILD makes is a proper tree (41_code_table_generator.md R147 (e), 40_tree_builder.md R128): children have lower indices
than their parent, so paths end, and no node has two parents, so each node is at the end of one path.
-/

namespace Sys2Proof.Machine

theorem mem_present (s : State) (v : Sym) : v.toNat ∈ present s ↔ s.ftAt v.toNat ≠ 0 := by
  simpa [present] using fun _ : s.ftAt v.toNat ≠ 0 => v.isLt

/-- A path's last edge. -/
theorem descend_concat_eq_some {s : State} {k m : NodeIdx} {p : BitString} {b : Bool} :
    descend s k (p ++ [b]) = some m ↔
      ∃ n, descend s k p = some n ∧ (kindOf (s.node n) = .internal ∧ childValid (s.node n) b = true) ∧
        childOf (s.node n) b = m := by
  rw [descend_append, Option.bind_eq_some_iff]
  refine exists_congr fun n => and_congr_right fun _ => ?_
  rw [descend_cons]
  split
  next h => simp [h, descend_nil]
  next h => simp [h]

/-! ## The nodes of the built tree (40_tree_builder.md R124) -/

theorem node_buildStore (g : Forest) (k : NodeIdx) : (buildStore g).node k = g.st.naAt k.toNat := rfl

section
variable {s : State} {g : Forest} (h : Merged s g)
include h

/-- A node before the first internal one is the leaf of a present symbol. -/
theorem Merged.leaf_node {k : NodeIdx} (hk : k.toNat < (present s).length) :
    ∃ v : Sym, (present s)[k.toNat]? = some v.toNat ∧ kindOf ((buildStore g).node k) = .leaf ∧
      symOf ((buildStore g).node k) = v := by
  obtain ⟨v, hv, hnode⟩ := h.leaf_of_lt hk
  have hlt : v < 256 := List.mem_range.1 (List.mem_filter.1 (List.mem_of_getElem? hv)).1
  rw [node_buildStore, hnode]
  exact ⟨BitVec.ofNat 8 v, by rw [hv, BitVec.toNat_ofNat, Nat.mod_eq_of_lt hlt], kindOf_leafNode _ _, symOf_leafNode _ _⟩

/-- A node from the first internal one on has two children, which differ. -/
theorem Merged.internal_node {k : NodeIdx} (hk : (present s).length ≤ k.toNat) (hn : k.toNat < g.n) :
    kindOf ((buildStore g).node k) = .internal ∧ (∀ b, childValid ((buildStore g).node k) b = true) ∧
      leftOf ((buildStore g).node k) ≠ rightOf ((buildStore g).node k) := by
  obtain ⟨l, r, hl, hr, hlr, w, hnode, -⟩ := h.internal k.toNat hk hn
  have hlt := k.isLt
  rw [node_buildStore, hnode, leftOf_intNode, rightOf_intNode]
  refine ⟨kindOf_intNode _ _ _, fun b => by cases b <;> simp [childValid], fun heq => hlr ?_⟩
  have := congrArg BitVec.toNat heq
  rwa [BitVec.toNat_ofNat, BitVec.toNat_ofNat, Nat.mod_eq_of_lt (hl.trans hlt), Nat.mod_eq_of_lt (hr.trans hlt)] at this

theorem Merged.internal_iff {k : NodeIdx} (hn : k.toNat < g.n) :
    kindOf ((buildStore g).node k) = .internal ↔ (present s).length ≤ k.toNat := by
  refine ⟨fun hk => Nat.le_of_not_lt fun hlt => ?_, fun hk => (h.internal_node hk hn).1⟩
  obtain ⟨v, -, hleaf, -⟩ := h.leaf_node hlt
  rw [hk] at hleaf
  cases hleaf

omit h in
/-- The edges of the tree are the parent relation of the forest. -/
theorem isParent_childOf {N : Nat} {k : NodeIdx} (hk : N ≤ k.toNat) (hn : k.toNat < g.n) (b : Bool) :
    g.IsParent N k.toNat (childOf ((buildStore g).node k) b).toNat :=
  ⟨hk, hn, by cases b; exacts [.inl rfl, .inr rfl]⟩

variable (hq : g.pq.length ≤ 1)
include hq

/-- Phase 3 over, ROOT is the last node made. -/
theorem Merged.toNat_root : (buildStore g).root.toNat = 2 * (present s).length - 2 ∧
    g.n = 2 * (present s).length - 1 ∧ 1 ≤ (present s).length := by
  obtain ⟨hn, -, -⟩ := h.root hq
  have hcap : g.n < 512 := h.n_lt
  have hcount := h.count
  have hpos := List.length_pos_of_mem h.newest
  refine ⟨?_, hn, by omega⟩
  change (BitVec.ofNat 9 (g.n - 1)).toNat = _
  rw [BitVec.toNat_ofNat]
  omega

/-! ## Its paths -/

/-- Along a path the indices fall. -/
theorem Merged.descend_le {p : BitString} {k : NodeIdx}
    (hd : descend (buildStore g) (buildStore g).root p = some k) :
    k.toNat + p.length ≤ 2 * (present s).length - 2 ∧ k.toNat < g.n := by
  obtain ⟨hroot, hn, hpos⟩ := h.toNat_root hq
  induction p using List.reverseRecOn generalizing k with
  | nil =>
    obtain rfl := Option.some.inj hd
    rw [hroot, List.length_nil]
    omega
  | append_singleton p b ih =>
    obtain ⟨m, hm, ⟨hint, -⟩, rfl⟩ := descend_concat_eq_some.1 hd
    obtain ⟨hle, hlt⟩ := ih hm
    have hbelow := (h.below _ _ (isParent_childOf ((h.internal_iff hlt).1 hint) hlt b)).1
    rw [List.length_append, List.length_singleton]
    omega

/-- No node is at the end of two paths. -/
theorem Merged.path_unique {p q : BitString} {k : NodeIdx}
    (hp : descend (buildStore g) (buildStore g).root p = some k)
    (hp' : descend (buildStore g) (buildStore g).root q = some k) : p = q := by
  obtain ⟨hroot, -, -⟩ := h.toNat_root hq
  have hnil {q : BitString} (hd : descend (buildStore g) (buildStore g).root q = some (buildStore g).root) : q = [] := by
    have := (h.descend_le hq hd).1
    exact List.length_eq_zero_iff.1 (by omega)
  induction p using List.reverseRecOn generalizing k q with
  | nil =>
    obtain rfl := Option.some.inj hp
    exact (hnil hp').symm
  | append_singleton p b ih =>
    rcases List.eq_nil_or_concat q with rfl | ⟨q, c, rfl⟩
    · obtain rfl := Option.some.inj hp'
      exact hnil hp
    · rw [List.concat_eq_append] at hp' ⊢
      obtain ⟨m, hm, ⟨hint, -⟩, rfl⟩ := descend_concat_eq_some.1 hp
      obtain ⟨m', hm', ⟨hint', -⟩, hchild⟩ := descend_concat_eq_some.1 hp'
      have hlt := (h.descend_le hq hm).2
      have hlt' := (h.descend_le hq hm').2
      have hk := (h.internal_iff hlt).1 hint
      obtain rfl : m' = m := BitVec.eq_of_toNat_eq (h.unique _ _ _ (isParent_childOf hk hlt b)
        (hchild ▸ isParent_childOf ((h.internal_iff hlt').1 hint') hlt' c))
      have hne := (h.internal_node hk hlt).2.2
      obtain rfl : b = c := by
        cases b <;> cases c
        · rfl
        · exact absurd hchild.symm hne
        · exact absurd hchild hne
        · rfl
      rw [ih hm hm']

/-- Every node is at the end of a path. -/
theorem Merged.exists_path (k : NodeIdx) (hk : k.toNat < g.n) :
    ∃ p, descend (buildStore g) (buildStore g).root p = some k := by
  obtain ⟨hroot, hn, hpos⟩ := h.toNat_root hq
  by_cases hlast : k = (buildStore g).root
  · exact ⟨[], congrArg some hlast.symm⟩
  · have hout : k.toNat ∉ g.pq := by
      rw [(h.root hq).2.1, List.mem_singleton, ← hroot, BitVec.toNat_inj]
      exact hlast
    obtain ⟨i, hparent⟩ := h.parent k.toNat hk hout
    have hlt := (h.below _ _ hparent).1
    obtain ⟨hle, hi, hchild⟩ := hparent
    obtain ⟨m, rfl⟩ : ∃ m : NodeIdx, m.toNat = i := ⟨BitVec.ofNat 9 i, Nat.mod_eq_of_lt (hi.trans h.n_lt)⟩
    obtain ⟨p, hp⟩ := Merged.exists_path m hi
    obtain ⟨hint, hvalid, -⟩ := h.internal_node hle hi
    have hedge (b : Bool) (hb : childOf ((buildStore g).node m) b = k) :
        ∃ p, descend (buildStore g) (buildStore g).root p = some k :=
      ⟨p ++ [b], descend_concat_eq_some.2 ⟨m, hp, ⟨hint, hvalid b⟩, hb⟩⟩
    rcases hchild with hb | hb
    · exact hedge false (BitVec.eq_of_toNat_eq hb)
    · exact hedge true (BitVec.eq_of_toNat_eq hb)
termination_by g.n - k.toNat

/-! ## Its leaves -/

/-- A symbol on a leaf is the present symbol at the leaf's index. -/
theorem Merged.leafSym_eq_some {p : BitString} {v : Sym} :
    leafSym (buildStore g) p = some v ↔
      ∃ k, descend (buildStore g) (buildStore g).root p = some k ∧ (present s)[k.toNat]? = some v.toNat := by
  unfold leafSym
  cases hd : descend (buildStore g) (buildStore g).root p with
  | none => simp
  | some k =>
    simp only [Option.some.injEq, exists_eq_left']
    by_cases hk : k.toNat < (present s).length
    · obtain ⟨w, hw, hleaf, hsym⟩ := h.leaf_node hk
      rw [if_pos hleaf, hsym, hw, Option.some.injEq, Option.some.injEq, BitVec.toNat_inj]
    · have hint := (h.internal_iff (h.descend_le hq hd).2).2 (Nat.le_of_not_lt hk)
      rw [hint, List.getElem?_eq_none (Nat.le_of_not_lt hk)]
      simp

/-- The symbols on the leaves are the present ones. -/
theorem Merged.exists_leafSym (v : Sym) : (∃ p, leafSym (buildStore g) p = some v) ↔ v.toNat ∈ present s := by
  simp only [h.leafSym_eq_some hq, List.mem_iff_getElem?]
  constructor
  · rintro ⟨p, k, -, hk⟩
    exact ⟨_, hk⟩
  · rintro ⟨i, hi⟩
    have hn := (List.getElem?_eq_some_iff.1 hi).1.trans_le h.leaves_le
    obtain ⟨k, rfl⟩ : ∃ k : NodeIdx, k.toNat = i := ⟨BitVec.ofNat 9 i, Nat.mod_eq_of_lt (hn.trans h.n_lt)⟩
    obtain ⟨p, hp⟩ := h.exists_path hq k hn
    exact ⟨p, k, hp, hi⟩

/-- With two symbols or more BUILD's tree is proper (40_tree_builder.md R128). -/
theorem Merged.properTree (h2 : 2 ≤ (present s).length) : properTree (buildStore g) := by
  obtain ⟨hroot, hn, -⟩ := h.toNat_root hq
  refine ⟨(h.internal_iff (by omega)).2 (by omega), fun p k hd => ?_, fun p q v hp hp' => ?_⟩
  · obtain ⟨hle, hlt⟩ := h.descend_le hq hd
    rcases Nat.lt_or_ge k.toNat (present s).length with hk | hk
    · obtain ⟨v, -, hleaf, -⟩ := h.leaf_node hk
      exact .inl hleaf
    · obtain ⟨hint, hvalid, -⟩ := h.internal_node hk hlt
      have hcap : (present s).length ≤ 256 := length_present_le s
      refine .inr ⟨hint, hvalid false, hvalid true, ?_⟩
      change p.length < 255
      omega
  · obtain ⟨k, hd, hk⟩ := (h.leafSym_eq_some hq).1 hp
    obtain ⟨k', hd', hk'⟩ := (h.leafSym_eq_some hq).1 hp'
    have hnodup : (present s).Nodup := List.nodup_range.filter _
    obtain rfl : k = k' := BitVec.eq_of_toNat_eq
      ((List.getElem?_inj (List.getElem?_eq_some_iff.1 hk).1 hnodup).1 (hk.trans hk'.symm))
    exact h.path_unique hq hd hd'

end

/-! ## GEN after BUILD -/

/-- BUILD of no symbol raises. -/
theorem buildRun_of_none {s : State} (h : present s = []) : ∃ t : State, (buildRun s).finish = t.raise .emptyInput 0 := by
  have hs := scanned s
  rw [buildRun]
  generalize buildScan Config.nsym 0 (buildBegin s) = f at hs ⊢
  have hn : f.n = 0 := by rw [hs.n, ← present_eq_presentBelow, h, List.length_nil]
  exact ⟨f.st, by rw [buildEdges, if_pos hn, bind_error, Run.finish_error]⟩

/-- GEN after BUILD of the one symbol `v`: it alone has a code (R143). -/
theorem gen_after_build_one {s b : State} {v : Nat} (hp : present s = [v]) (hb : b = (buildRun s).finish)
    (hok : b.err = false) :
    ∃ g, exec .gen b = .next g ∧ g.err = false ∧ ∀ w : Sym, lenOf (g.codeElem w) ≠ 0 ↔ w.toNat ∈ present s := by
  obtain ⟨t, hrun, -, hleaf, hwrap, -⟩ := buildRun_of_one hp
  rw [hrun] at hb
  have hroot : b.node b.root = wrapperNode (s.ftAt v) := by rw [hb]; exact hwrap
  have hleft : b.node 0 = leafNode (BitVec.ofNat 8 v) (s.ftAt v) := by rw [hb]; exact hleaf
  have hbusy : b.busy = false := by rw [hb]; rfl
  have hlt : v < 256 := List.mem_range.1 (List.mem_filter.1 (hp ▸ List.mem_singleton_self v : v ∈ present s)).1
  have hd : isDegenerate b = true := by
    rw [isDegenerate_iff, hroot, leftOf_wrapperNode, hleft]
    exact ⟨lvOf_wrapperNode _, rvOf_wrapperNode _, kindOf_leafNode _ _⟩
  obtain ⟨g, hg, honly, hcodes⟩ := gen_degenerate ⟨hbusy, hok⟩ (by rw [hroot, kindOf_wrapperNode]) hd
  refine ⟨g, hg, by rw [honly]; exact hok, fun w => ?_⟩
  rw [hcodes, hroot, leftOf_wrapperNode, hleft, symOf_leafNode, hp, List.mem_singleton]
  have hw : w = BitVec.ofNat 8 v ↔ w.toNat = v := by
    rw [← BitVec.toNat_inj, BitVec.toNat_ofNat, Nat.mod_eq_of_lt hlt]
  rw [← hw]
  split
  next h => exact iff_of_true (by decide +kernel) h
  next h => exact iff_of_false (not_not_intro lenOf_noEntry) h

/-- GEN after BUILD of two symbols or more: each symbol on a leaf has its path as code, which is not empty. -/
theorem gen_after_build_two {s b : State} (h2 : 2 ≤ (present s).length) (hb : b = (buildRun s).finish)
    (hok : b.err = false) :
    ∃ g, exec .gen b = .next g ∧ g.err = false ∧ ∀ w : Sym, lenOf (g.codeElem w) ≠ 0 ↔ w.toNat ∈ present s := by
  rcases Nat.lt_or_ge (ftTotal s) (2 ^ 32) with hfit | hover
  · obtain ⟨f, hf, hq, hrun⟩ := buildRun_of_fits h2 hfit
    rw [hrun] at hb
    have hbusy : b.busy = false := by rw [hb]; rfl
    have hr : b.root = (buildStore f).root := by rw [hb]; rfl
    have hna : b.na = (buildStore f).na := by rw [hb]; rfl
    have he : b.epoch = (buildStore f).epoch := by rw [hb]; rfl
    have hproper : properTree b := (properTree_congr hr hna he).2 (hf.properTree hq h2)
    have hleaf (w : Sym) : (∃ p, leafSym b p = some w) ↔ w.toNat ∈ present s := by
      rw [← hf.exists_leafSym hq w]
      simp only [leafSym_eq_leafFrom, hr, leafFrom_congr hna he]
    obtain ⟨g, hg, honly, hcodes⟩ := genWritesPathsOfProperTree b ⟨hbusy, hok⟩ hproper
    refine ⟨g, hg, by rw [honly]; exact hok, fun w => ?_⟩
    rw [← hleaf]
    by_cases hw : ∃ p, leafSym b p = some w
    · obtain ⟨p, hp⟩ := hw
      refine iff_of_true ?_ ⟨p, hp⟩
      rw [(hcodes w).1 p hp, lenOf_entry (hproper.length_le hp), Ne, List.length_eq_zero_iff]
      exact hproper.path_ne_nil hp
    · refine iff_of_false (not_not_intro ?_) hw
      rw [(hcodes w).2 (not_exists.1 hw)]
      exact lenOf_noEntry
  · obtain ⟨f, -, -, hrun⟩ := buildRun_of_overflow h2 hover
    rw [hb, hrun] at hok
    cases hok

/-- Settles O33: a BUILD without error had one present symbol, or two or more. -/
theorem genAfterBuildSucceeds : Obligations.GenAfterBuildSucceeds := by
  unfold Obligations.GenAfterBuildSucceeds
  intro s b hready hb hok
  have hrun : b = (buildRun (s.accept 0x00000001)).finish :=
    (Host.Outcome.next.inj ((exec_build_of_ready hready).symm.trans hb)).symm
  simp only [← mem_present]
  rcases hp : present s with _ | ⟨v, _ | ⟨w, rest⟩⟩
  · obtain ⟨t, ht⟩ := buildRun_of_none (s := s.accept 0x00000001) hp
    rw [hrun, ht] at hok
    cases hok
  · exact hp ▸ gen_after_build_one (s := s.accept 0x00000001) hp hrun hok
  · exact hp ▸ gen_after_build_two (s := s.accept 0x00000001) (hp ▸ Nat.le_add_left 2 rest.length) hrun hok

end Sys2Proof.Machine
end

section
/-!
ENCODE (42_encoder.md): how the command ends, by its sequence (R163, R166, R167, R169), and what BS then holds. The codes put are
one bitstring put from the stream's start, so the packer's laws say what BS holds (R165).
-/

namespace Sys2Proof.Machine

/-! ## BS after bits put from the stream's start (42_encoder.md R165) -/

theorem map_getBit_putBits_start (p : BitString) (s : State) : (List.range p.length).map (putBits 0 p s).getBit = p := by
  refine List.ext_getElem (by simp) fun i _ hi => ?_
  simp [getBit_putBits, hi]

theorem getBit_putBits_padding {p : BitString} {s : State} {j : Nat} (hj : p.length ≤ j)
    (hlast : j < 8 * ((p.length + 7) / 8)) : (putBits 0 p s).getBit j = false := by
  rw [getBit_putBits, if_neg (Nat.not_lt_zero j), if_neg (by omega), if_pos (by omega)]

theorem bsAt_putBits_later {p : BitString} {s : State} {q : Nat} (hq : (p.length + 7) / 8 ≤ q) :
    (putBits 0 p s).bsAt q = s.bsAt q :=
  bsAt_putBits 0 p s q (.inr (by rwa [Nat.zero_add]))

/-! ## The sequence and its codes -/

theorem length_codesOf (s : State) (seq : List Sym) :
    (codesOf s seq).length = (seq.map fun v => lenOf (s.codeElem v)).sum := by
  simp [codesOf, codeAt, List.length_flatMap]

/-- A symbol's place in the sequence: the symbols read before it, itself, and how many follow. -/
theorem symbols_of_sequence_eq {s : State} {front rest : List Sym} {v : Sym} (h : sequence s = front ++ v :: rest) :
    symbolsFrom s 0 front.length = front ∧ s.symAt front.length = v ∧
      s.symLen.toNat = front.length + (rest.length + 1) := by
  have hlen : s.symLen.toNat = front.length + (rest.length + 1) := by simpa [sequence] using congrArg List.length h
  rw [sequence_eq_symbolsFrom, hlen, symbolsFrom, ← List.range'_append_1, List.map_append] at h
  obtain ⟨hfront, htail⟩ := List.append_inj h (by simp)
  rw [List.range'_succ, List.map_cons, Nat.zero_add] at htail
  exact ⟨hfront, (List.cons.inj htail).1, hlen⟩

/-! ## How ENCODE runs (42_encoder.md R162) -/

theorem exec_encode_of_ready {s : State} (h : s.ready) :
    exec .encode s = .next (encodeRun (s.accept 0x00000003)).finish :=
  exec_of_ready h .encode

theorem encodeRun_of_tooLong {s : State} (h : Config.symCap < s.symLen.toNat) :
    encodeRun s = .error (s.raise .capacity s.symLen) := by
  rw [encodeRun, encodeStart, if_pos h, bind_error]

theorem encodeRun_of_fits {s : State} (h : s.symLen.toNat ≤ Config.symCap) :
    encodeRun s = (encodeLoop s.symLen.toNat 0 0 s).map fun r => encodeStore r.1 r.2 := by
  rw [encodeRun, encodeStart, if_neg (Nat.not_lt.2 h), bind_ok]

/-- A sequence all of whose codes are put: BIT_LEN is written after them. -/
theorem encodeRun_ok {s : State} (hcap : s.symLen.toNat ≤ Config.symCap)
    (hentry : ∀ v ∈ sequence s, lenOf (s.codeElem v) ≠ 0)
    (hfit : (codesOf s (sequence s)).length ≤ 8 * Config.bsCap) :
    encodeRun s =
      .ok (encodeStore (codesOf s (sequence s)).length (putBits 0 (codesOf s (sequence s)) s)) := by
  rw [sequence_eq_symbolsFrom] at hentry hfit ⊢
  rw [encodeRun_of_fits hcap, encodeLoop_ok _ 0 0 s hentry (by rwa [Nat.zero_add]), map_ok, Nat.zero_add]

/-- The loop comes to the symbol `v` with the codes of the symbols before it put; an error there ends ENCODE. -/
theorem encodeRun_of_encodeSymbol_error {s t : State} {front rest : List Sym} {v : Sym}
    (hcap : s.symLen.toNat ≤ Config.symCap) (hseq : sequence s = front ++ v :: rest)
    (hentry : ∀ u ∈ front, lenOf (s.codeElem u) ≠ 0) (hfit : (codesOf s front).length ≤ 8 * Config.bsCap)
    (herr : encodeSymbol front.length (codesOf s front).length (putBits 0 (codesOf s front) s) = .error t) :
    encodeRun s = .error t := by
  obtain ⟨hfront, -, hlen⟩ := symbols_of_sequence_eq hseq
  have hloop : encodeLoop front.length 0 0 s = .ok ((codesOf s front).length, putBits 0 (codesOf s front) s) := by
    have := encodeLoop_ok front.length 0 0 s
    rw [hfront, Nat.zero_add] at this
    exact this hentry hfit
  rw [encodeRun_of_fits hcap, hlen, encodeLoop_add, hloop, bind_ok, encodeLoop, Nat.zero_add, herr, bind_error, map_error]

/-- A code that does not fit BS: none of its bits is put (R166). -/
theorem encodeSymbol_of_full {i bitpos : Nat} {s : State} (hentry : lenOf (s.codeElem (s.symAt i)) ≠ 0)
    (hfull : 8 * Config.bsCap < bitpos + lenOf (s.codeElem (s.symAt i))) :
    encodeSymbol i bitpos s = .error (s.raise .capacity (BitVec.ofNat 32 i)) := by
  unfold encodeSymbol
  rw [if_neg hentry, if_pos hfull]

/-- Bits put after acceptance, then an error raised: BS alone is written beside the error. -/
theorem raise_putBits_accept (j : Nat) (p : BitString) (s : State) (w : Word) (e : Err) (info : Word) :
    (putBits j p (s.accept w)).raise e info =
      { s.raised w e info with bs := ((putBits j p (s.accept w)).raise e info).bs } := by
  rw [putBits_eq]
  rfl

/-- Bits put after acceptance, BIT_LEN stored, and completion: BS and BIT_LEN alone are written. -/
theorem complete_encodeStore_accept (j n : Nat) (p : BitString) (s : State) (w : Word) :
    (encodeStore n (putBits j p (s.accept w))).complete =
      { s.completed w with bs := (putBits j p (s.accept w)).bs, bitLen := BitVec.ofNat 32 n } := by
  rw [putBits_eq]
  rfl

/-! ## The statements (42_encoder.md R163, R166, R167, R169) -/

/-- Settles O35: the codes are one bitstring put from the stream's start, and BIT_LEN its length, which 32 bits hold. -/
theorem encodeConcatenatesCodes : Obligations.EncodeConcatenatesCodes := by
  unfold Obligations.EncodeConcatenatesCodes
  intro s hready hcap hentry hfit
  rw [← length_codesOf] at hfit ⊢
  have hrun := encodeRun_ok (s := s.accept 0x00000003) hcap hentry hfit
  refine ⟨_, exec_encode_of_ready hready, ?_⟩
  rw [hrun, Run.finish_ok]
  set t := (encodeStore _ (putBits 0 _ _)).complete
  have hlen : t.bitLen.toNat = (codesOf s (sequence s)).length :=
    (BitVec.toNat_ofNat ..).trans (Nat.mod_eq_of_lt (Nat.lt_of_le_of_lt hfit (by decide)))
  refine ⟨complete_encodeStore_accept .., hlen, ?_, ?_, ?_⟩
  · rw [stream, hlen]
    exact map_getBit_putBits_start ..
  · rw [hlen]
    exact fun j => getBit_putBits_padding
  · rw [hlen]
    exact fun q => bsAt_putBits_later

/-- Settles O38: the loop comes to the code that does not fit with the codes before it put, and raises before putting a bit of
it. -/
theorem encodeStreamFullRaises : Obligations.EncodeStreamFullRaises := by
  unfold Obligations.EncodeStreamFullRaises
  intro s front rest v hready hcap hseq hentry hv hfit hfull
  obtain ⟨-, hat, -⟩ := symbols_of_sequence_eq hseq
  have hrun := encodeRun_of_encodeSymbol_error (s := s.accept 0x00000003) hcap hseq hentry hfit <|
    encodeSymbol_of_full (by rw [symAt_putBits, codeElem_putBits]; exact hat ▸ hv)
      (by rw [symAt_putBits, codeElem_putBits]; exact hat ▸ hfull)
  refine ⟨_, exec_encode_of_ready hready, ?_⟩
  rw [hrun, Run.finish_error]
  exact ⟨raise_putBits_accept .., map_getBit_putBits_start .., fun j => getBit_putBits_padding,
    fun q => bsAt_putBits_later⟩

/-- Settles O37: the first check raises. -/
theorem encodeTooLongRaises : Obligations.EncodeTooLongRaises := by
  unfold Obligations.EncodeTooLongRaises
  intro s hready hlong
  rw [exec_encode_of_ready hready, encodeRun_of_tooLong (s := s.accept 0x00000003) hlong, Run.finish_error]
  rfl

/-- Settles O39: the sequence and its codes are empty, so no bit is put. -/
theorem encodeEmptySequence : Obligations.EncodeEmptySequence := by
  unfold Obligations.EncodeEmptySequence
  intro s hready h0
  have hlen : (s.accept 0x00000003).symLen.toNat = 0 := congrArg BitVec.toNat h0
  rw [exec_encode_of_ready hready, encodeRun_of_fits (hlen ▸ Nat.zero_le _), hlen, encodeLoop, map_ok, Run.finish_ok]
  rfl

end Sys2Proof.Machine
end

section
/-!
DECODE (43_decoder.md): how the command ends, by its stream (R182, R189, R190), and one emission (R185). Where the loop stands is
said by the bits consumed: the paths they complete, whose symbols are in SYM, and the path gone from the root since (`DecodedTo`).
-/

namespace Sys2Proof.Machine

/-! ## Symbols emitted (43_decoder.md R185) -/

/-- `SYM[0 .. |vs|-1] <- vs`, one symbol after the other. -/
def State.emit (s : State) (vs : List Sym) : State :=
  { s with sym := vs.zipIdx.foldl (fun mem e => Memory.set mem e.2 e.1) s.sym }

@[simp] theorem root_emit (s : State) (vs : List Sym) : (s.emit vs).root = s.root := rfl
@[simp] theorem node_emit (s : State) (vs : List Sym) : (s.emit vs).node = s.node := rfl
@[simp] theorem getBit_emit (s : State) (vs : List Sym) : (s.emit vs).getBit = s.getBit := rfl

@[simp] theorem descend_emit (s : State) (vs : List Sym) (k : NodeIdx) (p : BitString) :
    descend (s.emit vs) k p = descend s k p :=
  descend_congr (s := s.emit vs) (t := s) rfl rfl k p

/-- One more symbol emitted. -/
theorem emit_concat (s : State) (vs : List Sym) (v : Sym) : s.emit (vs ++ [v]) = (s.emit vs).setSym vs.length v := by
  simp [State.emit, State.setSym, List.zipIdx_append]

/-- What SYM holds: the symbols emitted, and the elements after them as they were. -/
theorem symAt_emit (s : State) (vs : List Sym) (i : Nat) : (s.emit vs).symAt i = vs.getD i (s.symAt i) := by
  induction vs using List.reverseRecOn with
  | nil => rfl
  | append_singleton vs v ih =>
    rw [emit_concat, State.symAt_setSym, ih]
    obtain hi | rfl | hi := Nat.lt_trichotomy i vs.length
    · rw [if_neg (Nat.ne_of_lt hi), List.getD_append _ _ _ _ hi]
    · simp
    · rw [if_neg (Nat.ne_of_gt hi), List.getD_eq_default _ _ (Nat.le_of_lt hi), List.getD_eq_default]
      rwa [List.length_append, List.length_singleton]

theorem map_symAt_emit (s : State) (vs : List Sym) : (List.range vs.length).map (s.emit vs).symAt = vs := by
  refine List.ext_getElem (by simp) fun i _ hi => ?_
  simp [symAt_emit, hi]

theorem symAt_emit_of_le {s : State} {vs : List Sym} {i : Nat} (hi : vs.length ≤ i) : (s.emit vs).symAt i = s.symAt i := by
  rw [symAt_emit, List.getD_eq_default _ _ hi]

/-! ## Bits of the stream -/

/-- The bits of the stream at `j` and after are `p`. -/
def State.bitsAt (s : State) (j : Nat) (p : BitString) : Prop := ∀ i < p.length, s.getBit (j + i) = p.getD i false

theorem State.bitsAt_append {s : State} {j : Nat} {p q : BitString} (h : s.bitsAt j (p ++ q)) :
    s.bitsAt j p ∧ s.bitsAt (j + p.length) q := by
  refine ⟨fun i hi => ?_, fun i hi => ?_⟩
  · rw [h i (by rw [List.length_append]; omega), List.getD_append _ _ _ _ hi]
  · rw [Nat.add_assoc, h (p.length + i) (by rw [List.length_append]; omega),
      List.getD_append_right _ _ _ _ (Nat.le_add_right ..), Nat.add_sub_cancel_left]

theorem bitsAt_of_stream_eq {s : State} {p : BitString} (h : stream s = p) : s.bitsAt 0 p := by
  subst h
  intro i hi
  have hlt : i < s.bitLen.toNat := by simpa [stream] using hi
  simp [stream, hlt]

theorem length_of_stream_eq {s : State} {p : BitString} (h : stream s = p) : s.bitLen.toNat = p.length := by
  simpa [stream] using congrArg List.length h

/-! ## Streams of whole paths -/

/-- The non-empty paths `ps` lead from the root to leaves of the symbols `vs`. -/
abbrev Spells (s : State) (ps : List BitString) (vs : List Sym) : Prop :=
  List.Forall₂ (fun p v => p ≠ [] ∧ leafSym s p = some v) ps vs

theorem leafSym_eq_some {s : State} {p : BitString} {v : Sym} :
    leafSym s p = some v ↔
      ∃ k, descend s s.root p = some k ∧ kindOf (s.node k) = .leaf ∧ symOf (s.node k) = v := by
  unfold leafSym
  cases descend s s.root p <;> simp

/-- A path that goes on from a leaf leads nowhere. -/
theorem eq_nil_of_leafSym_append {s : State} {p q : BitString} {v w : Sym} (hp : leafSym s p = some v)
    (hpq : leafSym s (p ++ q) = some w) : q = [] := by
  obtain ⟨k, hk, hleaf, -⟩ := leafSym_eq_some.1 hp
  obtain ⟨n, hn, -⟩ := leafSym_eq_some.1 hpq
  cases q with
  | nil => rfl
  | cons b q =>
    rw [descend_append, hk, Option.bind_some, descend_leaf_cons hleaf] at hn
    cases hn

/-- Bits are split into root-to-leaf paths in one way at most. -/
theorem Spells.paths_unique {s : State} {ps qs : List BitString} {vs us : List Sym} (hp : Spells s ps vs) (hq : Spells s qs us)
    (h : ps.flatten = qs.flatten) : ps = qs := by
  induction hp generalizing qs us with
  | nil =>
    cases hq with
    | nil => rfl
    | cons hq _ => exact absurd (List.append_eq_nil_iff.1 h.symm).1 hq.1
  | @cons p v ps vs hp hps ih =>
    cases hq with
    | nil => exact absurd (List.append_eq_nil_iff.1 h).1 hp.1
    | @cons q u qs us hq hqs =>
      rw [List.flatten_cons, List.flatten_cons] at h
      have hpq : p = q := by
        obtain ⟨r, rfl, -⟩ | ⟨r, rfl, -⟩ := List.append_eq_append_iff.1 h
        · rw [eq_nil_of_leafSym_append hp.2 hq.2, List.append_nil]
        · rw [eq_nil_of_leafSym_append hq.2 hp.2, List.append_nil]
      subst hpq
      rw [ih hqs (List.append_cancel_left h)]

theorem Spells.length_le {s : State} {ps : List BitString} {vs : List Sym} (h : Spells s ps vs) :
    vs.length ≤ ps.flatten.length := by
  induction h with
  | nil => exact Nat.le_refl 0
  | cons hp _ ih =>
    have := List.length_pos_of_ne_nil hp.1
    rw [List.flatten_cons, List.length_append, List.length_cons]
    omega

theorem leafSym_accept (s : State) (w : Word) (p : BitString) : leafSym (s.accept w) p = leafSym s p :=
  leafFrom_congr (s := s.accept w) (t := s) rfl rfl s.root p

theorem spells_accept {s : State} {w : Word} {ps : List BitString} {vs : List Sym} :
    Spells (s.accept w) ps vs ↔ Spells s ps vs := by
  simp only [Spells, leafSym_accept]

/-! ## One bit -/

/-- Arriving at a node goes on from a LEAF, with its symbol emitted, and from an INTERNAL node. -/
theorem decodeArrive_ok {j : Nat} {n : NodeIdx} {c d : Cursor} (h : decodeArrive j n c = .ok d) :
    (kindOf (c.st.node n) = .leaf ∧ c.m ≠ Config.symCap ∧
      d = { cur := c.st.root, m := c.m + 1, st := (c.st.setSym c.m (symOf (c.st.node n))).setDecState .atRoot }) ∨
    (kindOf (c.st.node n) = .internal ∧ d = { cur := n, m := c.m, st := c.st.setDecState .inPath }) := by
  unfold decodeArrive at h
  split at h
  next hk =>
    split at h
    · cases h
    next hm => exact .inl ⟨hk, hm, (Except.ok.inj h).symm⟩
  next hk => exact .inr ⟨hk, (Except.ok.inj h).symm⟩
  · cases h

/-- A bit that is followed leads along an edge of the tree. -/
theorem decodeBit_ok {j : Nat} {c d : Cursor} (h : decodeBit j c = .ok d) :
    (kindOf (c.st.node c.cur) = .internal ∧ childValid (c.st.node c.cur) (c.st.getBit j) = true) ∧
      decodeArrive j (childOf (c.st.node c.cur) (c.st.getBit j)) c = .ok d := by
  unfold decodeBit at h
  simp only at h
  split at h
  next hk =>
    split at h
    next hv => exact ⟨⟨hk, hv⟩, h⟩
    · cases h
  · cases h

/-- One bit to a LEAF with SYM full: nothing is emitted (43_decoder.md R185). -/
theorem decodeBit_leaf_full {j : Nat} {c : Cursor} (hk : kindOf (c.st.node c.cur) = .internal)
    (hv : childValid (c.st.node c.cur) (c.st.getBit j) = true)
    (hn : kindOf (c.st.node (childOf (c.st.node c.cur) (c.st.getBit j))) = .leaf) (hm : c.m = Config.symCap) :
    decodeBit j c = .error (c.st.raise .capacity (BitVec.ofNat 32 j)) := by
  simp [decodeBit, decodeArrive, hk, hv, hn, hm]

theorem tick_of_hidden_decodeAt {s : State} {j m : Nat} {cur : NodeIdx} (h : s.hidden = .decodeAt j cur m) :
    s.tick = tickDecode j { cur := cur, m := m, st := s } := by
  rw [State.tick, h]

/-! ## Where the loop stands -/

/-- The cursor `c` after DECODE from `s` has consumed `bits`: whole paths `ps`, whose symbols `vs` are in SYM, and the path `q`
from the root to `cur` (43_decoder.md R184). -/
structure DecodedTo (s : State) (bits : BitString) (c : Cursor) (ps : List BitString) (vs : List Sym) (q : BitString) :
    Prop where
  split : bits = ps.flatten ++ q
  paths : Spells s ps vs
  node : descend s s.root q = some c.cur
  room : vs.length ≤ Config.symCap
  count : c.m = vs.length
  st : c.st = (s.emit vs).setDecState (if q = [] then .atRoot else .inPath)

/-- The cursor after whole paths whose symbols are `vs`. -/
def cursorAfter (s : State) (vs : List Sym) : Cursor :=
  { cur := s.root, m := vs.length, st := (s.emit vs).setDecState .atRoot }

theorem decodedTo_start (s : State) : DecodedTo s [] (cursorAfter s []) [] [] [] where
  split := rfl
  paths := .nil
  node := rfl
  room := Nat.zero_le _
  count := rfl
  st := rfl

section
variable {s : State} {bits : BitString} {c d : Cursor} {ps : List BitString} {vs : List Sym} {q : BitString} {left j : Nat}

/-- At the root, the bits consumed are whole paths. -/
theorem DecodedTo.eq_cursorAfter (h : DecodedTo s bits c ps vs q) (hroot : c.st.decState = .atRoot) :
    q = [] ∧ c = cursorAfter s vs := by
  obtain ⟨-, -, hnode, -, hm, hst⟩ := h
  have hq : q = [] := by
    by_contra hq
    rw [hst, State.setDecState_decState, if_neg hq] at hroot
    cases hroot
  subst hq
  obtain ⟨cur, m, st⟩ := c
  obtain rfl := Option.some.inj hnode
  subst hm hst
  exact ⟨rfl, rfl⟩

/-- One bit consumed: it completes a path, or makes the path from the root one edge longer. -/
theorem DecodedTo.decodeBit (h : DecodedTo s bits c ps vs q) (hd : decodeBit j c = .ok d) :
    ∃ ps' vs' q', DecodedTo s (bits ++ [s.getBit j]) d ps' vs' q' := by
  obtain ⟨hsplit, hpaths, hnode, hroom, hm, hst⟩ := h
  obtain ⟨hedge, harrive⟩ := decodeBit_ok hd
  have hn : c.st.node = s.node := by simp [hst]
  have hb : c.st.getBit j = s.getBit j := by simp [hst]
  rw [hn, hb] at hedge harrive
  set b := s.getBit j
  set n := childOf (s.node c.cur) b
  have hstep : descend s s.root (q ++ [b]) = some n := descend_concat_eq_some.2 ⟨c.cur, hnode, hedge, rfl⟩
  rcases decodeArrive_ok harrive with ⟨hk, hfull, rfl⟩ | ⟨hk, rfl⟩
  · rw [hn] at hk
    refine ⟨ps ++ [q ++ [b]], vs ++ [symOf (s.node n)], [], ?_, ?_, ?_, ?_, ?_, ?_⟩
    · simp [hsplit]
    · exact List.rel_append hpaths (.cons ⟨by simp, leafSym_eq_some.2 ⟨n, hstep, hk, rfl⟩⟩ .nil)
    · simp [hst, descend]
    · rw [List.length_append, List.length_singleton]
      omega
    · simp [hm]
    · rw [if_pos rfl, emit_concat, hn, hst, hm]
      rfl
  · refine ⟨ps, vs, q ++ [b], ?_, hpaths, hstep, hroom, hm, ?_⟩
    · simp [hsplit]
    · rw [if_neg (by simp), hst]
      rfl

/-- The loop stands where the bits it has consumed lead. -/
theorem DecodedTo.decodeLoop (h : DecodedTo s ((List.range j).map s.getBit) c ps vs q)
    (hd : decodeLoop left j c = .ok d) :
    ∃ ps' vs' q', DecodedTo s ((List.range (j + left)).map s.getBit) d ps' vs' q' := by
  induction left generalizing j c ps vs q with
  | zero =>
    obtain rfl := Except.ok.inj hd
    exact ⟨ps, vs, q, h⟩
  | succ left ih =>
    obtain ⟨c', hbit, hloop⟩ := bind_eq_ok.1 hd
    obtain ⟨ps', vs', q', h'⟩ := h.decodeBit hbit
    rw [Nat.add_comm left 1, ← Nat.add_assoc]
    refine ih (ps := ps') (vs := vs') (q := q') ?_ hloop
    rw [List.range_succ, List.map_append]
    exact h'

end

/-- Along whole paths the loop emits their symbols, and is at the root again. -/
theorem decodeLoop_paths {s : State} {ps : List BitString} {us vs : List Sym} {j : Nat} (h : Spells s ps vs)
    (hbits : s.bitsAt j ps.flatten) (hroom : us.length + vs.length ≤ Config.symCap) :
    decodeLoop ps.flatten.length j (cursorAfter s us) = .ok (cursorAfter s (us ++ vs)) := by
  induction h generalizing us j with
  | nil => rw [List.append_nil]; rfl
  | @cons p v ps vs hp _ ih =>
    obtain ⟨hne, hleafSym⟩ := hp
    obtain ⟨k, hnode, hleaf, rfl⟩ := leafSym_eq_some.1 hleafSym
    rw [List.flatten_cons] at hbits
    obtain ⟨hpath, hrest⟩ := State.bitsAt_append hbits
    rw [List.length_cons] at hroom
    have hcode : decodeLoop p.length j (cursorAfter s us) = .ok (cursorAfter s (us ++ [symOf (s.node k)])) := by
      rw [cursorAfter, decodeLoop_leaf p j us.length s.root k ((s.emit us).setDecState .atRoot) hne hpath (by simpa using hnode)
        (by simpa using hleaf) (by omega), cursorAfter, emit_concat, List.length_append]
      rfl
    rw [List.flatten_cons, List.length_append, decodeLoop_add, hcode, bind_ok,
      ih hrest (by rw [List.length_append, List.length_singleton]; omega), List.append_assoc]
    rfl

/-! ## How DECODE runs (43_decoder.md R181) -/

theorem exec_decode_of_ready {s : State} (h : s.ready) :
    exec .decode s = .next (decodeRun (s.accept 0x00000004)).finish :=
  exec_of_ready h .decode

theorem decodeRun_of_tooLong {s : State} (h : 8 * Config.bsCap < s.bitLen.toNat) :
    decodeRun s = .error (s.raise .capacity s.bitLen) := by
  rw [decodeRun, decodeStart, if_pos h, bind_error]

theorem decodeRun_of_fits {s : State} (h : s.bitLen.toNat ≤ 8 * Config.bsCap) :
    decodeRun s = (decodeLoop s.bitLen.toNat 0 (cursorAfter s [])).bind decodeEnd := by
  rw [decodeRun, decodeStart, if_neg (Nat.not_lt.2 h), bind_ok]
  rfl

/-- Ending at the root after `vs`: SYM, SYM_LEN and DEC_STATE alone are written. -/
theorem finish_decodeEnd_cursorAfter (s : State) (w : Word) (vs : List Sym) :
    (decodeEnd (cursorAfter (s.accept w) vs)).finish =
      { s.completed w with sym := (s.emit vs).sym, symLen := BitVec.ofNat 32 vs.length, decState := .atRoot } :=
  rfl

/-- A stream of whole paths that SYM has room for is decoded without error. -/
theorem decodeRun_of_paths {s : State} {ps : List BitString} {vs : List Sym} (hfit : s.bitLen.toNat ≤ 8 * Config.bsCap)
    (h : Spells s ps vs) (hstream : stream s = ps.flatten) (hroom : vs.length ≤ Config.symCap) :
    decodeRun s = decodeEnd (cursorAfter s vs) := by
  rw [decodeRun_of_fits hfit, length_of_stream_eq hstream,
    decodeLoop_paths h (bitsAt_of_stream_eq hstream) (by simpa using hroom), bind_ok, List.nil_append]

/-! ## How DECODE ends with an error -/

/-- A piece that ends the command only with an error raised. -/
def Run.Raises {α : Type} (r : Run α) : Prop := ∀ t, r = .error t → t.err = true

theorem Run.raises_ok {α : Type} (a : α) : Run.Raises (.ok a) := nofun

theorem Run.raises_raise {α : Type} (s : State) (e : Err) (info : Word) : Run.Raises (.error (s.raise e info) : Run α) := by
  rintro _ ⟨⟩
  rfl

theorem Run.Raises.bind {α β : Type} {r : Run α} {f : α → Run β} (hr : r.Raises) (hf : ∀ a, (f a).Raises) :
    Run.Raises (Except.bind r f) := by
  intro t ht
  obtain h | ⟨a, -, h⟩ := bind_eq_error.1 ht
  · exact hr t h
  · exact hf a t h

theorem decodeStart_raises (s : State) : (decodeStart s).Raises := by
  unfold decodeStart
  split
  · exact Run.raises_raise _ _ _
  · exact Run.raises_ok _

theorem decodeArrive_raises (j : Nat) (n : NodeIdx) (c : Cursor) : (decodeArrive j n c).Raises := by
  unfold decodeArrive
  split
  · split
    · exact Run.raises_raise _ _ _
    · exact Run.raises_ok _
  · exact Run.raises_ok _
  · exact Run.raises_raise _ _ _

theorem decodeBit_raises (j : Nat) (c : Cursor) : (decodeBit j c).Raises := by
  unfold decodeBit
  simp only
  split
  · split
    · exact decodeArrive_raises _ _ _
    · exact Run.raises_raise _ _ _
  · exact Run.raises_raise _ _ _

theorem decodeLoop_raises (left j : Nat) (c : Cursor) : (decodeLoop left j c).Raises := by
  induction left generalizing j c with
  | zero => exact Run.raises_ok c
  | succ left ih => exact (decodeBit_raises j c).bind (ih (j + 1))

theorem decodeEnd_raises (c : Cursor) : (decodeEnd c).Raises := by
  unfold decodeEnd
  split
  · exact Run.raises_ok _
  · exact Run.raises_raise _ _ _

theorem decodeRun_raises (s : State) : (decodeRun s).Raises :=
  (decodeStart_raises s).bind fun c => (decodeLoop_raises c.st.bitLen.toNat 0 c).bind decodeEnd_raises

theorem decodeEnd_ok {c : Cursor} {t : State} (h : decodeEnd c = .ok t) : c.st.decState = .atRoot := by
  unfold decodeEnd at h
  split at h
  · assumption
  · cases h

/-- DECODE completes only where the stream is whole paths, with their symbols emitted (43_decoder.md R190). -/
theorem paths_of_decodeRun_ok {s t : State} (h : decodeRun s = .ok t) :
    ∃ ps vs, stream s = ps.flatten ∧ Spells s ps vs ∧ vs.length ≤ Config.symCap ∧
      decodeRun s = decodeEnd (cursorAfter s vs) := by
  have hfit : s.bitLen.toNat ≤ 8 * Config.bsCap := by
    by_contra hlong
    rw [decodeRun_of_tooLong (Nat.lt_of_not_le hlong)] at h
    cases h
  rw [decodeRun_of_fits hfit] at h ⊢
  obtain ⟨c, hloop, hend⟩ := bind_eq_ok.1 h
  obtain ⟨ps, vs, q, hto⟩ := (decodedTo_start s).decodeLoop (j := 0) hloop
  obtain ⟨rfl, rfl⟩ := hto.eq_cursorAfter (decodeEnd_ok hend)
  refine ⟨ps, vs, ?_, hto.paths, hto.room, by rw [hloop, bind_ok]⟩
  simpa [stream] using hto.split

/-! ## The statements (43_decoder.md R182, R185, R189, R190) -/

/-- Settles O40: the loop emits the paths' symbols one after the other and ends at the root. -/
theorem decodeEmitsLeafSymbols : Obligations.DecodeEmitsLeafSymbols := by
  unfold Obligations.DecodeEmitsLeafSymbols
  intro s ps vs hready hfit hpaths hstream hroom
  have hrun := decodeRun_of_paths (s := s.accept 0x00000004) hfit (spells_accept.2 hpaths) hstream hroom
  refine ⟨_, exec_decode_of_ready hready, ?_⟩
  rw [hrun, finish_decodeEnd_cursorAfter]
  exact ⟨rfl, map_symAt_emit s vs, fun i => symAt_emit_of_le⟩

/-- Settles O41: a DECODE without error ran to its end, so the bits it consumed are whole paths; and no two paths to leaves are
one the start of the other, so the split is the only one. -/
theorem decodeSuccessIsWholeCodes : Obligations.DecodeSuccessIsWholeCodes := by
  unfold Obligations.DecodeSuccessIsWholeCodes
  intro s t hready ht herr
  rw [exec_decode_of_ready hready] at ht
  obtain rfl := Host.Outcome.next.inj ht
  cases hrun : decodeRun (s.accept 0x00000004) with
  | error u =>
    rw [hrun, Run.finish_error, decodeRun_raises _ u hrun] at herr
    cases herr
  | ok u =>
    obtain ⟨ps, vs, hstream, hpaths, hroom, hend⟩ := paths_of_decodeRun_ok hrun
    rw [← hrun, hend, finish_decodeEnd_cursorAfter]
    rw [spells_accept] at hpaths
    have hlen : (BitVec.ofNat 32 vs.length).toNat = vs.length :=
      (BitVec.toNat_ofNat ..).trans (Nat.mod_eq_of_lt (Nat.lt_of_le_of_lt hroom (by decide)))
    refine ⟨rfl, ⟨ps, ⟨hstream, ?_⟩, fun qs us hqs hsplit => ?_⟩, ?_, fun i hi => ?_⟩
    · rw [sequence, hlen]
      exact (map_symAt_emit s vs).symm ▸ hpaths
    · exact Spells.paths_unique hsplit hpaths (hqs.symm.trans hstream)
    · rw [hlen, length_of_stream_eq (s := s) hstream]
      exact hpaths.length_le
    · rw [hlen] at hi
      exact symAt_emit_of_le hi

/-- Settles O44: the first check raises. -/
theorem decodeTooLongRaises : Obligations.DecodeTooLongRaises := by
  unfold Obligations.DecodeTooLongRaises
  intro s hready hlong
  rw [exec_decode_of_ready hready, decodeRun_of_tooLong (s := s.accept 0x00000004) hlong, Run.finish_error]
  rfl

/-- Settles O45: the bit leads to a leaf, so its arrival is an emission. -/
theorem decodeEmissionNeedsRoom : Obligations.DecodeEmissionNeedsRoom := by
  unfold Obligations.DecodeEmissionNeedsRoom
  intro s j m cur hhidden hj hk hv hleaf
  rw [tick_of_hidden_decodeAt hhidden, tickDecode, if_pos hj]
  by_cases hm : m = Config.symCap
  · rw [if_pos hm, decodeBit_leaf_full (c := { cur := cur, m := m, st := s }) hk hv hleaf hm, Run.goOn_error]
  · rw [if_neg hm, decodeBit_leaf (c := { cur := cur, m := m, st := s }) hk hv hleaf hm, Run.goOn_ok]
    rfl

/-- Settles O46: the empty stream is the concatenation of no paths. -/
theorem decodeEmptyStream : Obligations.DecodeEmptyStream := by
  unfold Obligations.DecodeEmptyStream
  intro s hready h0
  have hlen : (s.accept 0x00000004).bitLen.toNat = 0 := congrArg BitVec.toNat h0
  have hrun := decodeRun_of_paths (s := s.accept 0x00000004) (hlen ▸ Nat.zero_le _) .nil (by rw [stream, hlen]; rfl)
    (Nat.zero_le _)
  rw [exec_decode_of_ready hready, hrun, finish_decodeEnd_cursorAfter]
  rfl

end Sys2Proof.Machine
end

section
/-!
DECODE is a function of the tree and of the first BIT_LEN bits of BS (43_decoder.md R182, R185, R191): from machines that hold the
same of both its pieces do the same, `DecodeAlike` for the machines and `Run.Both` for what a piece of pseudocode gives.
-/

namespace Sys2Proof.Machine

/-- Two machines that DECODE of a stream of `n` bits does not tell apart: the same tree, stream and symbols, the same latched
error. -/
structure DecodeAlike (n : Nat) (s t : State) : Prop where
  tree : sameTree s t
  length : s.bitLen.toNat = n
  bitLen : s.bitLen = t.bitLen
  bits : ∀ j < n, s.getBit j = t.getBit j
  syms : ∀ i < Config.symCap, s.symAt i = t.symAt i
  symLen : s.symLen = t.symLen
  err : s.err = t.err
  latch : s.err = true → s.errCode = t.errCode ∧ s.errInfo = t.errInfo

/-- Two cursors at one node and one position of SYM, in one state of the decoder. -/
structure CursorAlike (n : Nat) (c d : Cursor) : Prop where
  cur : c.cur = d.cur
  m : c.m = d.m
  decState : c.st.decState = d.st.decState
  st : DecodeAlike n c.st d.st

/-- Two pieces that both go on, with results in relation `R`, or have both ended, in machines in relation `E`. -/
inductive Run.Both {α : Type} (E : State → State → Prop) (R : α → α → Prop) : Run α → Run α → Prop
  | ok {a b : α} (h : R a b) : Run.Both E R (.ok a) (.ok b)
  | error {s t : State} (h : E s t) : Run.Both E R (.error s) (.error t)

theorem Run.Both.bind {α β : Type} {E : State → State → Prop} {R : α → α → Prop} {S : β → β → Prop} {r r' : Run α}
    {f f' : α → Run β} (h : Run.Both E R r r') (hf : ∀ a b, R a b → Run.Both E S (f a) (f' b)) :
    Run.Both E S (Except.bind r f) (Except.bind r' f') := by
  cases h with
  | ok h => exact hf _ _ h
  | error h => exact .error h

/-! ## What writes keep -/

section
variable {n : Nat} {s t : State} (h : DecodeAlike n s t)
include h

theorem DecodeAlike.raise (e : Err) (info : Word) : DecodeAlike n (s.raise e info) (t.raise e info) :=
  { h with err := rfl, latch := fun _ => ⟨rfl, rfl⟩ }

theorem DecodeAlike.accept (w : Word) : DecodeAlike n (s.accept w) (t.accept w) := { h with }

theorem DecodeAlike.complete : DecodeAlike n s.complete t.complete := { h with }

theorem DecodeAlike.setDecState (d d' : DecState) : DecodeAlike n (s.setDecState d) (t.setDecState d') := { h with }

theorem DecodeAlike.setSymLen (v : Word) : DecodeAlike n (s.setSymLen v) (t.setSymLen v) := { h with symLen := rfl }

theorem DecodeAlike.setSym (i : Nat) (v : Sym) : DecodeAlike n (s.setSym i v) (t.setSym i v) :=
  { h with syms := fun k hk => by rw [State.symAt_setSym, State.symAt_setSym, h.syms k hk] }

end

/-! ## The pieces of DECODE -/

theorem DecodeAlike.decodeStart {n : Nat} {s t : State} (h : DecodeAlike n s t) :
    Run.Both (DecodeAlike n) (CursorAlike n) (decodeStart s) (decodeStart t) := by
  unfold Machine.decodeStart
  rw [← h.bitLen]
  split
  · exact .error (h.raise _ _)
  · exact .ok ⟨h.tree.1, rfl, rfl, h.setDecState _ _⟩

section
variable {n : Nat} {c d : Cursor} (h : CursorAlike n c d)
include h

/-- Arriving at a node, its kind is read, and of a LEAF its symbol. -/
theorem CursorAlike.decodeArrive (j : Nat) (k : NodeIdx) :
    Run.Both (DecodeAlike n) (CursorAlike n) (decodeArrive j k c) (decodeArrive j k d) := by
  obtain ⟨hkind, hsym, -⟩ := h.st.tree.2 k
  unfold Machine.decodeArrive
  rw [← hkind]
  cases hk : kindOf (c.st.node k) with
  | free => exact .error (h.st.raise _ _)
  | leaf =>
    simp only [← hsym hk, ← h.m]
    split
    · exact .error (h.st.raise _ _)
    · exact .ok ⟨h.st.tree.1, rfl, rfl, (h.st.setSym _ _).setDecState _ _⟩
  | internal => exact .ok ⟨rfl, h.m, rfl, h.st.setDecState _ _⟩

/-- Of the node stood at the kind is read, and of an INTERNAL one the child on the bit's side, if it has one. -/
theorem CursorAlike.decodeBit {j : Nat} (hj : j < n) :
    Run.Both (DecodeAlike n) (CursorAlike n) (decodeBit j c) (decodeBit j d) := by
  obtain ⟨hkind, -, hchild⟩ := h.st.tree.2 c.cur
  unfold Machine.decodeBit
  simp only [← h.cur, ← h.st.bits j hj, ← hkind]
  split
  next hk =>
    obtain ⟨hvalid, hnext⟩ := hchild hk (c.st.getBit j)
    rw [← hvalid]
    split
    next hv => rw [← hnext hv]; exact h.decodeArrive j _
    next => exact .error (h.st.raise _ _)
  next => exact .error (h.st.raise _ _)

theorem CursorAlike.decodeEnd : Run.Both (DecodeAlike n) (DecodeAlike n) (decodeEnd c) (decodeEnd d) := by
  unfold Machine.decodeEnd
  rw [← h.decState, ← h.m, ← h.st.bitLen]
  split
  · exact .ok (h.st.setSymLen _)
  · exact .error (h.st.raise _ _)

end

/-- The loop reads the stream's bits alone. -/
theorem CursorAlike.decodeLoop {n left j : Nat} {c d : Cursor} (h : CursorAlike n c d) (hj : j + left ≤ n) :
    Run.Both (DecodeAlike n) (CursorAlike n) (decodeLoop left j c) (decodeLoop left j d) := by
  induction left generalizing j c d with
  | zero => exact .ok h
  | succ left ih => exact (h.decodeBit (by omega)).bind fun _ _ h' => ih h' (by omega)

theorem DecodeAlike.decodeRun {n : Nat} {s t : State} (h : DecodeAlike n s t) :
    Run.Both (DecodeAlike n) (DecodeAlike n) (decodeRun s) (decodeRun t) := by
  refine h.decodeStart.bind fun c d hcd => ?_
  rw [← hcd.st.bitLen, hcd.st.length]
  exact (hcd.decodeLoop (Nat.zero_add n).le).bind fun _ _ h' => h'.decodeEnd

theorem Run.Both.finish {n : Nat} {r r' : Run State} (h : Run.Both (DecodeAlike n) (DecodeAlike n) r r') :
    DecodeAlike n r.finish r'.finish := by
  cases h with
  | ok h => exact h.complete
  | error h => exact h

theorem getBit_eq_of_stream_eq {s t : State} (hlen : s.bitLen = t.bitLen) (h : stream s = stream t) :
    ∀ j < s.bitLen.toNat, s.getBit j = t.getBit j := by
  rw [stream, stream, ← hlen] at h
  exact fun j hj => List.map_inj_left.1 h j (List.mem_range.2 hj)

/-- Settles O47: DECODE's pieces do the same on the same tree and stream, one after the other. -/
theorem decodeDependsOnTreeAndStream : Obligations.DecodeDependsOnTreeAndStream := by
  unfold Obligations.DecodeDependsOnTreeAndStream
  intro s s' t t' hs hs' htree hlen hstream hsymLen hsyms ht ht'
  rw [exec_decode_of_ready hs] at ht
  rw [exec_decode_of_ready hs'] at ht'
  have h : DecodeAlike s.bitLen.toNat s s' :=
    { tree := htree, length := rfl, bitLen := hlen, bits := getBit_eq_of_stream_eq hlen hstream, syms := hsyms,
      symLen := hsymLen, err := hs.2.trans hs'.2.symm, latch := fun he => absurd he (by simp [hs.2]) }
  have hend := (h.accept 0x00000004).decodeRun.finish
  rw [Host.Outcome.next.inj ht, Host.Outcome.next.inj ht'] at hend
  exact ⟨hend.syms, hend.symLen, hend.err, hend.latch⟩

end Sys2Proof.Machine
end

section
/-!
The system commands NOP and CLRERR (44_system_commands.md R200, R201): each, once accepted, completes in the state its acceptance
leaves, CLRERR with the error latch released; and the STATUS word a completed command leaves when no error is latched.
-/

namespace Sys2Proof.Machine

theorem exec_nop_of_ready {s : State} (h : s.ready) : exec .nop s = .next (s.completed 0x00000000) := exec_of_ready h .nop

/-- An idle block accepts CLRERR, whether or not an error is latched. -/
theorem exec_clrerr_of_idle {s : State} (hb : s.busy = false) :
    exec .clrerr s = .next (s.clearErr.completed 0x00000005) :=
  exec_accepted (ignores_encode hb (.inr rfl))

/-- STATUS after a command that ended without error, the decoder at the root: LAST_OP and DONE (10_state.md R23). -/
theorem statusWord_completed {s : State} (he : s.err = false) (hroot : s.decState = .atRoot) (w : Word) :
    (s.completed w).statusWord = (0#24 ++ opField w ++ 2#4 : BitVec 32) := by
  unfold State.statusWord
  rw [State.completed_busy, State.completed_done, State.completed_err, State.completed_decState, State.completed_lastOp, he,
    hroot]
  generalize opField w = op
  revert op
  decide

/-- Settles O12: the gate lets NOP's word through exactly if the block is ready, and NOP then only completes. -/
theorem nopOnlyCompletes : Obligations.NopOnlyCompletes := by
  unfold Obligations.NopOnlyCompletes
  refine ⟨by decide, fun s hb he => exec_nop_of_ready ⟨hb, he⟩, fun s h => ?_, _, exec_nop_of_ready ⟨rfl, rfl⟩, ?_⟩
  · exact exec_ignored ((s.ignores_iff _).2 (h.imp_right fun he => ⟨he, by decide⟩))
  · exact statusWord_completed rfl rfl _

/-- Settles O13: an idle block always accepts CLRERR, and under the latch every other word is ignored. -/
theorem clrerrReleasesTheLatch : Obligations.ClrerrReleasesTheLatch := by
  unfold Obligations.ClrerrReleasesTheLatch
  refine ⟨by decide, fun s hb => exec_clrerr_of_idle hb, fun s hb => exec_ignored (State.ignores_of_busy hb _),
    fun s w he hw => issueWord_ignored ((s.ignores_iff w).2 (.inr ⟨he, hw⟩)), fun s t hb hroot ht => ?_⟩
  rw [exec_clrerr_of_idle hb] at ht
  obtain rfl := Host.Outcome.next.inj ht
  exact ⟨statusWord_completed (s := s.clearErr) rfl hroot _, rfl⟩

end Sys2Proof.Machine
end

section
/-!
COUNT (45_environment_contracts.md R210): a symbol's count as the library's `List.count`, and the sum of a sequence's counts over
the whole alphabet.
-/

namespace Sys2Proof.Machine

/-- A symbol value's count is its multiplicity among the sequence's values. -/
theorem countOf_eq_count (seq : List Sym) (v : Nat) : countOf seq v = (seq.map BitVec.toNat).count v := by
  rw [countOf, List.count, List.countP_map, List.countP_eq_length_filter]
  rfl

/-- The multiplicities over a range that holds every entry of a list sum to the list's length. -/
theorem sum_count_range {l : List Nat} {n : Nat} (h : ∀ v ∈ l, v < n) :
    ((List.range n).map fun v => l.count v).sum = l.length := by
  have hsum : ∑ v ∈ Finset.range n, (l : Multiset Nat).count v = (l : Multiset Nat).card :=
    Multiset.sum_count_eq_card fun v hv => Finset.mem_range.2 (h v hv)
  simp only [Multiset.coe_count, Multiset.coe_card] at hsum
  exact hsum

/-- Settles O58: every symbol's value lies in the range the counts are summed over. -/
theorem countsSumToLength : Obligations.CountsSumToLength := by
  unfold Obligations.CountsSumToLength
  intro seq
  have hlt : ∀ v ∈ seq.map BitVec.toNat, v < Config.nsym := List.forall_mem_map.2 fun c _ => c.isLt
  rw [funext (countOf_eq_count seq), sum_count_range hlt, List.length_map]

end Sys2Proof.Machine
end

section
/-!
Codes as paths: after a GEN without error the entry of a symbol is the path to its leaf, for proper and degenerate trees alike, so
that no code begins another (46_guarantees.md R231); and an ENCODE without error followed by a DECODE restores the sequence (R230).
-/

namespace Sys2Proof.Machine

/-! ## The codes of a GEN without error -/

/-- Leaves are a matter of ROOT, NA and the reset epoch. -/
theorem leafSym_congr {s t : State} (hr : s.root = t.root) (h : s.na = t.na) (he : s.epoch = t.epoch) (p : BitString) :
    leafSym s p = leafSym t p := by
  rw [leafSym_eq_leafFrom, leafSym_eq_leafFrom, hr, leafFrom_congr h he]

/-- The left child of a degenerate root is the one leaf, at the path "0". -/
theorem leafSym_degenerate {s : State} (hk : kindOf (s.node s.root) = .internal) (hd : isDegenerate s = true)
    (p : BitString) (v : Sym) :
    leafSym s p = some v ↔ p = [false] ∧ v = symOf (s.node (leftOf (s.node s.root))) := by
  obtain ⟨hl, hr, hleaf⟩ := (isDegenerate_iff s).1 hd
  rw [leafSym_eq_leafFrom]
  match p with
  | [] => simp [leafFrom_nil, hk]
  | true :: q => simp [leafFrom_cons, childValid_true, hr]
  | [false] => simp [leafFrom_cons, leafFrom_nil, childValid_false, childOf_false, hk, hl, hleaf, eq_comm]
  | false :: b :: q => simp [leafFrom_cons, childOf_false, hleaf]

/-- What CT says of a tree: a symbol on a leaf has the path to it as its entry, which is not empty, and no other symbol has one
(41_code_table_generator.md R147). -/
structure CodesArePaths (s t : State) : Prop where
  entry_of_leaf : ∀ p v, leafSym s p = some v → t.codeElem v = entry p ∧ p ≠ [] ∧ p.length ≤ Config.codeLenMax
  leaf_of_entry : ∀ v, lenOf (t.codeElem v) ≠ 0 → ∃ p, leafSym s p = some v

/-- A GEN without error had a proper tree or the degenerate one, wrote CT alone, and its codes are paths. -/
theorem gen_ok {s t : State} (hs : s.ready) (ht : exec .gen s = .next t) (hok : t.err = false) :
    t = { s.completed 0x00000002 with ct := t.ct } ∧ CodesArePaths s t := by
  by_cases hproper : properTree s
  · obtain ⟨t', ht', honly, hcodes⟩ := genWritesPathsOfProperTree s hs hproper
    obtain rfl := Host.Outcome.next.inj (ht'.symm.trans ht)
    refine ⟨honly, ⟨fun p v hp => ⟨(hcodes v).1 p hp, hproper.path_ne_nil hp, hproper.length_le hp⟩, fun v hv => ?_⟩⟩
    by_contra hnone
    exact hv (by rw [(hcodes v).2 (not_exists.1 hnone)]; exact lenOf_noEntry)
  · by_cases hd : kindOf (s.node s.root) = .internal ∧ isDegenerate s = true
    · obtain ⟨hk, hd⟩ := hd
      obtain ⟨t', ht', honly, hcodes⟩ := gen_degenerate hs hk hd
      obtain rfl := Host.Outcome.next.inj (ht'.symm.trans ht)
      simp only [← entry_false] at hcodes
      refine ⟨honly, ⟨fun p v hp => ?_, fun v hv => ⟨[false], (leafSym_degenerate hk hd _ _).2 ⟨rfl, ?_⟩⟩⟩⟩
      · obtain ⟨rfl, rfl⟩ := (leafSym_degenerate hk hd p v).1 hp
        exact ⟨by rw [hcodes, if_pos rfl], by simp, by decide⟩
      · by_contra hne
        exact hv (by rw [hcodes, if_neg hne]; exact lenOf_noEntry)
    · obtain ⟨t', p, k, ht', honly, -⟩ := genFaultsOnImproperTree s hs hproper fun hk =>
        Bool.eq_false_iff.2 fun h => hd ⟨hk, h⟩
      obtain rfl := Host.Outcome.next.inj (ht'.symm.trans ht)
      rw [honly] at hok
      cases hok

section
variable {s t : State} (h : CodesArePaths s t)
include h

theorem CodesArePaths.codeAt_of_leaf {p : BitString} {v : Sym} (hp : leafSym s p = some v) : codeAt t v = p := by
  obtain ⟨he, -, hlen⟩ := h.entry_of_leaf p v hp
  rw [codeAt, he, codeOf_entry hlen]

theorem CodesArePaths.lenOf_of_leaf {p : BitString} {v : Sym} (hp : leafSym s p = some v) :
    lenOf (t.codeElem v) = p.length := by
  rw [← length_codeOf, ← codeAt, h.codeAt_of_leaf hp]

/-- The code of a symbol that has one leads to its leaf. -/
theorem CodesArePaths.leafSym_codeAt {v : Sym} (hv : lenOf (t.codeElem v) ≠ 0) : leafSym s (codeAt t v) = some v := by
  obtain ⟨p, hp⟩ := h.leaf_of_entry v hv
  rw [h.codeAt_of_leaf hp, hp]

theorem CodesArePaths.codeAt_ne_nil {v : Sym} (hv : lenOf (t.codeElem v) ≠ 0) : codeAt t v ≠ [] :=
  (h.entry_of_leaf _ v (h.leafSym_codeAt hv)).2.1

/-- Symbols that have codes are spelled by them. -/
theorem CodesArePaths.spells {vs : List Sym} (hvs : ∀ v ∈ vs, lenOf (t.codeElem v) ≠ 0) : Spells s (vs.map (codeAt t)) vs := by
  rw [Spells, List.forall₂_map_left_iff, List.forall₂_same]
  exact fun v hv => ⟨h.codeAt_ne_nil (hvs v hv), h.leafSym_codeAt (hvs v hv)⟩

end

/-- Settles O31: codes are paths to leaves, and no path goes on from a leaf. -/
theorem generatedCodesArePrefixFree : Obligations.GeneratedCodesArePrefixFree := by
  unfold Obligations.GeneratedCodesArePrefixFree
  rintro s t hs ht hok v w hne hv hw ⟨q, hq⟩
  have hcodes := (gen_ok hs ht hok).2
  have hpv := hcodes.leafSym_codeAt hv
  have hpw := hcodes.leafSym_codeAt hw
  rw [← hq] at hpw
  rw [eq_nil_of_leafSym_append hpv hpw, List.append_nil, hpv] at hpw
  exact hne (Option.some.inj hpw)

/-! ## An ENCODE without error (42_encoder.md R163, R164, R166) -/

theorem encodeSymbol_ok {i bitpos : Nat} {s : State} {r : Nat × State} (h : encodeSymbol i bitpos s = .ok r) :
    lenOf (s.codeElem (s.symAt i)) ≠ 0 ∧ bitpos + lenOf (s.codeElem (s.symAt i)) ≤ 8 * Config.bsCap ∧
      r = (bitpos + lenOf (s.codeElem (s.symAt i)), putBits bitpos (codeAt s (s.symAt i)) s) := by
  unfold encodeSymbol at h
  dsimp only at h
  split at h
  · cases h
  next hentry =>
    split at h
    · cases h
    next hfit => exact ⟨hentry, Nat.le_of_not_lt hfit, (Except.ok.inj h).symm⟩

/-- A loop that goes on to its end met symbols with entries alone, whose codes fit BS. -/
theorem fits_of_encodeLoop_ok {left i bitpos : Nat} {s : State} {r : Nat × State} (hpos : bitpos ≤ 8 * Config.bsCap)
    (h : encodeLoop left i bitpos s = .ok r) :
    (∀ v ∈ symbolsFrom s i left, lenOf (s.codeElem v) ≠ 0) ∧
      bitpos + (codesOf s (symbolsFrom s i left)).length ≤ 8 * Config.bsCap := by
  induction left generalizing i bitpos s with
  | zero => exact ⟨nofun, hpos⟩
  | succ left ih =>
    rw [encodeLoop, bind_eq_ok] at h
    obtain ⟨a, ha, hrest⟩ := h
    obtain ⟨hentry, hfit, rfl⟩ := encodeSymbol_ok ha
    obtain ⟨ihentry, ihfit⟩ := ih hfit hrest
    simp only [symbolsFrom_putBits, codeElem_putBits, codesOf_putBits] at ihentry ihfit
    have hcons : symbolsFrom s i (left + 1) = s.symAt i :: symbolsFrom s (i + 1) left := by
      rw [symbolsFrom, List.range'_succ, List.map_cons, symbolsFrom]
    rw [hcons, List.forall_mem_cons]
    refine ⟨⟨hentry, ihentry⟩, ?_⟩
    rw [length_codesOf] at ihfit ⊢
    rwa [List.map_cons, List.sum_cons, ← Nat.add_assoc]

theorem encodeSymbol_raises (i bitpos : Nat) (s : State) : (encodeSymbol i bitpos s).Raises := by
  unfold encodeSymbol
  dsimp only
  split
  · exact Run.raises_raise _ _ _
  · split
    · exact Run.raises_raise _ _ _
    · exact Run.raises_ok _

theorem encodeLoop_raises (left i bitpos : Nat) (s : State) : (encodeLoop left i bitpos s).Raises := by
  induction left generalizing i bitpos s with
  | zero => exact Run.raises_ok _
  | succ left ih => exact (encodeSymbol_raises i bitpos s).bind fun r => ih (i + 1) r.1 r.2

/-- An ENCODE without error: the sequence fits SYM, its symbols have codes, and the codes fit BS. -/
theorem fits_of_encode_ok {s t : State} (hs : s.ready) (ht : exec .encode s = .next t) (hok : t.err = false) :
    s.symLen.toNat ≤ Config.symCap ∧ (∀ v ∈ sequence s, lenOf (s.codeElem v) ≠ 0) ∧
      ((sequence s).map fun v => lenOf (s.codeElem v)).sum ≤ 8 * Config.bsCap := by
  rcases Nat.lt_or_ge Config.symCap s.symLen.toNat with hlong | hcap
  · obtain rfl := Host.Outcome.next.inj ((encodeTooLongRaises s hs hlong).symm.trans ht)
    cases hok
  · obtain rfl := Host.Outcome.next.inj ((exec_encode_of_ready hs).symm.trans ht)
    rw [encodeRun_of_fits (s := s.accept 0x00000003) hcap] at hok
    cases hloop : encodeLoop (s.accept 0x00000003).symLen.toNat 0 0 (s.accept 0x00000003) with
    | error u =>
      rw [hloop, map_error, Run.finish_error, encodeLoop_raises _ _ _ _ u hloop] at hok
      cases hok
    | ok r =>
      obtain ⟨hentry, hfit⟩ := fits_of_encodeLoop_ok (Nat.zero_le _) hloop
      rw [Nat.zero_add, length_codesOf] at hfit
      rw [sequence_eq_symbolsFrom]
      exact ⟨hcap, hentry, hfit⟩

/-! ## ENCODE, then DECODE (46_guarantees.md R230) -/

theorem length_sequence (s : State) : (sequence s).length = s.symLen.toNat := by
  rw [sequence, List.length_map, List.length_range]

/-- The sequence is a matter of SYM, SYM_LEN and the reset epoch. -/
theorem sequence_congr {s t : State} (hlen : s.symLen = t.symLen) (h : s.sym = t.sym) (he : s.epoch = t.epoch) :
    sequence s = sequence t := by
  rw [sequence, sequence, hlen, funext (State.symAt_congr h he)]

/-- Settles O53: the stream ENCODE made is the codes of the sequence, which are the paths DECODE follows. -/
theorem encodeDecodeRoundTrip : Obligations.EncodeDecodeRoundTrip := by
  unfold Obligations.EncodeDecodeRoundTrip
  intro s g e sym' len' hs hg hgok he heok
  obtain ⟨hgonly, hcodes⟩ := gen_ok hs hg hgok
  have hgready : g.ready := ⟨by rw [hgonly]; rfl, hgok⟩
  have hseq : sequence g = sequence s := sequence_congr (by rw [hgonly]; rfl) (by rw [hgonly]; rfl) (by rw [hgonly]; rfl)
  have hlen : g.symLen = s.symLen := by rw [hgonly]; rfl
  obtain ⟨hcap, hentry, hfit⟩ := fits_of_encode_ok hgready he heok
  obtain ⟨e', he', heonly, hbits, hstream, -⟩ := encodeConcatenatesCodes g hgready hcap hentry hfit
  obtain rfl := Host.Outcome.next.inj (he'.symm.trans he)
  have hleaf (p : BitString) : leafSym { e' with sym := sym', symLen := len' } p = leafSym s p :=
    leafSym_congr (by rw [heonly, hgonly]; rfl) (by rw [heonly, hgonly]; rfl) (by rw [heonly, hgonly]; rfl) p
  have hspells : Spells { e' with sym := sym', symLen := len' } ((sequence g).map (codeAt g)) (sequence g) := by
    simp only [Spells, hleaf]
    exact hcodes.spells hentry
  obtain ⟨d, hd, hdonly, hsyms, -⟩ := decodeEmitsLeafSymbols { e' with sym := sym', symLen := len' } _ _
    ⟨by rw [heonly]; rfl, heok⟩ (hbits ▸ hfit) hspells (hstream.trans (List.flatMap_def ..))
    (length_sequence g ▸ hcap)
  have hdlen : d.symLen = s.symLen := by
    rw [hdonly, length_sequence, ← hlen]
    exact BitVec.ofNat_toNat ..
  refine ⟨d, hd, by rw [hdonly]; exact heok, by rw [hdonly], hdlen, ?_⟩
  rw [sequence, hdlen, ← hlen, ← length_sequence, hsyms, hseq]

end Sys2Proof.Machine
end

section
/-!
BUILD is a function of FT alone (46_guarantees.md R238): from machines that hold the same FT its pieces do the same. Once phase 0
has written every node, what stood in NA before is not read.
-/

namespace Sys2Proof.Machine

/-- Two machines that BUILD does not tell apart once it has cleared NA: the same FT, the same arena, all of it written, the same
ROOT and NODE_COUNT, the same latched error. -/
structure BuildAlike (s t : State) : Prop where
  ft : ∀ v < Config.nsym, s.ftAt v = t.ftAt v
  na : s.na = t.na
  written : ∀ k < Config.nodeCap, (Memory.get s.na k).isSome
  root : s.root = t.root
  nodeCount : s.nodeCount = t.nodeCount
  err : s.err = t.err
  latch : s.err = true → s.errCode = t.errCode ∧ s.errInfo = t.errInfo

/-- Two forests over such machines, with one queue, of nodes that have been written. -/
structure ForestAlike (f g : Forest) : Prop where
  pq : f.pq = g.pq
  n : f.n = g.n
  st : BuildAlike f.st g.st
  queued : ∀ k ∈ f.pq, (Memory.get f.st.na k).isSome

/-- A written element reads the same in machines with one NA, whatever their reset epochs. -/
theorem naAt_eq_of_written {s t : State} (h : s.na = t.na) {k : Nat} (hk : (Memory.get s.na k).isSome) :
    s.naAt k = t.naAt k := by
  obtain ⟨e, he⟩ := Option.isSome_iff_exists.1 hk
  rw [State.naAt, State.naAt, ← h, he, Option.getD_some, Option.getD_some]

/-- A written element stays written. -/
theorem isSome_get_set {w : Nat} {m : Memory w} {k : Nat} (i : Nat) (v : BitVec w) (hk : (Memory.get m k).isSome) :
    (Memory.get (Memory.set m i v) k).isSome := by
  rw [Memory.get_set]
  split
  · rfl
  · exact hk

/-! ## What writes keep -/

section
variable {s t : State} (h : BuildAlike s t)
include h

theorem BuildAlike.naAt {k : Nat} (hk : k < Config.nodeCap) : s.naAt k = t.naAt k :=
  naAt_eq_of_written h.na (h.written k hk)

theorem BuildAlike.setNa (i : Nat) (v : NodeElem) : BuildAlike (s.setNa i v) (t.setNa i v) :=
  { h with
    na := by rw [State.setNa_na, State.setNa_na, h.na]
    written := fun k hk => isSome_get_set i v (h.written k hk) }

theorem BuildAlike.store (r : NodeIdx) (c : BitVec 10) :
    BuildAlike ((s.setRoot r).setNodeCount c) ((t.setRoot r).setNodeCount c) :=
  { h with root := rfl, nodeCount := rfl }

theorem BuildAlike.complete : BuildAlike s.complete t.complete := { h with }

theorem BuildAlike.raise (e : Err) (info : Word) : BuildAlike (s.raise e info) (t.raise e info) :=
  { h with err := rfl, latch := fun _ => ⟨rfl, rfl⟩ }

end

/-! ## The pieces of BUILD -/

theorem forestAlike_begin {s t : State} (hs : s.ready) (ht : t.ready) (hft : ∀ v < Config.nsym, s.ftAt v = t.ftAt v)
    (w : Word) : ForestAlike (buildBegin (s.accept w)) (buildBegin (t.accept w)) where
  pq := rfl
  n := rfl
  st := {
    ft := hft
    na := rfl
    written := fun k hk => by
      rw [buildBegin, buildClear, Memory.get_fill, if_pos hk, Option.isSome_some]
    root := rfl
    nodeCount := rfl
    err := hs.2.trans ht.2.symm
    latch := fun he => absurd (hs.2.symm.trans he) Bool.false_ne_true }
  queued := nofun

section
variable {f g : Forest} (h : ForestAlike f g)
include h

/-- A node made at `n` and queued behind nodes of the queue. -/
theorem ForestAlike.push {rest : List Nat} (hrest : ∀ k ∈ rest, k ∈ f.pq) (e : NodeElem) :
    ForestAlike { pq := rest ++ [f.n], n := f.n + 1, st := f.st.setNa f.n e }
      { pq := rest ++ [g.n], n := g.n + 1, st := g.st.setNa g.n e } := by
  rw [← h.n]
  refine ⟨rfl, rfl, h.st.setNa f.n e, fun k hk => ?_⟩
  rcases List.mem_append.1 hk with hk | hk
  · exact isSome_get_set _ _ (h.queued k (hrest k hk))
  · obtain rfl := List.mem_singleton.1 hk
    simp

theorem ForestAlike.buildLeaf {v : Nat} (hv : v < Config.nsym) : ForestAlike (buildLeaf v f) (buildLeaf v g) := by
  rw [Machine.buildLeaf, Machine.buildLeaf, ← h.st.ft v hv]
  split
  · exact h
  · rw [← h.pq]
    exact h.push (fun _ hk => hk) _

theorem ForestAlike.buildEdges : Run.Both BuildAlike ForestAlike (buildEdges f) (buildEdges g) := by
  rw [Machine.buildEdges, Machine.buildEdges, ← h.n]
  split
  · exact .error (h.st.raise _ _)
  · split
    · rw [← h.st.naAt (by decide)]
      exact .error ((h.st.setNa _ _).store _ _).complete
    · exact .ok h

end

theorem ForestAlike.buildScan {f g : Forest} (h : ForestAlike f g) {left v : Nat} (hv : v + left ≤ Config.nsym) :
    ForestAlike (buildScan left v f) (buildScan left v g) := by
  induction left generalizing v f g with
  | zero => exact h
  | succ left ih => exact ih (h.buildLeaf (by omega)) (by omega)

/-- `extract_min` reads the nodes of the queue alone. -/
theorem extractMin_congr {s t : State} {pq : List Nat} (h : ∀ k ∈ pq, s.naAt k = t.naAt k) :
    extractMin s pq = extractMin t pq := by
  have hleast (k : Nat) (ks : List Nat) (hks : ∀ j ∈ k :: ks, s.naAt j = t.naAt j) : pqLeast s k ks = pqLeast t k ks := by
    induction ks generalizing k with
    | nil => rfl
    | cons j js ih =>
      obtain ⟨hk, hj, hjs⟩ := by simpa only [List.forall_mem_cons] using hks
      have hbefore : pqBefore s j k = pqBefore t j k := by rw [pqBefore, pqBefore, hk, hj]
      rw [pqLeast, pqLeast, hbefore]
      refine ih _ (List.forall_mem_cons.2 ⟨?_, hjs⟩)
      split
      · exact hj
      · exact hk
  cases pq with
  | nil => rfl
  | cons k ks => rw [extractMin, extractMin, hleast k ks h]

/-- Two equal queues give up the same two nodes, which weigh the same. -/
theorem ForestAlike.buildMerge {f g : Forest} (h : ForestAlike f g) (hq : 1 < f.pq.length) :
    Run.Both BuildAlike ForestAlike (buildMerge f) (buildMerge g) := by
  obtain ⟨a, b, q, rest, ha, hb, hperm⟩ := exists_extractMin_pair f.st hq
  have hnode : ∀ k ∈ f.pq, f.st.naAt k = g.st.naAt k := fun k hk => naAt_eq_of_written h.st.na (h.queued k hk)
  have hsub : ∀ k ∈ q, k ∈ f.pq := fun k hk => (extractMin_sublist f.st f.pq).subset (by rwa [ha])
  have ha' : extractMin g.st g.pq = (a, q) := by rw [← h.pq, ← extractMin_congr hnode, ha]
  have hb' : extractMin g.st q = (b, rest) := by rw [← extractMin_congr fun k hk => hnode k (hsub k hk), hb]
  have hmem : ∀ k ∈ a :: b :: rest, k ∈ f.pq := fun k hk => hperm.mem_iff.1 hk
  obtain ⟨hma, hmb, hrest⟩ := by simpa only [List.forall_mem_cons] using hmem
  rw [buildMerge_eq ha hb, buildMerge_eq ha' hb', ← hnode a hma, ← hnode b hmb]
  split
  · rw [Forest.merge, Forest.merge, ← hnode a hma, ← hnode b hmb]
    exact .ok (h.push hrest _)
  · rw [← h.n]
    exact .error (h.st.raise _ _)

theorem ForestAlike.buildMerges {f g : Forest} (h : ForestAlike f g) (room : Nat) :
    Run.Both BuildAlike ForestAlike (buildMerges room f) (buildMerges room g) := by
  induction room generalizing f g with
  | zero => exact .ok h
  | succ room ih =>
    rw [Machine.buildMerges, Machine.buildMerges, ← h.pq]
    split
    next hq => exact (h.buildMerge hq).bind fun _ _ h' => ih h'
    next => exact .ok h

theorem ForestAlike.buildStore {f g : Forest} (h : ForestAlike f g) : BuildAlike (buildStore f) (buildStore g) := by
  rw [Machine.buildStore, Machine.buildStore, ← h.n]
  exact h.st.store _ _

/-- From the same FT BUILD ends in machines that are alike. -/
theorem build_alike {s t : State} (hs : s.ready) (ht : t.ready) (hft : ∀ v < Config.nsym, s.ftAt v = t.ftAt v) :
    BuildAlike (buildRun (s.accept 0x00000001)).finish (buildRun (t.accept 0x00000001)).finish := by
  rw [buildRun, buildRun, finish_bind, finish_bind]
  have hedges := ((forestAlike_begin hs ht hft 0x00000001).buildScan (left := Config.nsym) (v := 0) (Nat.le_refl _)).buildEdges
  generalize buildEdges _ = r at hedges ⊢
  generalize buildEdges _ = r' at hedges ⊢
  cases hedges with
  | error h => exact h
  | @ok f g h =>
    rw [Run.goOn_ok, Run.goOn_ok, finish_map, finish_map, ← h.pq]
    have hmerges := h.buildMerges f.pq.length
    generalize buildMerges _ f = r at hmerges ⊢
    generalize buildMerges _ g = r' at hmerges ⊢
    cases hmerges with
    | ok h => exact h.buildStore.complete
    | error h => exact h

/-- Settles O24: BUILD's pieces do the same on the same FT, one after the other. -/
theorem buildDependsOnFtAlone : Obligations.BuildDependsOnFtAlone := by
  unfold Obligations.BuildDependsOnFtAlone
  intro s s' t t' hs hs' hft ht ht'
  obtain rfl := Host.Outcome.next.inj ((exec_build_of_ready hs).symm.trans ht)
  obtain rfl := Host.Outcome.next.inj ((exec_build_of_ready hs').symm.trans ht')
  have h := build_alike hs hs' hft
  exact ⟨fun k => h.naAt, h.root, h.nodeCount, h.err, h.latch⟩

end Sys2Proof.Machine
end

section
/-!
The code BUILD and GEN make is optimal (46_guarantees.md R232), so heavier symbols have no longer codes (R239). The merges of phase
3, read from the last to the first, are greedy merging (`Greedy`), and each adds the weight it makes to the sum of weight times depth
over the nodes in PQ: a node taken out stands one edge deeper than the node made of it.
-/

namespace Sys2Proof.Machine

/-! ## Merging is greedy -/

/-- The weight of node `k` as a number. -/
def Forest.weightAt (f : Forest) (k : Nat) : Nat := (weightOf (f.st.naAt k)).toNat

/-- A merge, and why it is greedy: nothing that stays in PQ is lighter than the two taken out (40_tree_builder.md R120, R122). -/
theorem buildMerge_least {f f' : Forest} (hn : f.pq.Nodup) (hq : 1 < f.pq.length) (hm : buildMerge f = .ok f') :
    ∃ a b rest, (a :: b :: rest).Perm f.pq ∧ f.weightAt a + f.weightAt b < 2 ^ 32 ∧ f' = f.merge a b rest ∧
      ∀ j ∈ rest, f.weightAt a ≤ f.weightAt j ∧ f.weightAt b ≤ f.weightAt j := by
  obtain ⟨a, b, q, rest, ha, hb, hp⟩ := exists_extractMin_pair f.st hq
  have hq' : q ≠ [] := by
    have := length_extractMin (s := f.st) (List.ne_nil_of_length_pos (Nat.zero_lt_of_lt hq))
    rw [ha] at this
    exact List.ne_nil_of_length_pos (by dsimp only at this; omega)
  have hsub : (b :: rest).Perm q := by simpa only [hb] using extractMin_perm (s := f.st) hq'
  have hlight {j k : Nat} (h : pqBefore f.st k j = true) : f.weightAt k ≤ f.weightAt j := by
    rcases pqBefore_iff.1 h with h | h
    exacts [h.le, h.1.le]
  obtain ⟨hna, hnb, -⟩ := by simpa only [List.nodup_cons, List.mem_cons, not_or] using hp.nodup_iff.2 hn
  rw [buildMerge_eq ha hb] at hm
  split at hm
  next hw =>
    refine ⟨a, b, rest, hp, hw, (Except.ok.inj hm).symm, fun j hj => ⟨hlight ?_, hlight ?_⟩⟩
    · have := pqBefore_extractMin (s := f.st) (hp.mem_iff.1 (List.mem_cons_of_mem a (List.mem_cons_of_mem b hj)))
        (by rw [ha]; rintro rfl; exact hna.2 hj)
      rwa [ha] at this
    · have := pqBefore_extractMin (s := f.st) (hsub.mem_iff.1 (List.mem_cons_of_mem b hj))
        (by rw [hb]; rintro rfl; exact hnb hj)
      rwa [hb] at this
  next => cases hm

/-- What the merges from the forest `f` to the forest `g` cost, `d` being the depths of the nodes of `g`, none above `m`: the sum of
weight times depth over PQ is what greedy merging of the weights costs, and the depths meet Kraft's inequality with equality. -/
structure Forest.Priced (g : Forest) (d : Nat → Nat) (m : Nat) (f : Forest) : Prop where
  n_le : f.n ≤ g.n
  keeps : ∀ k < f.n, g.st.naAt k = f.st.naAt k
  greedy : Greedy (f.pq.map f.weightAt) (f.pq.map fun k => f.weightAt k * d k).sum
  kraft : (f.pq.map fun k => 2 ^ (m - d k)).sum = 2 ^ m

/-- The end of phase 3: the root alone, at depth 0. -/
theorem priced_root {g : Forest} {d : Nat → Nat} {r : Nat} (hpq : g.pq = [r]) (hr : d r = 0) (m : Nat) :
    g.Priced d m g where
  n_le := Nat.le_refl _
  keeps _ _ := rfl
  greedy := by
    rw [hpq, List.map_singleton, List.map_singleton, List.sum_singleton, hr, Nat.mul_zero]
    exact .one _
  kraft := by rw [hpq, List.map_singleton, List.sum_singleton, hr, Nat.sub_zero]

/-- One merge back from the end: the two taken out are one edge deeper than the node made. -/
theorem priced_merge {f g : Forest} {d : Nat → Nat} {a b m : Nat} {rest : List Nat} (h : g.Priced d m (f.merge a b rest))
    (hp : (a :: b :: rest).Perm f.pq) (hlt : ∀ k ∈ f.pq, k < f.n) (hw : f.weightAt a + f.weightAt b < 2 ^ 32)
    (hleast : ∀ j ∈ rest, f.weightAt a ≤ f.weightAt j ∧ f.weightAt b ≤ f.weightAt j) (ha : d a = d f.n + 1)
    (hb : d b = d f.n + 1) (hm : d f.n < m) : g.Priced d m f := by
  have hn : (f.merge a b rest).n = f.n + 1 := rfl
  have hpq : (f.merge a b rest).pq = rest ++ [f.n] := rfl
  have hnew : (f.merge a b rest).weightAt f.n = f.weightAt a + f.weightAt b := by
    rw [Forest.weightAt, merge_naAt_new, weightOf_intNode, toNat_add_weight hw]
    rfl
  have hold {k : Nat} (hk : k < f.n) : (f.merge a b rest).weightAt k = f.weightAt k := by
    rw [Forest.weightAt, merge_naAt_other hk.ne, Forest.weightAt]
  have hrest : ∀ k ∈ rest, k < f.n := fun k hk => hlt k (hp.mem_iff.1 (List.mem_cons_of_mem a (List.mem_cons_of_mem b hk)))
  have hweights : rest.map (f.merge a b rest).weightAt = rest.map f.weightAt :=
    List.map_congr_left fun k hk => hold (hrest k hk)
  have hcosts : (rest.map fun k => (f.merge a b rest).weightAt k * d k) = rest.map fun k => f.weightAt k * d k :=
    List.map_congr_left fun k hk => by rw [hold (hrest k hk)]
  have hgreedy := h.greedy
  have hkraft := h.kraft
  rw [hpq, List.map_append, List.map_append, List.map_singleton, List.map_singleton, hweights, hcosts, hnew, List.sum_append,
    List.sum_singleton, Multiset.coe_eq_coe.2 List.perm_append_comm, List.singleton_append,
    ← Multiset.cons_coe] at hgreedy
  rw [hpq, List.map_append, List.map_singleton, List.sum_append, List.sum_singleton] at hkraft
  refine ⟨(Nat.le_succ _).trans h.n_le, fun k hk => ?_, ?_, ?_⟩
  · rw [h.keeps k (hk.trans (Nat.lt_succ_self _)), merge_naAt_other hk.ne]
  · have hcost : (f.pq.map fun k => f.weightAt k * d k).sum =
        (rest.map fun k => f.weightAt k * d k).sum + (f.weightAt a + f.weightAt b) * d f.n +
          (f.weightAt a + f.weightAt b) := by
      rw [← (hp.map _).sum_eq, List.map_cons, List.map_cons, List.sum_cons, List.sum_cons, ha, hb]
      ring
    rw [← Multiset.coe_eq_coe.2 (hp.map f.weightAt), hcost]
    exact .merge _ _ _ _ (fun x hx => by
      obtain ⟨j, hj, rfl⟩ := List.mem_map.1 (Multiset.mem_coe.1 hx)
      exact hleast j hj) hgreedy
  · have hhalf : 2 ^ (m - d f.n) = 2 ^ (m - (d f.n + 1)) + 2 ^ (m - (d f.n + 1)) := by
      rw [← Nat.two_mul, ← Nat.pow_succ']
      congr 1
      omega
    rw [← (hp.map _).sum_eq, List.map_cons, List.map_cons, List.sum_cons, List.sum_cons, ha, hb, ← hkraft, hhalf]
    ring

/-- `d` says how deep below the root the nodes of a forest of `N` leaves stand that has one root left. -/
structure Forest.Depths (N : Nat) (g : Forest) (d : Nat → Nat) : Prop where
  root : ∀ k ∈ g.pq, d k = 0
  child : ∀ k j, g.IsParent N k j → d j = d k + 1

/-- All of phase 3, from its last merge to its first. -/
theorem Merged.priced {s : State} {f g : Forest} {d : Nat → Nat} {m room : Nat} (hd : g.Depths (present s).length d)
    (hm : ∀ k < g.n, d k ≤ m) (hf : Merged s f) (hroom : f.pq.length ≤ room + 1) (hg : buildMerges room f = .ok g) :
    g.Priced d m f := by
  have hend (f : Forest) (hf : Merged s f) (hq : f.pq.length ≤ 1) (hfg : f = g) : g.Priced d m f := by
    obtain rfl := hfg
    have hpq := (hf.root hq).2.1
    exact priced_root hpq (hd.root _ (hpq ▸ List.mem_singleton_self _)) m
  induction room generalizing f with
  | zero => exact hend f hf hroom (Except.ok.inj hg)
  | succ room ih =>
    rw [buildMerges] at hg
    split at hg
    next hq =>
      obtain ⟨f', hf', hg⟩ := bind_eq_ok.1 hg
      have hmerged := hf.buildMerge_ok hq hf'
      have hlen := length_buildMerge hq hf'
      obtain ⟨a, b, rest, hp, hw, rfl, hleast⟩ := buildMerge_least hf.nodup hq hf'
      have h := ih hmerged (by omega) hg
      have hlt {k : Nat} (hk : k = a ∨ k = b) : k < f.n := hf.lt_n k (hp.mem_iff.1 (by
        rw [List.mem_cons, List.mem_cons]
        tauto))
      have hcap := hf.n_lt
      have hdeeper {j : Nat} (hj : j = a ∨ j = b) : d j = d f.n + 1 := by
        obtain ⟨h1, h2, h3⟩ := (isParent_merge hf.leaves_le ((hlt (.inl rfl)).trans hcap) ((hlt (.inr rfl)).trans hcap)
          (rest := rest) f.n j).2 (.inr ⟨rfl, hj⟩)
        exact hd.child f.n j ⟨h1, h2.trans_le h.n_le, by rwa [h.keeps _ h2]⟩
      have hda := hdeeper (.inl rfl)
      have hma := hm a ((hlt (.inl rfl)).trans_le ((Nat.le_succ _).trans h.n_le))
      exact priced_merge h hp hf.lt_n hw hleast hda (hdeeper (.inr rfl)) (by omega)
    next hq => exact hend f hf (Nat.le_of_not_lt hq) (Except.ok.inj hg)

/-! ## Depths in the built tree -/

theorem exists_nodeIdx {k : Nat} (hk : k < Config.nodeCap) : ∃ i : NodeIdx, i.toNat = k :=
  ⟨BitVec.ofNat 9 k, Nat.mod_eq_of_lt hk⟩

theorem exists_sym {v : Nat} (hv : v < Config.nsym) : ∃ w : Sym, w.toNat = v := ⟨BitVec.ofNat 8 v, Nat.mod_eq_of_lt hv⟩

theorem lt_of_mem_present {s : State} {v : Nat} (hv : v ∈ present s) : v < Config.nsym :=
  List.mem_range.1 (List.mem_filter.1 hv).1

/-- The length of the path to node `k`. -/
noncomputable def Forest.depth (g : Forest) (k : Nat) : Nat :=
  sInf {n | ∃ p, descend (buildStore g) (buildStore g).root p = some (BitVec.ofNat 9 k) ∧ p.length = n}

section
variable {s : State} {g : Forest} (h : Merged s g) (hq : g.pq.length ≤ 1)
include h hq

theorem Merged.depth_eq {p : BitString} {k : NodeIdx} (hp : descend (buildStore g) (buildStore g).root p = some k) :
    g.depth k.toNat = p.length := by
  have hset : {n | ∃ q, descend (buildStore g) (buildStore g).root q = some (BitVec.ofNat 9 k.toNat) ∧ q.length = n} =
      {p.length} := by
    ext n
    rw [BitVec.ofNat_toNat, BitVec.setWidth_eq]
    refine ⟨?_, fun hn => ⟨p, hp, hn.symm⟩⟩
    rintro ⟨q, hq', rfl⟩
    exact congrArg List.length (h.path_unique hq hq' hp)
  rw [Forest.depth, hset, csInf_singleton]

/-- An index below `n` as a node and its path. -/
theorem Merged.exists_node {k : Nat} (hk : k < g.n) :
    ∃ (i : NodeIdx) (p : BitString), i.toNat = k ∧ descend (buildStore g) (buildStore g).root p = some i := by
  obtain ⟨i, rfl⟩ := exists_nodeIdx (hk.trans h.n_lt)
  obtain ⟨p, hp⟩ := h.exists_path hq i hk
  exact ⟨i, p, rfl, hp⟩

theorem Merged.depths : g.Depths (present s).length g.depth where
  root k hk := by
    obtain ⟨hroot, -, -⟩ := h.toNat_root hq
    rw [(h.root hq).2.1, List.mem_singleton, ← hroot] at hk
    rw [hk, h.depth_eq hq (p := []) rfl, List.length_nil]
  child := by
    rintro k j ⟨hle, hlt, hchild⟩
    obtain ⟨i, p, rfl, hp⟩ := h.exists_node hq hlt
    obtain ⟨hint, hvalid, -⟩ := h.internal_node hle hlt
    have hedge (b : Bool) : g.depth (childOf ((buildStore g).node i) b).toNat = g.depth i.toNat + 1 := by
      rw [h.depth_eq hq hp, h.depth_eq hq (descend_concat_eq_some.2 ⟨i, hp, ⟨hint, hvalid b⟩, rfl⟩), List.length_append,
        List.length_singleton]
    rcases hchild with rfl | rfl
    exacts [hedge false, hedge true]

theorem Merged.depth_le {k : Nat} (hk : k < g.n) : g.depth k ≤ 2 * (present s).length := by
  obtain ⟨i, p, rfl, hp⟩ := h.exists_node hq hk
  have := (h.descend_le hq hp).1
  rw [h.depth_eq hq hp]
  omega

/-- A present symbol is on the leaf of its place, at the depth of its path. -/
theorem Merged.leaf_depth {i : Nat} {v : Sym} (hv : (present s)[i]? = some v.toNat) :
    ∃ p, leafSym (buildStore g) p = some v ∧ g.depth i = p.length := by
  obtain ⟨k, p, rfl, hp⟩ := h.exists_node hq ((List.getElem?_eq_some_iff.1 hv).1.trans_le h.leaves_le)
  exact ⟨p, (h.leafSym_eq_some hq).2 ⟨k, hp, hv⟩, h.depth_eq hq hp⟩

end

/-! ## The code of BUILD and GEN -/

/-- BUILD of two or more symbols that ended without error: the merges and the tree they made. -/
theorem merges_of_build_ok {s : State} (h2 : 2 ≤ (present s).length) (hok : (buildRun s).finish.err = false) :
    ∃ f t, Scanned s Config.nsym f ∧ Merged s f ∧ buildMerges f.pq.length f = .ok t ∧ Merged s t ∧ t.pq.length ≤ 1 ∧
      (buildRun s).finish = (buildStore t).complete := by
  have hscan := scanned s
  rw [buildRun] at hok ⊢
  generalize buildScan Config.nsym 0 (buildBegin s) = f at hscan hok ⊢
  have hn : 2 ≤ f.n := hscan.n ▸ h2
  have hf := hscan.merged (by omega)
  rw [buildEdges_of_two hn, bind_ok, finish_map] at hok ⊢
  cases hm : buildMerges f.pq.length f with
  | error u =>
    obtain ⟨g, -, -, rfl⟩ := buildMerges_error (fun _ _ h hq => h.buildMerge_ok hq) hf hm
    rw [hm] at hok
    cases hok
  | ok t =>
    obtain ⟨ht, hq⟩ := buildMerges_ok (fun _ _ h hq => h.buildMerge_ok hq) hf (Nat.le_succ _) hm
    exact ⟨f, t, hscan, hf, hm, ht, hq, by rw [Run.goOn_ok]⟩

/-- A sum over the leaves, in order, as a sum over the present symbols. -/
theorem map_leaves {α : Type} {s : State} {f : Forest} (hf : Scanned s Config.nsym f) {d : Nat → Nat} {len : Nat → Nat}
    (hd : ∀ i v, (present s)[i]? = some v → d i = len v) (F : Nat → Nat → α) :
    (f.pq.map fun k => F (f.weightAt k) (d k)) = (present s).map fun v => F (s.ftAt v).toNat (len v) := by
  have hn : f.n = (present s).length := hf.n
  refine List.ext_getElem (by rw [List.length_map, List.length_map, hf.pq, List.length_range, hn]) fun i h1 h2 => ?_
  rw [List.length_map] at h2
  have hi : (present s)[i]? = some (present s)[i] := List.getElem?_eq_getElem h2
  simp only [List.getElem_map, hf.pq, List.getElem_range, Forest.weightAt, hf.leaves i _ hi, weightOf_leafNode, hd i _ hi]

/-- Code lengths of the present symbols within Kraft's inequality, none above `m` (46_guarantees.md R232). -/
structure KraftLengths (s : State) (m : Nat) (len : Nat → Nat) : Prop where
  range : ∀ v ∈ present s, 1 ≤ len v ∧ len v ≤ m
  sum : ((present s).map fun v => 2 ^ (m - len v)).sum ≤ 2 ^ m

theorem leafSym_complete (s : State) (p : BitString) : leafSym s.complete p = leafSym s p :=
  leafSym_congr (s := s.complete) (t := s) rfl rfl rfl p

/-- The codes of the tree the merges made: their weighted length is what greedy merging of the counts costs, and their lengths are
within Kraft's inequality. -/
theorem code_of_merges {s g : State} {f t : Forest} (hscan : Scanned s Config.nsym f) (hf : Merged s f)
    (hmerges : buildMerges f.pq.length f = .ok t) (ht : Merged s t) (hq : t.pq.length ≤ 1)
    (hcodes : CodesArePaths (buildStore t).complete g) :
    Greedy ((present s).map fun v => (s.ftAt v).toNat)
        ((present s).map fun v => (s.ftAt v).toNat * lenOf (g.ctAt v)).sum ∧
      KraftLengths s (2 * (present s).length) fun v => lenOf (g.ctAt v) := by
  have hdepth (i v : Nat) (hv : (present s)[i]? = some v) : t.depth i = lenOf (g.ctAt v) ∧ 1 ≤ lenOf (g.ctAt v) := by
    obtain ⟨w, rfl⟩ := exists_sym (lt_of_mem_present (List.mem_of_getElem? hv))
    obtain ⟨p, hp, hi⟩ := ht.leaf_depth hq hv
    rw [← leafSym_complete] at hp
    have hlen := hcodes.lenOf_of_leaf hp
    exact ⟨hi.trans hlen.symm, hlen ▸ List.length_pos_iff.2 (hcodes.entry_of_leaf p w hp).2.1⟩
  have hpriced := Merged.priced (ht.depths hq) (fun k hk => ht.depth_le hq hk) hf (Nat.le_succ _) hmerges
  have hmap {α : Type} (F : Nat → Nat → α) := map_leaves hscan (fun i v hv => (hdepth i v hv).1) F
  refine ⟨?_, fun v hv => ?_, ?_⟩
  · rw [← hmap fun w _ => w, ← hmap fun w l => w * l]
    exact hpriced.greedy
  · obtain ⟨i, hi⟩ := List.mem_iff_getElem?.1 hv
    obtain ⟨heq, hpos⟩ := hdepth i v hi
    exact ⟨hpos, heq ▸ ht.depth_le hq ((List.getElem?_eq_some_iff.1 hi).1.trans_le ht.leaves_le)⟩
  · rw [← hmap fun _ l => 2 ^ (2 * (present s).length - l)]
    exact hpriced.kraft.le

/-- The code after BUILD and GEN: its weighted length is what greedy merging of the counts costs, and its lengths are within Kraft's
inequality. -/
theorem built_code {s b g : State} (hs : s.ready) (h2 : 2 ≤ (present s).length) (hb : exec .build s = .next b)
    (hok : b.err = false) (hg : exec .gen b = .next g) :
    Greedy ((present s).map fun v => (s.ftAt v).toNat)
        ((present s).map fun v => (s.ftAt v).toNat * lenOf (g.ctAt v)).sum ∧
      ∃ m, KraftLengths s m fun v => lenOf (g.ctAt v) := by
  obtain ⟨g', hg', hgok, -⟩ := genAfterBuildSucceeds s b hs hb hok
  obtain rfl := Host.Outcome.next.inj (hg'.symm.trans hg)
  obtain rfl := Host.Outcome.next.inj ((exec_build_of_ready hs).symm.trans hb)
  obtain ⟨f, t, hscan, hf, hmerges, ht, hq, hrun⟩ := merges_of_build_ok (s := s.accept 0x00000001) h2 hok
  rw [hrun] at hok hg
  obtain ⟨hgreedy, hkraft⟩ := code_of_merges hscan hf hmerges ht hq (gen_ok ⟨rfl, hok⟩ hg hgok).2
  exact ⟨hgreedy, _, { hkraft with }⟩

/-- No lengths within Kraft's inequality make the weighted length less. -/
theorem built_code_le {s b g : State} (hs : s.ready) (h2 : 2 ≤ (present s).length) (hb : exec .build s = .next b)
    (hok : b.err = false) (hg : exec .gen b = .next g) {m : Nat} {len : Nat → Nat} (hlen : KraftLengths s m len) :
    ((present s).map fun v => (s.ftAt v).toNat * lenOf (g.ctAt v)).sum ≤
      ((present s).map fun v => (s.ftAt v).toNat * len v).sum := by
  have h := (built_code hs h2 hb hok hg).1.le_weightedLength m ((present s).map fun v => ((s.ftAt v).toNat, len v))
    (by rw [Multiset.map_coe, List.map_map]; rfl)
    ⟨by simpa [List.map_map, Function.comp_def] using hlen.sum, fun l hl => by
      simp only [Multiset.map_coe, List.map_map, Multiset.mem_coe, List.mem_map] at hl
      obtain ⟨v, hv, rfl⟩ := hl
      exact (hlen.range v hv).2⟩
  simpa [weightedLength, List.map_map, Function.comp_def] using h

/-- BUILD of two or more symbols whose counts fit raises nothing. -/
theorem err_of_build_fits {s b : State} (hs : s.ready) (h2 : 2 ≤ (present s).length) (hfit : ftTotal s < 2 ^ 32)
    (hb : exec .build s = .next b) : b.err = false := by
  obtain ⟨t, ht, honly, -⟩ := buildMakesFullTree s _ hs rfl h2 hfit
  obtain rfl := Host.Outcome.next.inj (ht.symm.trans hb)
  rw [honly]
  exact hs.2

/-- Settles O25: the code costs what greedy merging costs, and that is the least. -/
theorem builtCodeIsOptimal : Obligations.BuiltCodeIsOptimal := by
  unfold Obligations.BuiltCodeIsOptimal
  intro s b g len m hs h2 hfit hb hg hlen hkraft
  exact built_code_le hs h2 hb (err_of_build_fits hs h2 hfit hb) hg ⟨hlen, hkraft⟩

/-! ## Heavier symbols (46_guarantees.md R239) -/

theorem nodup_present (s : State) : (present s).Nodup := List.nodup_range.filter _

/-- The lengths `len` with those of `v` and `w` exchanged. -/
def swapLengths (v w : Nat) (len : Nat → Nat) (u : Nat) : Nat := len (Equiv.swap v w u)

/-- A sum over a list without repeats before and after the exchange. -/
theorem sum_map_swapLengths {l : List Nat} {v w : Nat} (hn : l.Nodup) (hv : v ∈ l) (hw : w ∈ l) (hne : v ≠ w)
    (len : Nat → Nat) (F : Nat → Nat → Nat) : ∃ others,
    (l.map fun u => F u (len u)).sum = F v (len v) + (F w (len w) + others) ∧
      (l.map fun u => F u (swapLengths v w len u)).sum = F v (len w) + (F w (len v) + others) := by
  have hp : l.Perm (v :: w :: (l.erase v).erase w) :=
    (List.perm_cons_erase hv).trans ((List.perm_cons_erase ((List.mem_erase_of_ne hne.symm).2 hw)).cons v)
  obtain ⟨⟨-, hv'⟩, hw', -⟩ := by simpa only [List.nodup_cons, List.mem_cons, not_or] using hp.nodup_iff.1 hn
  have hrest : (((l.erase v).erase w).map fun u => F u (swapLengths v w len u)) =
      ((l.erase v).erase w).map fun u => F u (len u) := List.map_congr_left fun u hu => by
    rw [swapLengths, Equiv.swap_apply_of_ne_of_ne (ne_of_mem_of_not_mem hu hv') (ne_of_mem_of_not_mem hu hw')]
  refine ⟨(((l.erase v).erase w).map fun u => F u (len u)).sum, ?_, ?_⟩
  · rw [(hp.map _).sum_eq, List.map_cons, List.map_cons, List.sum_cons, List.sum_cons]
  · rw [(hp.map _).sum_eq, List.map_cons, List.map_cons, List.sum_cons, List.sum_cons, hrest, swapLengths, swapLengths,
      Equiv.swap_apply_left, Equiv.swap_apply_right]

/-- Lengths exchanged stay within Kraft's inequality. -/
theorem KraftLengths.swapLengths {s : State} {m v w : Nat} {len : Nat → Nat} (h : KraftLengths s m len)
    (hv : v ∈ present s) (hw : w ∈ present s) (hne : v ≠ w) : KraftLengths s m (swapLengths v w len) where
  range u hu := by
    rw [Machine.swapLengths, Equiv.swap_apply_def]
    split
    · exact h.range w hw
    · split
      · exact h.range v hv
      · exact h.range u hu
  sum := by
    obtain ⟨others, hbefore, hafter⟩ := sum_map_swapLengths (nodup_present s) hv hw hne len fun _ l => 2 ^ (m - l)
    rw [hafter, Nat.add_left_comm, ← hbefore]
    exact h.sum

/-- Settles O26: were the heavier symbol's code the longer one, exchanging the two lengths would make the code shorter. -/
theorem heavierSymbolsGetNoLongerCodes : Obligations.HeavierSymbolsGetNoLongerCodes := by
  unfold Obligations.HeavierSymbolsGetNoLongerCodes
  intro s b g v w hs hb hok hg hw hvw
  have hne : v.toNat ≠ w.toNat := fun h => by rw [h] at hvw; exact Nat.lt_irrefl _ hvw
  have hv : s.ftAt v.toNat ≠ 0 := fun h => by rw [h] at hvw; exact Nat.not_lt_zero _ hvw
  rw [← mem_present] at hv hw
  have h2 : 2 ≤ (present s).length := (List.subperm_of_subset (l₁ := [v.toNat, w.toNat]) (by simpa using hne)
    (by simp [hv, hw])).length_le
  obtain ⟨-, m, hkraft⟩ := built_code hs h2 hb hok hg
  have hle := built_code_le hs h2 hb hok hg (hkraft.swapLengths hv hw hne)
  obtain ⟨others, hbefore, hafter⟩ := sum_map_swapLengths (nodup_present s) hv hw hne
    (fun u => lenOf (g.ctAt u)) fun u l => (s.ftAt u).toNat * l
  rw [hbefore, hafter] at hle
  by_contra hlong
  have hlong : lenOf (g.ctAt w.toNat) < lenOf (g.ctAt v.toNat) := Nat.lt_of_not_le hlong
  nlinarith

end Sys2Proof.Machine
end

section
/-!
Sessions of BUILD, GEN, ENCODE and DECODE with FT holding the counts of the sequence (46_guarantees.md R230, R233, R237).
-/

namespace Sys2Proof.Machine

/-! ## What BUILD leaves -/

/-- A BUILD without error had one present symbol, or two or more (40_tree_builder.md R127). -/
theorem present_of_build_ok {s b : State} (hs : s.ready) (hb : exec .build s = .next b) (hok : b.err = false) :
    (∃ v : Sym, present s = [v.toNat]) ∨ 2 ≤ (present s).length := by
  rcases hp : present s with _ | ⟨v, _ | ⟨w, rest⟩⟩
  · obtain rfl := Host.Outcome.next.inj ((exec_build_of_ready hs).symm.trans hb)
    obtain ⟨t, ht⟩ := buildRun_of_none (s := s.accept 0x00000001) hp
    rw [ht] at hok
    cases hok
  · obtain ⟨w, rfl⟩ := exists_sym (lt_of_mem_present (hp ▸ List.mem_singleton_self v))
    exact .inl ⟨w, rfl⟩
  · exact .inr (Nat.le_add_left 2 rest.length)

/-- BUILD of the one symbol `v` (40_tree_builder.md R125). -/
theorem build_of_one {s b : State} {v : Sym} (hs : s.ready) (hp : present s = [v.toNat]) (hb : exec .build s = .next b) :
    b = { s.completed 0x00000001 with na := b.na, root := 1, nodeCount := 2 } ∧
      b.node 0 = leafNode v (s.ftAt v.toNat) ∧ b.node 1 = wrapperNode (s.ftAt v.toNat) := by
  have hiff (w : Sym) : s.ftAt w.toNat ≠ 0 ↔ w.toNat = v.toNat := by rw [← mem_present, hp, List.mem_singleton]
  obtain ⟨t, ht, honly, hleaf, hwrap, -⟩ := buildSingleSymbolWraps s v.toNat hs v.isLt ((hiff v).2 rfl) fun w hw hne => by
    obtain ⟨w, rfl⟩ := exists_sym hw
    exact not_not.1 (mt (hiff w).1 hne)
  obtain rfl := Host.Outcome.next.inj (ht.symm.trans hb)
  rw [BitVec.ofNat_toNat, BitVec.setWidth_eq] at hleaf
  exact ⟨honly, hleaf, hwrap⟩

/-- The tree of one symbol is the degenerate one. -/
theorem degenerate_of_build_one {s b : State} {v : Sym} (hs : s.ready) (hp : present s = [v.toNat])
    (hb : exec .build s = .next b) :
    b.ready ∧ kindOf (b.node b.root) = .internal ∧ isDegenerate b = true ∧
      symOf (b.node (leftOf (b.node b.root))) = v := by
  obtain ⟨honly, hleaf, hwrap⟩ := build_of_one hs hp hb
  have hroot : b.root = 1 := by rw [honly]
  rw [isDegenerate_iff, hroot, hwrap, leftOf_wrapperNode, hleaf]
  exact ⟨⟨by rw [honly]; rfl, by rw [honly]; exact hs.2⟩, kindOf_wrapperNode _,
    ⟨lvOf_wrapperNode _, rvOf_wrapperNode _, kindOf_leafNode _ _⟩, symOf_leafNode _ _⟩

/-- After a BUILD without error the block accepts commands. -/
theorem ready_of_build_ok {s b : State} (hs : s.ready) (hb : exec .build s = .next b) (hok : b.err = false) : b.ready := by
  rcases present_of_build_ok hs hb hok with ⟨v, hp⟩ | h2
  · exact (degenerate_of_build_one hs hp hb).1
  · obtain rfl := Host.Outcome.next.inj ((exec_build_of_ready hs).symm.trans hb)
    obtain ⟨f, t, -, -, -, -, -, hrun⟩ := merges_of_build_ok (s := s.accept 0x00000001) h2 hok
    exact ⟨by rw [hrun]; rfl, hok⟩

/-- BUILD of a table that is not empty and whose counts fit raises nothing. -/
theorem err_of_build {s b : State} (hs : s.ready) (h1 : 1 ≤ ftTotal s) (hfit : ftTotal s < 2 ^ 32)
    (hb : exec .build s = .next b) : b.err = false := by
  rcases hp : present s with _ | ⟨v, _ | ⟨w, rest⟩⟩
  · rw [← sum_present, hp] at h1
    cases h1
  · obtain ⟨w, rfl⟩ := exists_sym (lt_of_mem_present (hp ▸ List.mem_singleton_self v))
    obtain ⟨⟨-, hok⟩, -⟩ := degenerate_of_build_one hs hp hb
    exact hok
  · exact err_of_build_fits hs (hp ▸ Nat.le_add_left 2 rest.length) hfit hb

/-! ## The weighted code length (46_guarantees.md R237) -/

theorem sum_map_filter_of_zero {l : List Nat} {p : Nat → Bool} {F : Nat → Nat} (h : ∀ v ∈ l, p v = false → F v = 0) :
    ((l.filter p).map F).sum = (l.map F).sum := by
  induction l with
  | nil => rfl
  | cons v l ih =>
    rw [List.forall_mem_cons] at h
    rw [List.map_cons, List.sum_cons, ← ih h.2]
    cases hv : p v with
    | true => rw [List.filter_cons_of_pos hv, List.map_cons, List.sum_cons]
    | false => rw [List.filter_cons_of_neg (by simp [hv]), h.1 hv, Nat.zero_add]

/-- Absent symbols add nothing to a sum weighted by the counts. -/
theorem sum_present_mul (s : State) (F : Nat → Nat) :
    ((present s).map fun v => (s.ftAt v).toNat * F v).sum =
      ((List.range Config.nsym).map fun v => (s.ftAt v).toNat * F v).sum :=
  sum_map_filter_of_zero fun v _ hv => by
    rw [not_not.1 (of_decide_eq_false hv)]
    exact Nat.zero_mul _

/-- A sum over a list, by the multiplicities of its entries. -/
theorem sum_map_eq_sum_count {l : List Nat} {n : Nat} (h : ∀ v ∈ l, v < n) (F : Nat → Nat) :
    (l.map F).sum = ((List.range n).map fun v => l.count v * F v).sum := by
  have hsum : (l.map F).sum = ∑ v ∈ Finset.range n, l.count v • F v := by
    rw [Finset.sum_list_map_count]
    refine Finset.sum_subset (fun v hv => Finset.mem_range.2 (h v (List.mem_toFinset.1 hv))) fun v _ hv => ?_
    rw [List.count_eq_zero.2 (fun hl => hv (List.mem_toFinset.2 hl)), zero_smul]
  exact hsum

/-- No code of BUILD and GEN weighs more than eight bits a symbol: of two symbols or more the codes of eight bits would be a code
too, and the code of one symbol has one bit. -/
theorem weighted_le_symW {s b g : State} (hs : s.ready) (hb : exec .build s = .next b) (hok : b.err = false)
    (hg : exec .gen b = .next g) :
    ((List.range Config.nsym).map fun v => (s.ftAt v).toNat * lenOf (g.ctAt v)).sum ≤ Config.symW * ftTotal s := by
  have height : ((present s).map fun v => (s.ftAt v).toNat * Config.symW).sum = Config.symW * ftTotal s := by
    rw [List.sum_map_mul_right, sum_present, Nat.mul_comm]
  rw [← sum_present_mul, ← height]
  rcases present_of_build_ok hs hb hok with ⟨v, hp⟩ | h2
  · obtain ⟨hready, hk, hd, hsym⟩ := degenerate_of_build_one hs hp hb
    obtain ⟨g', hg', -, hcodes⟩ := gen_degenerate hready hk hd
    obtain rfl := Host.Outcome.next.inj (hg'.symm.trans hg)
    have hlen : lenOf (g'.ctAt v.toNat) = 1 := by
      rw [← State.codeElem, hcodes, if_pos hsym.symm, ← entry_false, lenOf_entry (by decide), List.length_singleton]
    rw [hp, List.map_singleton, List.map_singleton, List.sum_singleton, List.sum_singleton, hlen]
    exact Nat.mul_le_mul_left _ (by decide)
  · refine built_code_le hs h2 hb hok hg (m := Config.symW) ⟨fun v _ => ⟨by decide, Nat.le_refl _⟩, ?_⟩
    rw [List.map_const', List.sum_replicate, Nat.sub_self, smul_eq_mul, Nat.pow_zero, Nat.mul_one]
    exact length_present_le s

/-! ## FT holds the counts of the sequence -/

theorem sequence_exec {i : Instr} {s t : State} (hi : i ≠ .decode) (h : exec i s = .next t) :
    sequence t = sequence s ∧ t.symLen = s.symLen := by
  obtain ⟨-, -, -, hsym, -, -, -, hepoch, -⟩ := commandsWriteOnlyTheirOutputs i s t h
  obtain ⟨hsym, hlen, -⟩ := hsym hi
  exact ⟨sequence_congr hlen hsym hepoch, hlen⟩

section
variable {s : State} (hcounts : ∀ v < Config.nsym, (s.ftAt v).toNat = countOf (sequence s) v)
include hcounts

/-- The counts sum to the sequence's length (45_environment_contracts.md R210). -/
theorem ftTotal_of_counts : ftTotal s = s.symLen.toNat := by
  rw [← length_sequence, ← countsSumToLength (sequence s), ftTotal]
  exact congrArg List.sum (List.map_congr_left fun v hv => hcounts v (List.mem_range.1 hv))

/-- A symbol of the sequence is present. -/
theorem ftAt_ne_zero_of_mem {v : Sym} (hv : v ∈ sequence s) : s.ftAt v.toNat ≠ 0 := by
  have hpos : 0 < countOf (sequence s) v.toNat := by
    rw [countOf_eq_count]
    exact List.count_pos_iff.2 (List.mem_map_of_mem hv)
  rw [← hcounts _ v.isLt] at hpos
  intro h0
  rw [h0] at hpos
  cases hpos

/-- Code lengths summed over the sequence, and weighted by the counts. -/
theorem sum_lengths_of_counts (g : State) :
    ((sequence s).map fun v => lenOf (g.codeElem v)).sum =
      ((List.range Config.nsym).map fun v => (s.ftAt v).toNat * lenOf (g.ctAt v)).sum := by
  have hmap : ((sequence s).map fun v => lenOf (g.codeElem v)) =
      ((sequence s).map BitVec.toNat).map fun v => lenOf (g.ctAt v) := by
    rw [List.map_map]
    rfl
  have hlt : ∀ v ∈ (sequence s).map BitVec.toNat, v < Config.nsym := List.forall_mem_map.2 fun c _ => c.isLt
  rw [hmap, sum_map_eq_sum_count hlt]
  refine congrArg List.sum (List.map_congr_left fun v hv => ?_)
  rw [hcounts v (List.mem_range.1 hv), countOf_eq_count]

variable {b g : State} (hs : s.ready) (hpos : 1 ≤ s.symLen.toNat) (hcap : s.symLen.toNat ≤ Config.symCap)
  (hb : exec .build s = .next b) (hg : exec .gen b = .next g)
include hs hpos hcap hb

theorem err_of_build_counts : b.err = false := by
  have htotal := ftTotal_of_counts hcounts
  refine err_of_build hs (htotal ▸ hpos) ?_ hb
  rw [htotal]
  exact Nat.lt_of_le_of_lt hcap (by decide)

include hg

/-- After BUILD and GEN the sequence can be encoded. -/
theorem encodable_of_counts :
    g.ready ∧ sequence g = sequence s ∧ g.symLen = s.symLen ∧ (∀ v ∈ sequence s, lenOf (g.codeElem v) ≠ 0) ∧
      ((sequence s).map fun v => lenOf (g.codeElem v)).sum ≤ Config.symW * s.symLen.toNat := by
  have hok := err_of_build_counts hcounts hs hpos hcap hb
  obtain ⟨g', hg', hgok, hentry⟩ := genAfterBuildSucceeds s b hs hb hok
  obtain rfl := Host.Outcome.next.inj (hg'.symm.trans hg)
  obtain ⟨hseqb, hlenb⟩ := sequence_exec (by decide) hb
  obtain ⟨hseqg, hleng⟩ := sequence_exec (by decide) hg
  have honly := (gen_ok (ready_of_build_ok hs hb hok) hg hgok).1
  refine ⟨⟨by rw [honly]; rfl, hgok⟩, hseqg.trans hseqb, hleng.trans hlenb,
    fun v hv => (hentry v).2 (ftAt_ne_zero_of_mem hcounts hv), ?_⟩
  rw [sum_lengths_of_counts hcounts, ← ftTotal_of_counts hcounts]
  exact weighted_le_symW hs hb hok hg

/-- ENCODE then ends without error, in the state of R169. -/
theorem encode_of_counts :
    ∃ e, exec .encode g = .next e ∧ e.err = false ∧
      e.bitLen.toNat = ((sequence s).map fun v => lenOf (g.codeElem v)).sum ∧ stream e = codesOf g (sequence s) ∧
      ∀ j, e.bitLen.toNat ≤ j → j < 8 * ((e.bitLen.toNat + 7) / 8) → e.getBit j = false := by
  obtain ⟨hready, hseq, hlen, hentry, hle⟩ := encodable_of_counts hcounts hs hpos hcap hb hg
  rw [← hseq] at hentry hle ⊢
  rw [← hlen] at hle hcap
  obtain ⟨e, he, honly, hbits, hstream, hpadding, -⟩ :=
    encodeConcatenatesCodes g hready hcap hentry (hle.trans (Nat.mul_le_mul_left _ hcap))
  exact ⟨e, he, by rw [honly]; exact hready.2, hbits, hstream, hpadding⟩

end

/-- Settles O55: the sum of the code lengths over the sequence is their sum weighted by the counts. -/
theorem streamLengthIsWeightedSum : Obligations.StreamLengthIsWeightedSum := by
  unfold Obligations.StreamLengthIsWeightedSum
  intro s b g hs hpos hcap hcounts hb hg
  obtain ⟨-, -, -, -, hle⟩ := encodable_of_counts hcounts hs hpos hcap hb hg
  obtain ⟨e, he, hok, hbits, -⟩ := encode_of_counts hcounts hs hpos hcap hb hg
  exact ⟨e, he, hok, hbits.trans (sum_lengths_of_counts hcounts g), hbits ▸ hle⟩

/-- Settles O54: BUILD, GEN and ENCODE succeed, and DECODE restores what ENCODE took. -/
theorem buildToDecodeRoundTrip : Obligations.BuildToDecodeRoundTrip := by
  unfold Obligations.BuildToDecodeRoundTrip
  intro s sym' len' hs hpos hcap hcounts
  obtain ⟨b, hb⟩ : ∃ b, exec .build s = .next b := ⟨_, exec_build_of_ready hs⟩
  have hbok := err_of_build_counts hcounts hs hpos hcap hb
  obtain ⟨g, hg, hgok, -⟩ := genAfterBuildSucceeds s b hs hb hbok
  obtain ⟨e, he, heok, -⟩ := encode_of_counts hcounts hs hpos hcap hb hg
  obtain ⟨d, hd, hdok, hroot, hlen, hseq⟩ :=
    encodeDecodeRoundTrip b g e sym' len' (ready_of_build_ok hs hb hbok) hg hgok he heok
  obtain ⟨hseqb, hlenb⟩ := sequence_exec (by decide) hb
  exact ⟨b, g, e, d, hb, hg, he, hd, hbok, hgok, heok, hdok, hseq.trans hseqb, hlen.trans hlenb, hroot⟩

/-! ## One repeated symbol (46_guarantees.md R233) -/

/-- A byte is zero if its eight bits of the stream are. -/
theorem bsAt_eq_zero {s : State} {q : Nat} (h : ∀ j, j / 8 = q → s.getBit j = false) : s.bsAt q = 0 := by
  refine BitVec.eq_of_getLsbD_eq fun i hi => ?_
  have hbit := h (8 * q + (7 - i)) (by omega)
  rw [State.getBit, show (8 * q + (7 - i)) / 8 = q by omega, show 7 - (8 * q + (7 - i)) % 8 = i by omega] at hbit
  exact hbit.trans BitVec.getLsbD_zero.symm

/-- Settles O56: the tree is the degenerate one, so every symbol is one bit 0. -/
theorem singleSymbolSession : Obligations.SingleSymbolSession := by
  unfold Obligations.SingleSymbolSession
  intro s v n hs hpos hcap hseq hft
  have hlen : s.symLen.toNat = n := by rw [← length_sequence, hseq, List.length_replicate]
  have hcounts : ∀ u < Config.nsym, (s.ftAt u).toNat = countOf (sequence s) u := fun u hu => by
    rw [hft u hu, hseq, countOf_eq_count, List.map_replicate, List.count_replicate]
    simp only [beq_iff_eq, eq_comm (a := u)]
  have hp : present s = [v.toNat] := present_eq_singleton v.isLt
    (ftAt_ne_zero_of_mem hcounts (hseq ▸ List.mem_replicate.2 ⟨by omega, rfl⟩)) fun w hw hne => by
      rw [← BitVec.toNat_inj, hft w hw, if_neg hne]
      rfl
  rw [← hlen] at hpos hcap
  obtain ⟨b, hb⟩ : ∃ b, exec .build s = .next b := ⟨_, exec_build_of_ready hs⟩
  obtain ⟨hready, hk, hd, hsym⟩ := degenerate_of_build_one hs hp hb
  obtain ⟨g, hg, honly, hcodes⟩ := gen_degenerate hready hk hd
  rw [hsym] at hcodes
  have hv : g.codeElem v = entry [false] := by rw [hcodes, if_pos rfl, entry_false]
  obtain ⟨e, he, heok, hbits, hstream, hpadding⟩ := encode_of_counts hcounts hs hpos hcap hb hg
  have hgok : g.err = false := by rw [honly]; exact hready.2
  obtain ⟨d, hd, hdok, -, -, hseqd⟩ := encodeDecodeRoundTrip b g e e.sym e.symLen hready hg hgok he heok
  have hbitLen : e.bitLen.toNat = n := by
    rw [hbits, hseq, List.map_replicate, hv, lenOf_entry (by decide), List.sum_replicate, smul_eq_mul,
      List.length_singleton, Nat.mul_one]
  have hzeros : stream e = List.replicate n false := by
    rw [hstream, hseq, codesOf, List.flatMap_replicate, codeAt, hv, codeOf_entry (by decide),
      List.flatten_replicate_singleton]
  refine ⟨b, g, e, d, hb, hg, he, hd, by rw [(build_of_one hs hp hb).1], hcodes, hbitLen, fun q hq => ?_, hdok,
    hseqd.trans (sequence_exec (by decide) hb).1⟩
  refine bsAt_eq_zero fun j hj => ?_
  rcases Nat.lt_or_ge j n with hlt | hge
  · have hbit := bitsAt_of_stream_eq hzeros j (by rwa [List.length_replicate])
    rwa [Nat.zero_add, List.getD_replicate _ hlt] at hbit
  · exact hpadding j (hbitLen ▸ hge) (by rw [hbitLen]; omega)

end Sys2Proof.Machine
end

section
/-!
REBUILD (45_environment_contracts.md R218) of the codes of a tree all of whose branches end in leaves: it does not fail, and makes
the same tree again, node numbers apart (46_guarantees.md R236). The arena under construction is charted: `ps` lists the paths of its
nodes in the order in which they were made. Each path is one of the given tree, so the arena is never full.
-/

namespace Sys2Proof.Machine

/-! ## Nodes of the arena -/

/-- `NA[i]` of the arena written. -/
def Arena.put (a : Arena) (i : Nat) (e : NodeElem) : Arena := { a with na := Memory.set a.na i e }

theorem Arena.at_put (a : Arena) (i : Nat) (e : NodeElem) (k : Nat) : (a.put i e).at k = if k = i then e else a.at k := by
  rw [Arena.at, Arena.put, Memory.get_set]
  split
  · rfl
  · rfl

/-- The arena with an empty node made at `n` and linked below node `cur` on the side of bit `c`. -/
def Arena.grow (a : Arena) (cur : Nat) (c : Bool) : Arena :=
  { (a.put a.n emptyInt).put cur (linkChild (a.at cur) c a.n) with n := a.n + 1 }

theorem Arena.at_grow (a : Arena) (cur : Nat) (c : Bool) (k : Nat) :
    (a.grow cur c).at k =
      if k = cur then linkChild (a.at cur) c a.n else if k = a.n then emptyInt else a.at k := by
  rw [← Arena.at_put a, ← Arena.at_put]
  rfl

theorem childIdx_eq_childOf (e : NodeElem) (b : Bool) : childIdx e b = (childOf e b).toNat := by cases b <;> rfl

@[simp] theorem hasChild_emptyInt (b : Bool) : hasChild emptyInt b = false := by
  cases b <;> simp [hasChild, emptyInt, lvOf_nodeElem, rvOf_nodeElem]

@[simp] theorem kindOf_emptyInt : kindOf emptyInt = .internal := by simp [emptyInt, kindOf, kindBits_nodeElem]

@[simp] theorem hasChild_leafNode (v : Sym) (w : Weight) (b : Bool) : hasChild (leafNode v w) b = false := by
  cases b <;> simp [hasChild, leafNode, lvOf_nodeElem, rvOf_nodeElem]

@[simp] theorem kindOf_linkChild (e : NodeElem) (c : Bool) (n : Nat) : kindOf (linkChild e c n) = .internal := by
  cases c <;> simp [linkChild, kindOf, kindBits_nodeElem]

theorem hasChild_linkChild (e : NodeElem) (c : Bool) (n : Nat) (b : Bool) :
    hasChild (linkChild e c n) b = if b = c then true else hasChild e b := by
  cases c <;> cases b <;> simp [linkChild, hasChild, bit, lvOf_nodeElem, rvOf_nodeElem]

theorem childIdx_linkChild (e : NodeElem) (c : Bool) {n : Nat} (hn : n < Config.nodeCap) (b : Bool) :
    childIdx (linkChild e c n) b = if b = c then n else childIdx e b := by
  have h : n % 512 = n := Nat.mod_eq_of_lt hn
  cases c <;> cases b <;> simp [linkChild, childIdx, leftOf_nodeElem, rightOf_nodeElem, h]

/-! ## Trees all of whose branches end in leaves -/

/-- The tree under ROOT is finite and fits an arena with an entry to spare, no node is at the end of two paths, and every path goes
on to a leaf. -/
structure LeafyTree (b : State) : Prop where
  bounded : ∀ p k, descend b b.root p = some k → k.toNat + 1 < Config.nodeCap
  unique : ∀ p q k, descend b b.root p = some k → descend b b.root q = some k → p = q
  toLeaf : ∀ p k, descend b b.root p = some k → ∃ q v, leafSym b (p ++ q) = some v

/-- A path to a leaf goes through a node for each of its starts. -/
theorem exists_descend_of_leafSym {b : State} {p q : BitString} {v : Sym} (h : leafSym b (p ++ q) = some v) :
    ∃ k, descend b b.root p = some k := by
  obtain ⟨k, hk, -⟩ := leafSym_eq_some.1 h
  rw [descend_append, Option.bind_eq_some_iff] at hk
  obtain ⟨m, hm, -⟩ := hk
  exact ⟨m, hm⟩

section
variable {b : State} (hb : LeafyTree b)
include hb

/-- No path goes on from a leaf. -/
theorem LeafyTree.eq_nil_of_leaf {p q : BitString} {v : Sym} {k : NodeIdx} (hp : leafSym b p = some v)
    (hq : descend b b.root (p ++ q) = some k) : q = [] := by
  obtain ⟨r, w, hr⟩ := hb.toLeaf _ k hq
  rw [List.append_assoc] at hr
  exact (List.append_eq_nil_iff.1 (eq_nil_of_leafSym_append hp hr)).1

/-- A node at the end of a path is a LEAF or INTERNAL. -/
theorem LeafyTree.kind {p : BitString} {k : NodeIdx} (hp : descend b b.root p = some k) :
    kindOf (b.node k) = .internal ∨ leafSym b p = some (symOf (b.node k)) := by
  obtain ⟨q, v, hq⟩ := hb.toLeaf p k hp
  cases q with
  | nil =>
    rw [List.append_nil] at hq
    obtain ⟨m, hm, hleaf, -⟩ := leafSym_eq_some.1 hq
    obtain rfl := Option.some.inj (hm.symm.trans hp)
    exact .inr (leafSym_eq_some.2 ⟨m, hm, hleaf, rfl⟩)
  | cons c q =>
    obtain ⟨m, hm, -⟩ := leafSym_eq_some.1 hq
    rw [descend_append, hp, Option.bind_some, descend_cons] at hm
    split at hm
    next h => exact .inl h.1
    next => cases hm

end

/-! ## Charts -/

/-- The arena `a`, charted: node `k` is at the end of the path `ps[k]`, a path of the tree of `b`; a child is there exactly if its
path is charted; leaves are leaves of `b`, and those of the symbols below `v` are made. -/
structure Charted (b : State) (v : Nat) (a : Arena) (ps : List BitString) : Prop where
  length : ps.length = a.n
  nodup : ps.Nodup
  root : ps[0]? = some []
  written : ∀ k < Config.nodeCap, (Memory.get a.na k).isSome
  child : ∀ k p c, ps[k]? = some p → hasChild (a.at k) c = true → ps[childIdx (a.at k) c]? = some (p ++ [c])
  hasChild : ∀ k p c, ps[k]? = some p → p ++ [c] ∈ ps → hasChild (a.at k) c = true
  closed : ∀ p c, p ++ [c] ∈ ps → p ∈ ps
  within : ∀ p ∈ ps, ∃ k, descend b b.root p = some k
  kind : ∀ k p, ps[k]? = some p → kindOf (a.at k) = .internal ∨
    (kindOf (a.at k) = .leaf ∧ leafSym b p = some (symOf (a.at k)) ∧ (symOf (a.at k)).toNat < v)
  made : ∀ (u : Sym) p, u.toNat < v → leafSym b p = some u → ∃ k, ps[k]? = some p ∧ kindOf (a.at k) = .leaf

theorem getElem?_concat_eq_some {α : Type} {l : List α} {x y : α} {k : Nat} :
    (l ++ [x])[k]? = some y ↔ l[k]? = some y ∨ (k = l.length ∧ x = y) := by
  rcases Nat.lt_trichotomy k l.length with hlt | rfl | hgt
  · simp [List.getElem?_append_left hlt, hlt.ne]
  · simp
  · simp [List.getElem?_append_right hgt.le, hgt.ne', hgt.le, Nat.sub_ne_zero_of_lt hgt]

theorem emptyArena_eq : emptyArena = Arena.put { na := Memory.fill Config.nodeCap freeNode, n := 1 } 0 emptyInt := by
  rw [emptyArena, Arena.put]

/-- The arena with which REBUILD begins: the root alone. -/
theorem charted_emptyArena (b : State) : Charted b 0 emptyArena [[]] := by
  have hnode {k : Nat} {p : BitString} (hk : [([] : BitString)][k]? = some p) : p = [] ∧ emptyArena.at k = emptyInt := by
    obtain ⟨rfl, rfl⟩ : k = 0 ∧ [] = p := by simpa [List.getElem?_singleton] using hk
    rw [emptyArena_eq, Arena.at_put, if_pos rfl]
    exact ⟨rfl, rfl⟩
  exact {
    length := by
      rw [emptyArena]
      rfl
    nodup := List.nodup_singleton _
    root := rfl
    written := fun k hk => by
      rw [emptyArena]
      dsimp only
      refine isSome_get_set 0 emptyInt ?_
      rw [Memory.get_fill, if_pos hk, Option.isSome_some]
    child := fun k p c hk hc => by
      rw [(hnode hk).2, hasChild_emptyInt] at hc
      cases hc
    hasChild := fun k p c _ hp => by simp at hp
    closed := fun p c hp => by simp at hp
    within := fun p hp => ⟨b.root, by rw [List.mem_singleton.1 hp, descend_nil]⟩
    kind := fun k p hk => by
      rw [(hnode hk).2]
      exact .inl kindOf_emptyInt
    made := fun u p hu => absurd hu (Nat.not_lt_zero _) }

section
variable {b : State} {v : Nat} {a : Arena} {ps : List BitString} (h : Charted b v a ps)
include h

theorem Charted.index_lt {k : Nat} {p : BitString} (hk : ps[k]? = some p) : k < a.n :=
  h.length ▸ (List.getElem?_eq_some_iff.1 hk).1

theorem Charted.index_unique {i k : Nat} {p : BitString} (hi : ps[i]? = some p) (hk : ps[k]? = some p) : i = k :=
  (List.getElem?_inj (List.getElem?_eq_some_iff.1 hi).1 h.nodup).1 (hi.trans hk.symm)

/-- The arena has no more nodes than the tree, so there is an entry to spare. -/
theorem Charted.n_lt (hb : LeafyTree b) : a.n < Config.nodeCap := by
  have hinj : (ps.map fun p => ((descend b b.root p).getD 0).toNat).Nodup :=
    h.nodup.map_on fun p hp q hq heq => by
      obtain ⟨k, hk⟩ := h.within p hp
      obtain ⟨m, hm⟩ := h.within q hq
      rw [hk, hm, Option.getD_some, Option.getD_some, BitVec.toNat_inj] at heq
      exact hb.unique p q m (heq ▸ hk) hm
  have hsub : (ps.map fun p => ((descend b b.root p).getD 0).toNat) ⊆ List.range 511 := fun i hi => by
    obtain ⟨p, hp, rfl⟩ := List.mem_map.1 hi
    obtain ⟨k, hk⟩ := h.within p hp
    have := hb.bounded p k hk
    rw [hk, Option.getD_some, List.mem_range]
    exact Nat.lt_of_succ_lt_succ this
  have hlen := (List.subperm_of_subset hinj hsub).length_le
  rw [List.length_map, List.length_range, h.length] at hlen
  exact Nat.lt_succ_of_le hlen

/-- The node where the path of `v` goes on, or ends, is not a leaf: an earlier symbol's leaf is on no path of `v`. -/
theorem Charted.not_leaf {cur : Nat} {pre p : BitString} {w : Sym} (hcur : ps[cur]? = some pre)
    (hw : leafSym b (pre ++ p) = some w) (hv : v ≤ w.toNat) : kindOf (a.at cur) = .internal := by
  rcases h.kind cur pre hcur with hint | ⟨-, hleaf, hlt⟩
  · exact hint
  · have hnil := eq_nil_of_leafSym_append hleaf hw
    rw [hnil, List.append_nil, hleaf] at hw
    rw [Option.some.inj hw] at hlt
    omega

/-- Making a child that is not there keeps the chart, with the child's path added. -/
theorem Charted.grow (hb : LeafyTree b) {cur : Nat} {pre : BitString} {c : Bool} (hcur : ps[cur]? = some pre)
    (hint : kindOf (a.at cur) = .internal) (hno : Machine.hasChild (a.at cur) c = false)
    (hpath : ∃ k, descend b b.root (pre ++ [c]) = some k) : Charted b v (a.grow cur c) (ps ++ [pre ++ [c]]) := by
  have hnew : pre ++ [c] ∉ ps := fun hmem => by
    rw [h.hasChild cur pre c hcur hmem] at hno
    cases hno
  have hlt := h.index_lt hcur
  have hold {k : Nat} (hk : k ≠ cur) (hk' : k ≠ a.n) : (a.grow cur c).at k = a.at k := by
    rw [Arena.at_grow, if_neg hk, if_neg hk']
  have hatnew : (a.grow cur c).at a.n = emptyInt := by rw [Arena.at_grow, if_neg hlt.ne', if_pos rfl]
  have hatcur : (a.grow cur c).at cur = linkChild (a.at cur) c a.n := by rw [Arena.at_grow, if_pos rfl]
  have hkeep {k : Nat} {p : BitString} (hk : ps[k]? = some p) : (ps ++ [pre ++ [c]])[k]? = some p :=
    getElem?_concat_eq_some.2 (.inl hk)
  have hcases {k : Nat} {p : BitString} (hk : (ps ++ [pre ++ [c]])[k]? = some p) :
      (k = cur ∧ p = pre) ∨ (ps[k]? = some p ∧ (a.grow cur c).at k = a.at k) ∨ (k = a.n ∧ p = pre ++ [c]) := by
    rcases getElem?_concat_eq_some.1 hk with hk | ⟨hk, hp⟩
    · by_cases hkc : k = cur
      · exact .inl ⟨hkc, Option.some.inj (hk.symm.trans (hkc ▸ hcur))⟩
      · exact .inr (.inl ⟨hk, hold hkc (h.index_lt hk).ne⟩)
    · exact .inr (.inr ⟨hk.trans h.length, hp.symm⟩)
  exact {
    length := by rw [List.length_append, h.length, List.length_singleton, Arena.grow]
    nodup := h.nodup.append (List.nodup_singleton _) (List.disjoint_singleton.2 hnew)
    root := hkeep h.root
    written := fun k hk => isSome_get_set _ _ (isSome_get_set _ _ (h.written k hk))
    child := fun k p d hk hd => by
      rcases hcases hk with ⟨rfl, rfl⟩ | ⟨hk, heq⟩ | ⟨rfl, rfl⟩
      · rw [hatcur] at hd ⊢
        rw [hasChild_linkChild] at hd
        rw [childIdx_linkChild _ _ (h.n_lt hb)]
        split at hd
        next hdc => exact getElem?_concat_eq_some.2 (.inr ⟨by rw [if_pos hdc, h.length], by rw [hdc]⟩)
        next hdc => rw [if_neg hdc, hkeep (h.child k p d hcur hd)]
      · rw [heq] at hd ⊢
        exact hkeep (h.child k p d hk hd)
      · rw [hatnew, hasChild_emptyInt] at hd
        cases hd
    hasChild := fun k p d hk hd => by
      rcases List.mem_append.1 hd with hmem | hmem
      · rcases hcases hk with ⟨rfl, rfl⟩ | ⟨hk, heq⟩ | ⟨rfl, rfl⟩
        · rw [hatcur, hasChild_linkChild, h.hasChild k p d hcur hmem, ite_self]
        · rw [heq]
          exact h.hasChild k p d hk hmem
        · exact absurd (h.closed _ _ hmem) hnew
      · obtain ⟨rfl, hdc⟩ := List.append_inj' (List.mem_singleton.1 hmem) rfl
        obtain rfl : k = cur := by
          rcases getElem?_concat_eq_some.1 hk with hk | ⟨-, hp⟩
          · exact h.index_unique hk hcur
          · exact absurd (congrArg List.length hp) (by simp)
        rw [hatcur, hasChild_linkChild, if_pos (List.singleton_inj.1 hdc)]
    closed := fun p d hp => by
      rcases List.mem_append.1 hp with hp | hp
      · exact List.mem_append_left _ (h.closed p d hp)
      · obtain ⟨rfl, -⟩ := List.append_inj' (List.mem_singleton.1 hp) rfl
        exact List.mem_append_left _ (List.mem_of_getElem? hcur)
    within := fun p hp => by
      rcases List.mem_append.1 hp with hp | hp
      · exact h.within p hp
      · rw [List.mem_singleton.1 hp]
        exact hpath
    kind := fun k p hk => by
      rcases hcases hk with ⟨rfl, rfl⟩ | ⟨hk, heq⟩ | ⟨rfl, rfl⟩
      · rw [hatcur]
        exact .inl (kindOf_linkChild _ _ _)
      · rw [heq]
        exact h.kind k p hk
      · rw [hatnew]
        exact .inl kindOf_emptyInt
    made := fun u p hu hp => by
      obtain ⟨k, hk, hleaf⟩ := h.made u p hu hp
      have hkc : k ≠ cur := fun hkc => by
        rw [hkc, hint] at hleaf
        cases hleaf
      exact ⟨k, hkeep hk, by rwa [hold hkc (h.index_lt hk).ne]⟩ }

/-- Making the leaf of symbol `v` at the end of its path keeps the chart, `v` made. -/
theorem Charted.putLeaf (hb : LeafyTree b) (honce : ∀ p q u, leafSym b p = some u → leafSym b q = some u → p = q)
    {cur : Nat} {pre : BitString} {w : Sym} (hw : w.toNat = v) (hcur : ps[cur]? = some pre)
    (hint : kindOf (a.at cur) = .internal) (hleaf : leafSym b pre = some w) :
    Charted b (v + 1) (a.put cur (leafNode w 0)) ps := by
  have hnone (d : Bool) : pre ++ [d] ∉ ps := fun hmem => by
    obtain ⟨k, hk⟩ := h.within _ hmem
    cases hb.eq_nil_of_leaf hleaf hk
  have hatcur : (a.put cur (leafNode w 0)).at cur = leafNode w 0 := by rw [Arena.at_put, if_pos rfl]
  have hcases {k : Nat} {p : BitString} (hk : ps[k]? = some p) :
      (k = cur ∧ p = pre) ∨ (k ≠ cur ∧ (a.put cur (leafNode w 0)).at k = a.at k) := by
    by_cases hkc : k = cur
    · exact .inl ⟨hkc, Option.some.inj (hk.symm.trans (hkc ▸ hcur))⟩
    · exact .inr ⟨hkc, by rw [Arena.at_put, if_neg hkc]⟩
  exact {
    length := h.length
    nodup := h.nodup
    root := h.root
    written := fun k hk => isSome_get_set _ _ (h.written k hk)
    child := fun k p d hk hd => by
      rcases hcases hk with ⟨rfl, rfl⟩ | ⟨-, heq⟩
      · rw [hatcur, hasChild_leafNode] at hd
        cases hd
      · rw [heq] at hd ⊢
        exact h.child k p d hk hd
    hasChild := fun k p d hk hd => by
      rcases hcases hk with ⟨rfl, rfl⟩ | ⟨-, heq⟩
      · exact absurd hd (hnone d)
      · rw [heq]
        exact h.hasChild k p d hk hd
    closed := h.closed
    within := h.within
    kind := fun k p hk => by
      rcases hcases hk with ⟨rfl, rfl⟩ | ⟨-, heq⟩
      · rw [hatcur, symOf_leafNode]
        exact .inr ⟨kindOf_leafNode _ _, hleaf, hw ▸ Nat.lt_succ_self _⟩
      · rw [heq]
        exact (h.kind k p hk).imp_right fun ⟨hk, hs, hlt⟩ => ⟨hk, hs, hlt.trans (Nat.lt_succ_self v)⟩
    made := fun u p hu hp => by
      rcases Nat.lt_succ_iff_lt_or_eq.1 hu with hu | hu
      · obtain ⟨k, hk, hkind⟩ := h.made u p hu hp
        rcases hcases hk with ⟨rfl, -⟩ | ⟨-, heq⟩
        · rw [hint] at hkind
          cases hkind
        · exact ⟨k, hk, heq ▸ hkind⟩
      · obtain rfl : u = w := BitVec.eq_of_toNat_eq (hu.trans hw.symm)
        obtain rfl := honce p pre u hp hleaf
        exact ⟨cur, hcur, by rw [hatcur, kindOf_leafNode]⟩ }

/-- A symbol with no leaf has nothing to be made. -/
theorem Charted.skip (hnone : ∀ (u : Sym) p, u.toNat = v → leafSym b p ≠ some u) : Charted b (v + 1) a ps :=
  { h with
    kind := fun k p hk => (h.kind k p hk).imp_right fun ⟨hk, hs, hlt⟩ => ⟨hk, hs, hlt.trans (Nat.lt_succ_self v)⟩
    made := fun u p hu hp => by
      rcases Nat.lt_succ_iff_lt_or_eq.1 hu with hu | hu
      · exact h.made u p hu hp
      · exact absurd hp (hnone u p hu) }

end

/-! ## REBUILD -/

/-- The path of a symbol is inserted from any of its nodes on. -/
theorem insertPath_ok {b : State} (hb : LeafyTree b)
    (honce : ∀ p q u, leafSym b p = some u → leafSym b q = some u → p = q) {w : Sym} (p : BitString) {pre : BitString}
    {cur : Nat} {a : Arena} {ps : List BitString} (h : Charted b w.toNat a ps) (hcur : ps[cur]? = some pre)
    (hw : leafSym b (pre ++ p) = some w) :
    ∃ a' ps', insertPath w.toNat p cur a = .ok a' ∧ Charted b (w.toNat + 1) a' ps' := by
  induction p generalizing pre cur a ps with
  | nil =>
    have hint := h.not_leaf hcur hw (Nat.le_refl _)
    rw [List.append_nil] at hw
    have hno (d : Bool) : hasChild (a.at cur) d = false := by
      rw [Bool.eq_false_iff]
      intro hd
      obtain ⟨k, hk⟩ := h.within _ (List.mem_of_getElem? (h.child cur pre d hcur hd))
      cases hb.eq_nil_of_leaf hw hk
    have hl : lvOf (a.at cur) = false := hno false
    have hr : rvOf (a.at cur) = false := hno true
    refine ⟨_, ps, ?_, h.putLeaf hb honce rfl hcur hint hw⟩
    rw [insertPath, hint, if_neg (by decide), hl, hr, Bool.or_false, if_neg Bool.false_ne_true, BitVec.ofNat_toNat,
      BitVec.setWidth_eq, Arena.put]
  | cons c rest ih =>
    have hint := h.not_leaf hcur hw (Nat.le_refl _)
    rw [List.append_cons] at hw
    rw [insertPath, hint, if_neg (by decide)]
    by_cases hchild : hasChild (a.at cur) c = true
    · rw [if_pos hchild]
      exact ih h (h.child cur pre c hcur hchild) hw
    · have hgrow := h.grow hb hcur hint (Bool.eq_false_iff.2 hchild) (exists_descend_of_leafSym hw)
      rw [if_neg hchild, if_neg (h.n_lt hb).ne]
      exact ih hgrow (getElem?_concat_eq_some.2 (.inr ⟨h.length.symm, rfl⟩)) hw

/-- REBUILD goes through the symbols without failing. -/
theorem rebuildFrom_ok {b g : State} (hb : LeafyTree b) (hcodes : CodesArePaths b g) (left : Nat) {v : Nat} {a : Arena}
    {ps : List BitString} (hv : v + left = Config.nsym) (h : Charted b v a ps) :
    ∃ a' ps', rebuildFrom g.ctAt left v a = .ok a' ∧ Charted b Config.nsym a' ps' := by
  have honce (p q : BitString) (u : Sym) (hp : leafSym b p = some u) (hq : leafSym b q = some u) : p = q :=
    (hcodes.codeAt_of_leaf hp).symm.trans (hcodes.codeAt_of_leaf hq)
  induction left generalizing v a ps with
  | zero =>
    obtain rfl : v = Config.nsym := hv
    exact ⟨a, ps, rfl, h⟩
  | succ left ih =>
    have hlt : v < Config.nsym := by omega
    have hv' : v + 1 + left = Config.nsym := by omega
    obtain ⟨w, rfl⟩ := exists_sym hlt
    rw [rebuildFrom]
    split
    next hno =>
      refine ih hv' (h.skip fun u p hu hp => ?_)
      obtain rfl := BitVec.eq_of_toNat_eq hu
      have hlen := hcodes.lenOf_of_leaf hp
      rw [State.codeElem, hno] at hlen
      exact (hcodes.entry_of_leaf p u hp).2.1 (List.length_eq_zero_iff.1 hlen.symm)
    next hentry =>
      obtain ⟨a', ps', hinsert, h'⟩ := insertPath_ok hb honce (codeAt g w) h h.root (hcodes.leafSym_codeAt hentry)
      obtain ⟨a'', ps'', hrest, h''⟩ := ih hv' h'
      refine ⟨a'', ps'', ?_, h''⟩
      change (insertPath w.toNat (codeAt g w) 0 a).bind _ = _
      rw [hinsert]
      exact hrest

/-- REBUILD of the codes of a tree makes an arena charted by the tree's paths. -/
theorem rebuild_ok {b g : State} (hb : LeafyTree b) (hcodes : CodesArePaths b g) :
    ∃ a ps, rebuild g.ctAt = .ok a.na ∧ Charted b Config.nsym a ps := by
  obtain ⟨a, ps, hrun, h⟩ := rebuildFrom_ok hb hcodes Config.nsym (Nat.zero_add _) (charted_emptyArena b)
  refine ⟨a, ps, ?_, h⟩
  rw [rebuild, hrun]
  rfl

end Sys2Proof.Machine
end

section
/-!
DECODE with a rebuilt tree (46_guarantees.md R236). Two trees are twins if they have the same paths and, at the end of each, the same
kind of node and the same symbol; DECODE from twins does the same, node numbers apart. The tree REBUILD makes of BUILD and GEN's codes
is a twin of the built one.
-/

namespace Sys2Proof.Machine

/-! ## Twin trees -/

/-- The trees of `s` and `t` are the same, node numbers apart. -/
structure TwinTrees (s t : State) : Prop where
  paths : ∀ p, (∃ k, descend s s.root p = some k) ↔ ∃ i, descend t t.root p = some i
  kind : ∀ p k i, descend s s.root p = some k → descend t t.root p = some i → kindOf (s.node k) = kindOf (t.node i)
  sym : ∀ p k i, descend s s.root p = some k → descend t t.root p = some i → kindOf (s.node k) = .leaf →
    symOf (s.node k) = symOf (t.node i)

/-- A path can be made one edge longer exactly where its last node is INTERNAL with that child. -/
theorem exists_descend_concat {s : State} {p : BitString} {k : NodeIdx} (hk : descend s s.root p = some k) (b : Bool) :
    (∃ m, descend s s.root (p ++ [b]) = some m) ↔ kindOf (s.node k) = .internal ∧ childValid (s.node k) b = true := by
  simp only [descend_append, hk, Option.bind_some, descend_cons, descend_nil]
  split
  next h => exact iff_of_true ⟨_, rfl⟩ h
  next h => exact iff_of_false (by simp) h

/-- The same child is there on both sides. -/
theorem TwinTrees.childValid {s t : State} (h : TwinTrees s t) {p : BitString} {k i : NodeIdx}
    (hk : descend s s.root p = some k) (hi : descend t t.root p = some i) (hint : kindOf (s.node k) = .internal) (b : Bool) :
    childValid (s.node k) b = childValid (t.node i) b := by
  have hiff := h.paths (p ++ [b])
  rw [exists_descend_concat hk, exists_descend_concat hi, ← h.kind p k i hk hi] at hiff
  rw [Bool.eq_iff_iff]
  exact ⟨fun hv => (hiff.1 ⟨hint, hv⟩).2, fun hv => (hiff.2 ⟨hint, hv⟩).2⟩

/-! ## DECODE from twin trees -/

/-- Two cursors at the end of one path in the trees of `s` and `t`, in machines that are the same but for the tree, which is `na`
in the second. -/
structure CursorTwin (s t : State) (na : Memory 62) (c d : Cursor) : Prop where
  path : ∃ p, descend s s.root p = some c.cur ∧ descend t t.root p = some d.cur
  m : d.m = c.m
  st : d.st = c.st.loadTree na
  left : c.st.node = s.node ∧ c.st.root = s.root
  right : d.st.node = t.node ∧ d.st.root = t.root

/-- Pieces of DECODE that both go on, at twin cursors, or have both ended, the machines the same but for the tree. -/
abbrev Run.Twins (s t : State) (na : Memory 62) : Run Cursor → Run Cursor → Prop :=
  Run.Both (fun u u' => u' = u.loadTree na) (CursorTwin s t na)

section
variable {s t : State} {na : Memory 62} (h : TwinTrees s t)
include h

/-- Arriving at the end of one path. -/
theorem CursorTwin.decodeArrive {c d : Cursor} (hc : CursorTwin s t na c d) (j : Nat) {p : BitString} {k i : NodeIdx}
    (hk : descend s s.root p = some k) (hi : descend t t.root p = some i) :
    Run.Twins s t na (decodeArrive j k c) (decodeArrive j i d) := by
  obtain ⟨-, hm, hst, hleft, hright⟩ := hc
  have hkind := h.kind p k i hk hi
  rw [Machine.decodeArrive, Machine.decodeArrive, hleft.1, hright.1, ← hkind, hm]
  cases hcase : kindOf (s.node k) with
  | free => exact .error (by rw [hst]; rfl)
  | leaf =>
    rw [← h.sym p k i hk hi hcase]
    dsimp only
    split
    · exact .error (by rw [hst]; rfl)
    · exact .ok ⟨⟨[], by rw [descend_nil, hleft.2], by rw [descend_nil, hright.2]⟩, rfl, by rw [hst]; rfl, hleft, hright⟩
  | internal => exact .ok ⟨⟨p, hk, hi⟩, rfl, by rw [hst]; rfl, hleft, hright⟩

/-- One bit leads along the same edge. -/
theorem CursorTwin.decodeBit {c d : Cursor} (hc : CursorTwin s t na c d) (j : Nat) :
    Run.Twins s t na (decodeBit j c) (decodeBit j d) := by
  obtain ⟨p, hk, hi⟩ := hc.path
  have hbit : d.st.getBit j = c.st.getBit j := by rw [hc.st]; rfl
  have hcorrupt : corruptAt d.st j = (corruptAt c.st j).loadTree na := by rw [hc.st]; rfl
  rw [Machine.decodeBit, Machine.decodeBit, hc.left.1, hc.right.1, ← h.kind p _ _ hk hi, hbit]
  split
  next hint =>
    have hvalid := h.childValid hk hi hint (c.st.getBit j)
    rw [← hvalid]
    split
    next hv =>
      exact hc.decodeArrive h j (descend_concat_eq_some.2 ⟨_, hk, ⟨hint, hv⟩, rfl⟩)
        (descend_concat_eq_some.2 ⟨_, hi, ⟨h.kind p _ _ hk hi ▸ hint, hvalid ▸ hv⟩, rfl⟩)
    next => exact .error hcorrupt
  next => exact .error hcorrupt

theorem CursorTwin.decodeLoop {c d : Cursor} (hc : CursorTwin s t na c d) (left j : Nat) :
    Run.Twins s t na (decodeLoop left j c) (decodeLoop left j d) := by
  induction left generalizing j c d with
  | zero => exact .ok hc
  | succ left ih => exact (hc.decodeBit h j).bind fun _ _ hc' => ih hc' (j + 1)

end

theorem CursorTwin.finish_decodeEnd {s t : State} {na : Memory 62} {c d : Cursor} (hc : CursorTwin s t na c d) :
    (decodeEnd d).finish = (decodeEnd c).finish.loadTree na := by
  have hdec : d.st.decState = c.st.decState := by rw [hc.st]; rfl
  rw [decodeEnd, decodeEnd, hdec, hc.m, hc.st]
  split <;> rfl

/-- DECODE with the twin tree `na` ends as with the tree itself, but for the tree. -/
theorem decode_loadTree {s : State} {na : Memory 62} (hs : s.ready) (h : TwinTrees s (s.loadTree na)) :
    ∃ d, exec .decode s = .next d ∧ exec .decode (s.loadTree na) = .next (d.loadTree na) := by
  refine ⟨_, exec_decode_of_ready hs, (exec_decode_of_ready (s := s.loadTree na) hs).trans (congrArg _ ?_)⟩
  rcases Nat.lt_or_ge (8 * Config.bsCap) s.bitLen.toNat with hlong | hfit
  · rw [decodeRun_of_tooLong (s := s.accept 0x00000004) hlong,
      decodeRun_of_tooLong (s := (s.loadTree na).accept 0x00000004) hlong]
    rfl
  · rw [decodeRun_of_fits (s := s.accept 0x00000004) hfit,
      decodeRun_of_fits (s := (s.loadTree na).accept 0x00000004) hfit, finish_bind, finish_bind]
    have hstart : CursorTwin s (s.loadTree na) na (cursorAfter (s.accept 0x00000004) [])
        (cursorAfter ((s.loadTree na).accept 0x00000004) []) :=
      ⟨⟨[], rfl, rfl⟩, rfl, rfl, ⟨rfl, rfl⟩, ⟨rfl, rfl⟩⟩
    have hloop := hstart.decodeLoop h s.bitLen.toNat 0
    change Run.goOn (decodeLoop s.bitLen.toNat 0 _) _ = (Run.goOn (decodeLoop s.bitLen.toNat 0 _) _).loadTree na
    generalize decodeLoop s.bitLen.toNat 0 (cursorAfter (s.accept 0x00000004) []) = r at hloop ⊢
    generalize decodeLoop s.bitLen.toNat 0 (cursorAfter ((s.loadTree na).accept 0x00000004) []) = r' at hloop ⊢
    cases hloop with
    | ok hc => exact hc.finish_decodeEnd
    | error hend => exact hend

/-! ## The rebuilt tree -/

section
variable {b s : State} {a : Arena} {ps : List BitString} (hb : LeafyTree b) (h : Charted b Config.nsym a ps)
include h

theorem Charted.node_loadTree (s : State) (k : NodeIdx) : (s.loadTree a.na).node k = a.at k.toNat := by
  obtain ⟨e, he⟩ := Option.isSome_iff_exists.1 (h.written k.toNat k.isLt)
  rw [State.node, State.naAt, Arena.at, State.loadTree, he, Option.getD_some, Option.getD_some]

include hb

/-- In the loaded arena the charted paths lead to the nodes charted with them. -/
theorem Charted.descend_loadTree {p : BitString} {k : NodeIdx} :
    descend (s.loadTree a.na) (s.loadTree a.na).root p = some k ↔ ps[k.toNat]? = some p := by
  induction p using List.reverseRecOn generalizing k with
  | nil =>
    rw [descend_nil, Option.some.injEq]
    exact ⟨fun hk => hk ▸ h.root, fun hk => BitVec.eq_of_toNat_eq (h.index_unique h.root hk)⟩
  | append_singleton p c ih =>
    rw [descend_concat_eq_some]
    constructor
    · rintro ⟨m, hm, ⟨-, hvalid⟩, rfl⟩
      rw [h.node_loadTree] at hvalid ⊢
      rw [← childIdx_eq_childOf]
      exact h.child _ p c (ih.1 hm) hvalid
    · intro hk
      have hmem := List.mem_of_getElem? hk
      obtain ⟨i, hi⟩ := List.mem_iff_getElem?.1 (h.closed p c hmem)
      obtain ⟨m, rfl⟩ := exists_nodeIdx ((h.index_lt hi).trans (h.n_lt hb))
      have hchild := h.hasChild _ p c hi hmem
      refine ⟨m, ih.2 hi, ⟨?_, ?_⟩, ?_⟩
      · rw [h.node_loadTree]
        rcases h.kind _ p hi with hint | ⟨-, hleaf, -⟩
        · exact hint
        · obtain ⟨n, hn⟩ := h.within _ hmem
          cases hb.eq_nil_of_leaf hleaf hn
      · rw [h.node_loadTree]
        exact hchild
      · rw [h.node_loadTree]
        refine BitVec.eq_of_toNat_eq ?_
        rw [← childIdx_eq_childOf]
        exact h.index_unique (h.child _ p c hi hchild) hk

/-- Every start of a path to a leaf is charted. -/
theorem Charted.mem_of_descend {p : BitString} {k : NodeIdx} (hk : descend b b.root p = some k) : p ∈ ps := by
  obtain ⟨q, v, hv⟩ := hb.toLeaf p k hk
  obtain ⟨i, hi, -⟩ := h.made v _ v.isLt hv
  have hmem := List.mem_of_getElem? hi
  clear hi hv
  induction q using List.reverseRecOn with
  | nil => rwa [List.append_nil] at hmem
  | append_singleton q c ih =>
    rw [← List.append_assoc] at hmem
    exact ih (h.closed _ c hmem)

/-- At the end of a path stands the same node as in the tree. -/
theorem Charted.same_node {p : BitString} {k : NodeIdx} {i : Nat} (hk : descend b b.root p = some k) (hi : ps[i]? = some p) :
    kindOf (b.node k) = kindOf (a.at i) ∧ (kindOf (b.node k) = .leaf → symOf (b.node k) = symOf (a.at i)) := by
  rcases hb.kind hk with hint | hleaf
  · refine ⟨?_, fun hl => by rw [hint] at hl; cases hl⟩
    rcases h.kind i p hi with hint' | ⟨-, hleaf, -⟩
    · rw [hint, hint']
    · obtain ⟨m, hm, hkind, -⟩ := leafSym_eq_some.1 hleaf
      obtain rfl := Option.some.inj (hm.symm.trans hk)
      rw [hint] at hkind
      cases hkind
  · obtain ⟨j, hj, hkind'⟩ := h.made _ p (symOf (b.node k)).isLt hleaf
    obtain rfl := h.index_unique hj hi
    obtain ⟨m, hm, hkind, -⟩ := leafSym_eq_some.1 hleaf
    obtain rfl := Option.some.inj (hm.symm.trans hk)
    rcases h.kind j p hi with hint | ⟨-, hsym, -⟩
    · rw [hint] at hkind'
      cases hkind'
    · exact ⟨hkind.trans hkind'.symm, fun _ => Option.some.inj (hleaf.symm.trans hsym)⟩

/-- The charted arena, loaded, is a twin of the tree. -/
theorem Charted.twinTrees (hr : s.root = b.root) (hna : s.na = b.na) (he : s.epoch = b.epoch) :
    TwinTrees s (s.loadTree a.na) := by
  have hpath (p : BitString) : descend s s.root p = descend b b.root p := by rw [hr, descend_congr hna he]
  have hnode (k : NodeIdx) : s.node k = b.node k := State.node_congr hna he k
  refine ⟨fun p => ?_, fun p k i hk hi => ?_, fun p k i hk hi hleaf => ?_⟩
  · simp only [hpath, h.descend_loadTree hb]
    constructor
    · rintro ⟨k, hk⟩
      obtain ⟨i, hi⟩ := List.mem_iff_getElem?.1 (h.mem_of_descend hb hk)
      obtain ⟨m, rfl⟩ := exists_nodeIdx ((h.index_lt hi).trans (h.n_lt hb))
      exact ⟨m, hi⟩
    · rintro ⟨i, hi⟩
      exact h.within p (List.mem_of_getElem? hi)
  · rw [hnode, h.node_loadTree]
    exact (h.same_node hb (hpath p ▸ hk) ((h.descend_loadTree hb).1 hi)).1
  · rw [hnode] at hleaf ⊢
    rw [h.node_loadTree]
    exact (h.same_node hb (hpath p ▸ hk) ((h.descend_loadTree hb).1 hi)).2 hleaf

end

/-! ## The trees of BUILD -/

/-- The paths of a degenerate tree: to its root, and to the leaf left of it. -/
theorem descend_degenerate {s : State} (hd : isDegenerate s = true) {p : BitString} {k : NodeIdx}
    (hp : descend s s.root p = some k) : (p = [] ∧ k = s.root) ∨ (p = [false] ∧ k = leftOf (s.node s.root)) := by
  obtain ⟨-, hr, hleaf⟩ := (isDegenerate_iff s).1 hd
  match p with
  | [] => exact .inl ⟨rfl, (Option.some.inj hp).symm⟩
  | true :: q => simp [descend_cons, childValid_true, hr] at hp
  | [false] =>
    obtain ⟨-, hk⟩ := Option.ite_none_right_eq_some.1 hp
    exact .inr ⟨rfl, (Option.some.inj hk).symm⟩
  | false :: c :: q => simp [descend_cons, childOf_false, hleaf] at hp

/-- The degenerate tree: its one leaf and the root above it. -/
theorem leafyTree_of_degenerate {s : State} (hk : kindOf (s.node s.root) = .internal) (hd : isDegenerate s = true)
    (hroot : s.root.toNat + 1 < Config.nodeCap) (hleft : (leftOf (s.node s.root)).toNat + 1 < Config.nodeCap) :
    LeafyTree s := by
  have hne : leftOf (s.node s.root) ≠ s.root := fun heq => by
    have hleaf := ((isDegenerate_iff s).1 hd).2.2
    rw [heq, hk] at hleaf
    cases hleaf
  have hcode := (leafSym_degenerate hk hd [false] _).2 ⟨rfl, rfl⟩
  refine ⟨fun p k hp => ?_, fun p q k hp hq => ?_, fun p k hp => ?_⟩
  · rcases descend_degenerate hd hp with ⟨-, rfl⟩ | ⟨-, rfl⟩
    exacts [hroot, hleft]
  · rcases descend_degenerate hd hp with ⟨rfl, rfl⟩ | ⟨rfl, rfl⟩ <;>
      rcases descend_degenerate hd hq with ⟨rfl, h⟩ | ⟨rfl, h⟩
    · rfl
    · exact absurd h.symm hne
    · exact absurd h hne
    · rfl
  · rcases descend_degenerate hd hp with ⟨rfl, -⟩ | ⟨rfl, -⟩
    exacts [⟨[false], _, hcode⟩, ⟨[], _, hcode⟩]

/-- The tree of two symbols or more. -/
theorem Merged.leafyTree {s : State} {g : Forest} (h : Merged s g) (hq : g.pq.length ≤ 1) (h2 : 2 ≤ (present s).length) :
    LeafyTree (buildStore g) := by
  have hcap : (present s).length ≤ 256 := length_present_le s
  refine ⟨fun p k hk => ?_, fun p q k => h.path_unique hq, fun p k hk => ?_⟩
  · have := (h.descend_le hq hk).1
    change k.toNat + 1 < 512
    omega
  · obtain ⟨-, hnodes, -⟩ := h.properTree hq h2
    rcases hnodes p k hk with hleaf | ⟨-, -, -, hlen⟩
    · exact ⟨[], _, Machine.leafSym_eq_some.2 ⟨k, by rwa [List.append_nil], hleaf, rfl⟩⟩
    · obtain ⟨q, v, -, hv⟩ := (h.properTree hq h2).exists_leaf (bits := List.replicate (Config.codeLenMax - p.length) false) hk
        (by rw [List.length_replicate]; omega)
      refine ⟨q, v, ?_⟩
      rwa [leafSym_eq_leafFrom, leafFrom, descend_append, hk]

theorem LeafyTree.congr {s t : State} (h : LeafyTree t) (hr : s.root = t.root) (hna : s.na = t.na) (he : s.epoch = t.epoch) :
    LeafyTree s := by
  have hpath (p : BitString) : descend s s.root p = descend t t.root p := by rw [hr, descend_congr hna he]
  refine ⟨fun p k hk => h.bounded p k (hpath p ▸ hk), fun p q k hp hq => h.unique p q k (hpath p ▸ hp) (hpath q ▸ hq),
    fun p k hk => ?_⟩
  obtain ⟨q, v, hv⟩ := h.toLeaf p k (hpath p ▸ hk)
  exact ⟨q, v, (leafSym_congr hr hna he _).trans hv⟩

/-- A BUILD without error leaves a tree all of whose branches end in leaves. -/
theorem leafyTree_of_build {s b : State} (hs : s.ready) (hb : exec .build s = .next b) (hok : b.err = false) :
    LeafyTree b := by
  rcases present_of_build_ok hs hb hok with ⟨v, hp⟩ | h2
  · obtain ⟨-, hk, hd, -⟩ := degenerate_of_build_one hs hp hb
    obtain ⟨honly, -, hwrap⟩ := build_of_one hs hp hb
    have hroot : b.root = 1 := by rw [honly]
    refine leafyTree_of_degenerate hk hd (by rw [hroot]; decide) ?_
    rw [hroot, hwrap, leftOf_wrapperNode]
    decide
  · obtain rfl := Host.Outcome.next.inj ((exec_build_of_ready hs).symm.trans hb)
    obtain ⟨f, t, -, -, -, ht, hq, hrun⟩ := merges_of_build_ok (s := s.accept 0x00000001) h2 hok
    rw [hrun]
    exact (ht.leafyTree hq h2).congr rfl rfl rfl

/-- Settles O57: REBUILD makes a twin of the built tree, and DECODE does the same from twins. -/
theorem rebuiltTreeDecodesAlike : Obligations.RebuiltTreeDecodesAlike := by
  unfold Obligations.RebuiltTreeDecodesAlike
  intro s b g bs' len' hs hb hok hg
  obtain ⟨g', hg', hgok, -⟩ := genAfterBuildSucceeds s b hs hb hok
  obtain rfl := Host.Outcome.next.inj (hg'.symm.trans hg)
  obtain ⟨honly, hcodes⟩ := gen_ok (ready_of_build_ok hs hb hok) hg hgok
  have hleafy := leafyTree_of_build hs hb hok
  obtain ⟨a, ps, hrebuild, hchart⟩ := rebuild_ok hleafy hcodes
  have htwin : TwinTrees { g' with bs := bs', bitLen := len' } ({ g' with bs := bs', bitLen := len' }.loadTree a.na) :=
    hchart.twinTrees hleafy (by rw [honly]; rfl) (by rw [honly]; rfl) (by rw [honly]; rfl)
  obtain ⟨d, hd, hd'⟩ := decode_loadTree (s := { g' with bs := bs', bitLen := len' }) ⟨by rw [honly]; rfl, hgok⟩ htwin
  exact ⟨a.na, hrebuild, d, _, hd, hd', rfl, rfl, rfl, rfl, rfl⟩

end Sys2Proof.Machine
end

section
/-!
What a stream and a table that cannot be worked off do (60_exceptions.md R252, R254, R255, R256): BUILD of no symbol, ENCODE of a
symbol without an entry, DECODE of a stream that ends inside a code or leaves the tree.
-/

namespace Sys2Proof.Machine

/-! ## BUILD of an empty table (60_exceptions.md R252) -/

theorem present_eq_nil {s : State} (h : ∀ v < Config.nsym, s.ftAt v = 0) : present s = [] :=
  List.filter_eq_nil_iff.2 fun v hv => by simp [h v (List.mem_range.1 hv)]

theorem buildEdges_of_none {f : Forest} (h : f.n = 0) : buildEdges f = .error (f.st.raise .emptyInput 0) := by
  rw [buildEdges, if_pos h]

/-- BUILD of no symbol: phase 1 writes no leaf, so NA is as phase 0 cleared it. -/
theorem buildRun_of_empty {s : State} (h : present s = []) :
    ∃ t : State, (buildRun s).finish = t.raise .emptyInput 0 ∧ t = { buildClear s with na := t.na } ∧
      ∀ k < Config.nodeCap, t.naAt k = 0 := by
  have hs := scanned s
  rw [buildRun]
  generalize buildScan Config.nsym 0 (buildBegin s) = f at hs ⊢
  have hn : f.n = 0 := by rw [hs.n, ← present_eq_presentBelow, h, List.length_nil]
  refine ⟨f.st, by rw [buildEdges_of_none hn, bind_error, Run.finish_error], hs.only, fun k hk => ?_⟩
  exact hs.free k hk (hn ▸ Nat.zero_le k)

/-- Settles O18: phase 2 finds no leaf and raises, with phase 0's ROOT, NODE_COUNT and NA. -/
theorem buildEmptyTableRaises : Obligations.BuildEmptyTableRaises := by
  unfold Obligations.BuildEmptyTableRaises
  intro s hready hzero
  obtain ⟨t, hrun, honly, hfree⟩ := buildRun_of_empty (s := s.accept 0x00000001) (present_eq_nil hzero)
  refine ⟨_, exec_build_of_ready hready, ?_⟩
  rw [hrun]
  exact ⟨raise_of_only honly .emptyInput 0, hfree⟩

/-! ## ENCODE of a symbol without an entry (60_exceptions.md R254) -/

theorem encodeSymbol_of_noEntry {i bitpos : Nat} {s : State} (h : lenOf (s.codeElem (s.symAt i)) = 0) :
    encodeSymbol i bitpos s = .error (s.raise .unknownSymbol (BitVec.ofNat 32 i)) :=
  if_pos h

/-- Settles O36: the loop comes to the symbol without an entry with the codes before it put, and raises. -/
theorem encodeUnknownSymbolRaises : Obligations.EncodeUnknownSymbolRaises := by
  unfold Obligations.EncodeUnknownSymbolRaises
  intro s front rest v hready hcap hseq hv hentry hfit
  obtain ⟨-, hat, -⟩ := symbols_of_sequence_eq hseq
  have hrun := encodeRun_of_encodeSymbol_error (s := s.accept 0x00000003) hcap hseq hentry hfit <|
    encodeSymbol_of_noEntry (by rw [symAt_putBits, codeElem_putBits]; exact hat ▸ hv)
  refine ⟨_, exec_encode_of_ready hready, ?_⟩
  rw [hrun, Run.finish_error]
  exact ⟨raise_putBits_accept .., map_getBit_putBits_start .., fun j => getBit_putBits_padding,
    fun q => bsAt_putBits_later⟩

/-! ## DECODE inside a code (60_exceptions.md R255, R256) -/

theorem descend_accept (s : State) (w : Word) (k : NodeIdx) (p : BitString) : descend (s.accept w) k p = descend s k p :=
  descend_congr (s := s.accept w) (t := s) rfl rfl k p

/-- The cursor at node `k`, after whole paths whose symbols are `vs` and then the path `q` from the root to `k`. -/
def cursorInside (s : State) (vs : List Sym) (q : BitString) (k : NodeIdx) : Cursor :=
  { cur := k, m := vs.length, st := (s.emit vs).setDecState (if q = [] then .atRoot else .inPath) }

/-- An error raised inside a code: SYM and DEC_STATE alone are written beside it. -/
theorem raise_cursorInside (s : State) (w : Word) (vs : List Sym) (q : BitString) (k : NodeIdx) (e : Err) (info : Word) :
    (cursorInside (s.accept w) vs q k).st.raise e info =
      { s.raised w e info with sym := (s.emit vs).sym, decState := if q = [] then .atRoot else .inPath } :=
  rfl

section
variable {s : State} {ps : List BitString} {vs : List Sym} {q rest : BitString} {b : Bool} {k : NodeIdx}

/-- From the root along a path that ends at an INTERNAL node the loop only moves the cursor. -/
theorem decodeLoop_inside {j : Nat} (hbits : s.bitsAt j q) (hnode : descend s s.root q = some k)
    (hint : q ≠ [] → kindOf (s.node k) = .internal) :
    decodeLoop q.length j (cursorAfter s vs) = .ok (cursorInside s vs q k) := by
  by_cases hq : q = []
  · subst hq
    obtain rfl := Option.some.inj hnode
    rfl
  · rw [cursorAfter, decodeLoop_path q j vs.length s.root k ((s.emit vs).setDecState .atRoot) hbits (by simpa using hnode)
      (by simpa using hint hq), cursorInside, if_neg hq, if_neg hq, setDecState_setDecState]

/-- Along whole paths and then a path inside the tree the loop emits the symbols of the whole ones. -/
theorem decodeLoop_paths_inside (h : Spells s ps vs) (hbits : s.bitsAt 0 (ps.flatten ++ q)) (hroom : vs.length ≤ Config.symCap)
    (hnode : descend s s.root q = some k) (hint : q ≠ [] → kindOf (s.node k) = .internal) :
    decodeLoop (ps.flatten.length + q.length) 0 (cursorAfter s []) = .ok (cursorInside s vs q k) := by
  obtain ⟨hwhole, hpart⟩ := State.bitsAt_append hbits
  rw [decodeLoop_add, decodeLoop_paths h hwhole (by simpa using hroom), bind_ok, List.nil_append]
  exact decodeLoop_inside hpart hnode hint

/-- A stream that ends inside the tree: the decoder is IN_PATH after its last bit (43_decoder.md R187). -/
theorem decodeRun_of_truncated (hfit : s.bitLen.toNat ≤ 8 * Config.bsCap) (h : Spells s ps vs)
    (hstream : stream s = ps.flatten ++ q) (hroom : vs.length ≤ Config.symCap) (hq : q ≠ [])
    (hnode : descend s s.root q = some k) (hint : kindOf (s.node k) = .internal) :
    decodeRun s = .error ((cursorInside s vs q k).st.raise .truncatedStream s.bitLen) := by
  rw [decodeRun_of_fits hfit, length_of_stream_eq hstream, List.length_append,
    decodeLoop_paths_inside h (bitsAt_of_stream_eq hstream) hroom hnode fun _ => hint, bind_ok, decodeEnd, if_neg]
  · rfl
  · rw [cursorInside, State.setDecState_decState, if_neg hq]
    exact nofun

/-- A bit that cannot be followed (43_decoder.md R186). -/
theorem decodeBit_corrupt {j : Nat} {c : Cursor}
    (h : kindOf (c.st.node c.cur) ≠ .internal ∨ childValid (c.st.node c.cur) (c.st.getBit j) = false ∨
      kindOf (c.st.node (childOf (c.st.node c.cur) (c.st.getBit j))) = .free) :
    decodeBit j c = .error (corruptAt c.st j) := by
  unfold decodeBit
  dsimp only
  split
  next hk =>
    split
    next hv =>
      obtain hk' | hv' | hfree := h
      · exact absurd hk hk'
      · rw [hv] at hv'
        cases hv'
      · rw [decodeArrive, hfree]
    next => rfl
  next => rfl

/-- A stream that leaves the tree: the bit that cannot be followed ends DECODE, whatever comes after it. -/
theorem decodeRun_of_corrupt (hfit : s.bitLen.toNat ≤ 8 * Config.bsCap) (h : Spells s ps vs)
    (hstream : stream s = ps.flatten ++ (q ++ b :: rest)) (hroom : vs.length ≤ Config.symCap)
    (hnode : descend s s.root q = some k) (hint : q ≠ [] → kindOf (s.node k) = .internal)
    (hbad : kindOf (s.node k) ≠ .internal ∨ childValid (s.node k) b = false ∨
      kindOf (s.node (childOf (s.node k) b)) = .free) :
    decodeRun s = .error (corruptAt (cursorInside s vs q k).st (ps.flatten.length + q.length)) := by
  have hbits := bitsAt_of_stream_eq hstream
  rw [← List.append_assoc] at hbits
  obtain ⟨hpaths, hrest⟩ := State.bitsAt_append hbits
  obtain rfl : s.getBit (ps.flatten.length + q.length) = b := by simpa using hrest 0 (Nat.succ_pos _)
  have hbit : decodeBit (ps.flatten.length + q.length) (cursorInside s vs q k) =
      .error (corruptAt (cursorInside s vs q k).st (ps.flatten.length + q.length)) :=
    decodeBit_corrupt (c := cursorInside s vs q k) hbad
  have hlen : s.bitLen.toNat = ps.flatten.length + q.length + (rest.length + 1) := by
    rw [length_of_stream_eq hstream, List.length_append, List.length_append, List.length_cons, Nat.add_assoc]
  rw [decodeRun_of_fits hfit, hlen, decodeLoop_add, decodeLoop_paths_inside h hpaths hroom hnode hint, bind_ok, decodeLoop,
    Nat.zero_add, hbit, bind_error, bind_error]

end

/-- Settles O42: the loop consumes the stream without error and ends inside the tree, so the end raises. -/
theorem decodeTruncatedRaises : Obligations.DecodeTruncatedRaises := by
  unfold Obligations.DecodeTruncatedRaises
  intro s ps vs q k hready hfit hpaths hstream hroom hq hnode hint
  have hrun := decodeRun_of_truncated (s := s.accept 0x00000004) hfit (spells_accept.2 hpaths) hstream hroom hq
    ((descend_accept ..).trans hnode) hint
  refine ⟨_, exec_decode_of_ready hready, ?_⟩
  rw [hrun, Run.finish_error, raise_cursorInside, if_neg hq]
  exact ⟨rfl, map_symAt_emit s vs, fun i => symAt_emit_of_le⟩

/-- Settles O43: the loop comes to the bit with the cursor inside the tree, and raises at it. -/
theorem decodeCorruptTreeRaises : Obligations.DecodeCorruptTreeRaises := by
  unfold Obligations.DecodeCorruptTreeRaises
  intro s ps vs q rest b k hready hfit hpaths hstream hroom hnode hint hbad
  have hrun := decodeRun_of_corrupt (s := s.accept 0x00000004) hfit (spells_accept.2 hpaths) hstream hroom
    ((descend_accept ..).trans hnode) hint hbad
  refine ⟨_, exec_decode_of_ready hready, ?_⟩
  rw [hrun, Run.finish_error, corruptAt, raise_cursorInside]
  exact ⟨rfl, map_symAt_emit s vs, fun i => symAt_emit_of_le⟩

end Sys2Proof.Machine
end

section
/-!
The error latch (60_exceptions.md R262, R264): what raising an error writes, and that short of CLRERR and reset nothing the host does
releases it. And reset and progress (70_reset_and_hazards.md R281, R295): an idle block stays as it is, every step answers a next
state, and every accepted command comes to its end.
-/

namespace Sys2Proof.Machine

/-- Settles O10: `raise` is the record update R262 writes, and the codes are R251's table. -/
theorem raiseLatchesAndEnds : Obligations.RaiseLatchesAndEnds := by
  unfold Obligations.RaiseLatchesAndEnds
  intro s e info
  exact ⟨rfl, rfl, rfl, rfl, rfl, rfl, rfl, rfl, rfl, rfl, rfl⟩

/-! ## An idle block -/

/-- An idle block makes no iteration (70_reset_and_hazards.md R281). -/
theorem State.tick_of_idle {s : State} (h : s.hidden = .idle) : s.tick = s := State.ticks_idle h 1

/-- A poll of a block that is not busy reads STATUS once (30_encoding.md R100). -/
theorem State.poll_of_not_busy {s : State} (h : s.busy = false) : s.poll = s.hostRead .csr 1 := by
  rw [State.poll, h]
  exact if_neg Bool.false_ne_true

/-- Settles O4: at reset no command runs and no event is listed, so a step is a tick of an idle block. -/
theorem resetIdleAndAccepting : Obligations.ResetIdleAndAccepting := by
  unfold Obligations.ResetIdleAndAccepting
  have hidle (s : State) (hin : s.inputs = []) (hh : s.hidden = .idle) : step s = .next s := by
    rw [step_nil hin, State.tick_of_idle hh]
  exact ⟨rfl, rfl, rfl, State.ignores_of_ready ⟨rfl, rfl⟩, hidle _ rfl rfl, hidle⟩

/-! ## The latch stays (60_exceptions.md R264) -/

/-- Under the latch every word but CLRERR's is ignored. -/
theorem State.ignores_of_err {s : State} {w : Word} (he : s.err = true) (hw : w ≠ clrerrWord) : s.ignores w = true :=
  (s.ignores_iff w).2 (.inr ⟨he, hw⟩)

/-- A host transaction other than the issue of CLRERR leaves the latch as it is. -/
theorem runHostTx_keeps_latch {s : State} {x : HostTx} (he : s.err = true) (hx : x ≠ .write .csr 0 clrerrWord) :
    ∃ t, runHostTx x s = .next t ∧ t.err = s.err ∧ t.errCode = s.errCode ∧ t.errInfo = s.errInfo := by
  obtain ⟨-, -, -, hwrite, hread⟩ := hostWriteAccessRights
  cases x with
  | read sp i => exact hread s sp i
  | write sp i v =>
    by_cases hc : sp = .csr ∧ i = 0
    · obtain ⟨rfl, rfl⟩ := hc
      have hv : v ≠ clrerrWord := fun hv => hx (hv ▸ rfl)
      exact ⟨s, issueWord_ignored (State.ignores_of_err he hv), rfl, rfl, rfl⟩
    · exact hwrite s sp i v hc

/-- An event other than a reset and the issue of CLRERR leaves the latch as it is: the block is idle, so it makes no iteration. -/
theorem State.Inv.runEvent_keeps_latch {s : State} {e : Event} (h : s.Inv) (he : s.err = true) (hreset : e ≠ .reset)
    (hissue : e ≠ .issue clrerrWord) (hhost : e ≠ .host (.write .csr 0 clrerrWord)) :
    ∃ t, Machine.runEvent e s = .next t ∧ t.err = s.err ∧ t.errCode = s.errCode ∧ t.errInfo = s.errInfo := by
  obtain ⟨hbusy, -⟩ := h.errIdle he
  cases e with
  | host x => exact runHostTx_keeps_latch he fun hx => hhost (congrArg Event.host hx)
  | issue w =>
    have hw : w ≠ clrerrWord := fun hw => hissue (congrArg Event.issue hw)
    exact ⟨s, congrArg Host.Outcome.next (State.issueOnly_ignored (State.ignores_of_err he hw)), rfl, rfl, rfl⟩
  | tick => exact ⟨s, congrArg Host.Outcome.next (State.tick_of_idle (h.hidden_of_not_busy hbusy)), rfl, rfl, rfl⟩
  | wait => exact ⟨s.hostRead .csr 1, congrArg Host.Outcome.next (State.poll_of_not_busy hbusy), rfl, rfl, rfl⟩
  | reset => exact absurd rfl hreset

/-- Settles O11: the step takes the event, which leaves the latch as it is. -/
theorem latchedErrorStays : Obligations.LatchedErrorStays := by
  unfold Obligations.LatchedErrorStays
  intro s e rest hinv he hin hreset hissue hhost
  obtain ⟨t, ht, herr, hcode, hinfo⟩ := (hinv.record rest s.replies s.draws).runEvent_keeps_latch he hreset hissue hhost
  exact ⟨t, (step_cons hin).trans ht, herr.trans he, hcode, hinfo⟩

/-! ## Every step answers a next state (70_reset_and_hazards.md R295) -/

theorem exists_issueWord (w : Word) (s : State) : ∃ t, issueWord w s = .next t := by
  cases hd : decode w with
  | ok i => exact ⟨_, (issueWord_of_decode_ok hd s).trans (exec_eq_issue i s)⟩
  | error e => exact ⟨_, issueWord_of_decode_error hd s⟩

theorem exists_runHostTx (x : HostTx) (s : State) : ∃ t, runHostTx x s = .next t := by
  cases x with
  | read sp i => exact ⟨_, rfl⟩
  | write sp i v =>
    by_cases hc : sp = .csr ∧ i = 0
    · obtain ⟨rfl, rfl⟩ := hc
      exact exists_issueWord v s
    · exact ⟨_, runHostTx_write hc v s⟩

theorem exists_runEvent (e : Event) (s : State) : ∃ t, runEvent e s = .next t := by
  cases e with
  | host x => exact exists_runHostTx x s
  | issue w => exact ⟨_, rfl⟩
  | tick => exact ⟨_, rfl⟩
  | wait => exact ⟨_, rfl⟩
  | reset => exact ⟨_, rfl⟩

/-- Settles O50: a step is one event of the boundary or one iteration, and each answers a next state. -/
theorem stepAlwaysAnswersNext : Obligations.StepAlwaysAnswersNext := by
  unfold Obligations.StepAlwaysAnswersNext
  intro s
  cases hin : s.inputs with
  | nil => exact ⟨_, step_nil hin⟩
  | cons e rest => exact step_cons hin ▸ exists_runEvent e _

/-! ## Every accepted command completes (70_reset_and_hazards.md R295) -/

/-- What completion and a raised error write alike, BUSY, DONE and the hidden state, and LAST_OP beside them. -/
def State.progress (s : State) : Bool × Bool × BitVec 4 × Hidden := (s.busy, s.done, s.lastOp, s.hidden)

/-- Where the command ends if it completes right after the piece `r`, which goes on with the machine `st a`. -/
abbrev Run.ending {α : Type} (r : Run α) (st : α → State) : State := r.goOn fun a => (st a).complete

/-- What follows the piece `r` ends as the command would end right after it, if it does so from wherever `r` goes on. -/
theorem progress_goOn {α : Type} {r : Run α} {f st : α → State} (h : ∀ a, (f a).progress = (st a).complete.progress) :
    (r.goOn f).progress = (r.ending st).progress := by
  cases r with
  | error t => rfl
  | ok a => exact h a

theorem finish_eq_ending (r : Run State) : r.finish = r.ending id := by
  cases r <;> rfl

/-! ### BUILD -/

theorem progress_buildEdges (f : Forest) : ((buildEdges f).ending Forest.st).progress = f.st.complete.progress := by
  unfold buildEdges
  split
  · rfl
  · split <;> rfl

theorem progress_buildMerge (f : Forest) : ((buildMerge f).ending Forest.st).progress = f.st.complete.progress := by
  unfold buildMerge
  dsimp only
  split <;> rfl

theorem progress_buildMerges (room : Nat) (f : Forest) :
    ((buildMerges room f).ending Forest.st).progress = f.st.complete.progress := by
  induction room generalizing f with
  | zero => rfl
  | succ room ih =>
    unfold buildMerges
    split
    · rw [Run.ending, goOn_bind]
      exact (progress_goOn ih).trans (progress_buildMerge f)
    · rfl

theorem progress_buildRun (s : State) : (buildRun s).finish.progress = s.complete.progress := by
  have hmerges (f : Forest) :
      (Run.finish ((buildMerges f.pq.length f).map buildStore)).progress = f.st.complete.progress := by
    rw [finish_map, ← progress_buildMerges f.pq.length f]
    exact progress_goOn fun _ => rfl
  rw [buildRun, finish_bind]
  refine ((progress_goOn hmerges).trans (progress_buildEdges _)).trans ?_
  rw [(scanned s).only]
  rfl

/-! ### GEN -/

theorem progress_genStart (s : State) : ((genStart s).ending id).progress = s.complete.progress := by
  unfold genStart
  dsimp only
  split
  · split <;> rfl
  · rfl

theorem progress_genVisit (k : NodeIdx) (path : BitString) (s : State) :
    ((genVisit k path s).ending (·.2)).progress = s.complete.progress := by
  cases h : genVisit k path s with
  | error t =>
    rw [genVisit_error h]
    rfl
  | ok r => obtain ⟨-, -, rfl⟩ | ⟨-, -, -, -, rfl⟩ := genVisit_ok h <;> rfl

theorem progress_walk (room : Nat) (k : NodeIdx) (path : BitString) (s : State) :
    ((walk room k path s).ending id).progress = s.complete.progress := by
  induction room generalizing k path s with
  | zero =>
    rw [walk, Run.ending, goOn_map]
    exact progress_genVisit k path s
  | succ room ih =>
    rw [walk, Run.ending, goOn_bind]
    refine (progress_goOn fun r => ?_).trans (progress_genVisit k path s)
    obtain ⟨children, u⟩ := r
    cases children with
    | none => rfl
    | some c =>
      simp only [goOn_bind]
      exact (progress_goOn fun u' => ih ..).trans (ih ..)

theorem progress_genRun (s : State) : (genRun s).finish.progress = s.complete.progress := by
  rw [genRun, finish_bind]
  refine (progress_goOn fun u => ?_).trans (progress_genStart s)
  rw [finish_eq_ending]
  exact progress_walk Config.codeLenMax u.root [] u

/-! ### ENCODE -/

theorem progress_encodeStart (s : State) : ((encodeStart s).ending id).progress = s.complete.progress := by
  unfold encodeStart
  split <;> rfl

theorem progress_encodeSymbol (i bitpos : Nat) (s : State) :
    ((encodeSymbol i bitpos s).ending (·.2)).progress = s.complete.progress := by
  unfold encodeSymbol
  dsimp only
  split
  · rfl
  · split
    · rfl
    · rw [Run.ending, Run.goOn_ok, putBits_eq]
      rfl

theorem progress_encodeLoop (left i bitpos : Nat) (s : State) :
    ((encodeLoop left i bitpos s).ending (·.2)).progress = s.complete.progress := by
  induction left generalizing i bitpos s with
  | zero => rfl
  | succ left ih =>
    rw [encodeLoop, Run.ending, goOn_bind]
    exact (progress_goOn fun r : Nat × State => ih (i + 1) r.1 r.2).trans (progress_encodeSymbol i bitpos s)

theorem progress_encodeRun (s : State) : (encodeRun s).finish.progress = s.complete.progress := by
  rw [encodeRun, finish_bind]
  refine (progress_goOn fun u => ?_).trans (progress_encodeStart s)
  rw [finish_map, id, ← progress_encodeLoop u.symLen.toNat 0 0 u]
  exact progress_goOn fun _ => rfl

/-! ### DECODE -/

theorem progress_decodeStart (s : State) : ((decodeStart s).ending Cursor.st).progress = s.complete.progress := by
  unfold decodeStart
  split <;> rfl

theorem progress_decodeArrive (j : Nat) (nxt : NodeIdx) (c : Cursor) :
    ((decodeArrive j nxt c).ending Cursor.st).progress = c.st.complete.progress := by
  unfold decodeArrive
  split
  · split <;> rfl
  · rfl
  · rfl

theorem progress_decodeBit (j : Nat) (c : Cursor) :
    ((decodeBit j c).ending Cursor.st).progress = c.st.complete.progress := by
  unfold decodeBit
  dsimp only
  split
  · split
    · exact progress_decodeArrive ..
    · rfl
  · rfl

theorem progress_decodeLoop (left j : Nat) (c : Cursor) :
    ((decodeLoop left j c).ending Cursor.st).progress = c.st.complete.progress := by
  induction left generalizing j c with
  | zero => rfl
  | succ left ih =>
    rw [decodeLoop, Run.ending, goOn_bind]
    exact (progress_goOn (ih (j + 1))).trans (progress_decodeBit j c)

theorem progress_decodeEnd (c : Cursor) : (decodeEnd c).finish.progress = c.st.complete.progress := by
  unfold decodeEnd
  split <;> rfl

theorem progress_decodeRun (s : State) : (decodeRun s).finish.progress = s.complete.progress := by
  rw [decodeRun, finish_bind]
  refine (progress_goOn fun c => ?_).trans (progress_decodeStart s)
  rw [finish_bind]
  exact (progress_goOn progress_decodeEnd).trans (progress_decodeLoop c.st.bitLen.toNat 0 c)

/-! ### Every command -/

/-- A command's pseudocode ends with BUSY, DONE, LAST_OP and the hidden state of a completed command, error or not. -/
theorem progress_runOf (i : Instr) (s : State) : (runOf i s).finish.progress = s.complete.progress := by
  cases i with
  | nop => rfl
  | build => exact progress_buildRun s
  | gen => exact progress_genRun s
  | encode => exact progress_encodeRun s
  | decode => exact progress_decodeRun s
  | clrerr => rfl

/-- NOP and CLRERR, accepted, complete with their acceptance (70_reset_and_hazards.md R295, log 12). -/
theorem State.issueOnly_atOnce {s : State} {i : Instr} (hi : i = .nop ∨ i = .clrerr) (hg : s.ignores (encode i) = false) :
    s.issueOnly (encode i) = (runOf i (s.accept (encode i))).finish := by
  have honce : completesAtOnce (encode i) = true := by
    obtain rfl | rfl := hi <;> decide
  rw [State.issueOnly, if_neg (by simp [hg]), if_pos honce, State.beginWord, decode_encode_eq]
  obtain rfl | rfl := hi <;> rfl

/-- Settles O8: an accepted command ends as a completed one does, with the LAST_OP its acceptance wrote. -/
theorem everyAcceptedCommandCompletes : Obligations.EveryAcceptedCommandCompletes := by
  unfold Obligations.EveryAcceptedCommandCompletes
  refine ⟨fun i s hb he => ⟨_, exec_accepted (ignores_encode hb he), ?_⟩, fun i s hb hi => ?_⟩
  · have h := progress_runOf i (s.accept (encode i))
    simp only [State.progress, Prod.mk.injEq] at h
    obtain ⟨hbusy, hdone, hop, hidle⟩ := h
    exact ⟨hbusy, hdone, hop.trans (opField_encode i), hidle⟩
  · have hg : s.ignores (encode i) = false := ignores_encode hb (hi.imp_left And.left)
    rw [exec_accepted hg, State.issueOnly_atOnce (hi.imp_left And.right) hg]

end Sys2Proof.Machine
end
